-- ==== Sys2Proof/Word.lean ====
section
/-! DEFINITION. The words of the block: bytes and the 16-bit request header (spec/30_encoding.md R90, R91),
and the three byte values the source fixes (R106). -/

namespace Sys2Proof

/-- One byte of a payload or of a byte-addressed memory (R62, R99). -/
abbrev Byte := BitVec 8

/-- The 16-bit request header `H` (R91). -/
abbrev Header := BitVec 16

/-- `TERM`: the carriage return that ends a command line (R106, R199). -/
def term : Byte := 0x0D

/-- `ACK`: the reply byte of a successful command (R106). -/
def ack : Byte := 0x0D

/-- `NAK`: the reply byte of a failed parse (R106). -/
def nak : Byte := 0x07

end Sys2Proof
end

