-- ==== Sys2Proof/Syntax.lean ====
section
/-! DEFINITION. The names of the block (operations, ports, formats, codes, events, results) and the request as a
typed value, one constructor of `Instr` per row of spec/opcode_table.json (spec/30_encoding.md R90 to R108). -/

namespace Sys2Proof

/-- The five request ports (R90). -/
inductive Port where
  | p     -- the producer of the stand-alone ring
  | c     -- the consumer of the stand-alone ring
  | fgp   -- agent FG
  | irqp  -- agent IRQ
  | envp  -- agent USBDEV
  deriving DecidableEq, Repr, Inhabited

/-- The five request formats (R92). -/
inductive Format where
  | z | a | t | f | s
  deriving DecidableEq, Repr, Inhabited

/-- The twenty operations by name (R102). -/
inductive Opcode where
  | rbPush | rbPend | rbPeek | rbAdv | rbPop
  | ctxEnq | ctxProc
  | busEn | busDis | busRate | busSilent | busArtx
  | crxPend | crxRecv | crxOvf
  | urxChunk | urxDrain
  | utxSend | utxDone
  | loopIter
  deriving DecidableEq, Repr, Inhabited

/-- The nine nominal bit-rates (R103). -/
inductive Rate where
  | rate10K | rate20K | rate50K | rate100K | rate125K | rate250K | rate500K | rate750K | rate1000K
  deriving DecidableEq, Repr, Inhabited

/-- The header fields of a CAN frame (spec/10_state.md R38): identifier, extended flag, remote flag, data length code.
The 29 bits of `id` are the spec's `ID_W` (R9, general knowledge: log entry 14). -/
structure FrameHeader where
  id  : BitVec 29
  ext : Bool
  rtr : Bool
  dlc : BitVec 4
  deriving DecidableEq, Repr, Inhabited

/-- The frame record `FR[103:0]` a CTX.ENQ request carries (R97), less its reserved bits, which the decoder checks:
eight payload bytes, of which the first `dlc` count. -/
structure FrameRecord where
  header : FrameHeader
  data   : Vector Byte 8
  deriving DecidableEq, Repr, Inhabited

/-- A `CanFrame` as its users see it, the view `(id, ext, rtr, dlc, data[0 .. dlc))` of spec/41_cantx.md R148:
the payload list holds the valid bytes only. -/
structure CanFrame where
  header : FrameHeader
  data   : List Byte
  deriving DecidableEq, Repr, Inhabited

/-- A request with its operands (R102): one constructor per row of the opcode table. -/
inductive Instr where
  /-- RB.PUSH: the item is a value of the ring's element type `T`, as bytes; `Instr.wf` says how many (R100; log entry 3). -/
  | rbPush (item : List Byte)
  | rbPend
  | rbPeek
  | rbAdv
  | rbPop
  | ctxEnq (frame : FrameRecord)
  | ctxProc
  | busEn
  | busDis
  /-- BUS.RATE: the header selects the row for all sixteen codes; 9 to 15 are then refused (R102, R109). -/
  | busRate (r : BitVec 4)
  | busSilent (s : Bool)
  | busArtx (a : Bool)
  | crxPend
  | crxRecv
  | crxOvf
  | urxChunk (bytes : List Byte)
  | urxDrain
  | utxSend (bytes : List Byte)
  | utxDone
  | loopIter
  deriving DecidableEq, Repr, Inhabited

/-- The six error events (spec/60_exceptions.md R245). -/
inductive Event where
  | canQueueFull | canTxHardwareReject | canRxFifoOverflow | usbRxBufferFull | usbTxBusy | usbLineOverflow
  deriving DecidableEq, Repr, Inhabited

/-- `BusState` (spec/10_state.md R31). -/
inductive BusState where
  | off | on
  deriving DecidableEq, Repr, Inhabited

/-- `FG_PHASE`: the part of LOOP.ITER that runs next (spec/10_state.md R46). -/
inductive Phase where
  | pTx | pCanRx | pUsbRx
  deriving DecidableEq, Repr, Inhabited

/-- The result of a request with what it carries (R108): `OK` alone, with one boolean, with an item, with a frame. -/
inductive Result where
  | ok
  | okBool (b : Bool)
  | okItem (item : List Byte)
  | okFrame (frame : CanFrame)
  | full
  | busy
  | tooLong
  | hwError
  | empty
  deriving DecidableEq, Repr, Inhabited

end Sys2Proof
end

