-- ==== Sys2Proof/WellFormed.lean ====
section
/-! DEFINITION. Which requests carry operands the spec gives a meaning to (spec/30_encoding.md R94, R96, R98, R103,
R109, R110). -/

namespace Sys2Proof

/-- The header clauses of R98: `dlc <= 8`, and a standard frame has `id[28:11] = 0` (the second clause is the spec's
general knowledge G2: log entry 14). -/
def FrameHeader.wf (h : FrameHeader) : Bool :=
  decide (h.dlc.toNat ≤ 8) && (h.ext || decide (h.id.toNat < 2 ^ 11))

/-- A frame record is well formed when its header is; `data[i]` for `i >= dlc` may be anything (R98). -/
def FrameRecord.wf (f : FrameRecord) : Bool := f.header.wf

/-- A `CanFrame` of the data model (spec/10_state.md R38): a well-formed header and exactly `dlc` payload bytes. -/
def CanFrame.wf (f : CanFrame) : Bool :=
  f.header.wf && decide (f.data.length = f.header.dlc.toNat)

/-- Frames that are well formed by construction: what the parser may enqueue (spec/46_loop.md R237) and what the CAN
peripheral may deliver (spec/60_exceptions.md R265, R270). -/
abbrev WfFrame := { f : CanFrame // f.wf = true }

/-- A request whose operands the encoding admits, for an element type `T` of `size` bytes: an item has the size of `T`
(R100), a byte string's length fits `LEN[15:0]` (R96), a rate code is 0 to 8 (R103, R109), a frame record is well formed
(R98). -/
def Instr.wf (size : Nat) : Instr → Bool
  | .ctxEnq f => f.wf
  | .busRate r => decide (r.toNat ≤ 8)
  | .urxChunk bs => decide (bs.length < 2 ^ 16)
  | .utxSend bs => decide (bs.length < 2 ^ 16)
  | .rbPush item => decide (item.length = size)
  | .rbPend => true
  | .rbPeek => true
  | .rbAdv => true
  | .rbPop => true
  | .ctxProc => true
  | .busEn => true
  | .busDis => true
  | .busSilent _ => true
  | .busArtx _ => true
  | .crxPend => true
  | .crxRecv => true
  | .crxOvf => true
  | .urxDrain => true
  | .utxDone => true
  | .loopIter => true

end Sys2Proof
end

