-- ==== Sys2Proof/Config.lean ====
section
/-! DEFINITION. What an implementation fixes and what the spec leaves open (spec/00_scope.md R8, R9, R10;
spec/46_loop.md R236 to R239; spec/93_implementation_defined.md section 2). -/

namespace Sys2Proof

/-- The operations the parser may issue, each with operands that are well formed by construction
(spec/46_loop.md R237). -/
inductive Cmd where
  | enq (frame : WfFrame)
  | en
  | dis
  | rate (r : Rate)
  | silent (s : Bool)
  | artx (a : Bool)
  deriving DecidableEq, Repr

/-- The memory spaces an access can fall outside of (spec/20_memory.md R60), `qSlot` being a stand-alone ring's. -/
inductive Space where
  | qSlot | ctxMem | urxMem | urxLen | lineMem | utxMem
  deriving DecidableEq, Repr, Inhabited

/-- The parameters of an implementation (R8, R9, R10) with their constraints built in (`N >= 2` as `+ 2`, a size
`>= 1` as `+ 1`: R285), the two function ports (R239), and the values the spec leaves free (V1, V5). A function of
two numbers takes the count of resets first: a later reset leaves other unspecified contents than an earlier one. -/
structure Config where
  /-- `N - 2` of the stand-alone ring instance (R10). -/
  ringExtra : Nat
  /-- The size in bytes of the element type `T` of that instance (R10; spec/30_encoding.md R100; log entry 3). -/
  itemSize : Nat
  /-- `N_RX - 2` (R8). -/
  nRxExtra : Nat
  /-- `APP_RX_DATA_SIZE - 1` (R8). -/
  appExtra : Nat
  /-- `SLCAN_MTU - 1` (R8). -/
  mtuExtra : Nat
  /-- `TX_BUF_SIZE - 1` (R8). -/
  txBufExtra : Nat
  /-- `CNT_W`, the width of an event counter (R9). -/
  cntW : Nat
  /-- `SILENT_RESET` (R9). -/
  silentReset : Bool
  /-- `ARTX_RESET` (R9). -/
  artxReset : Bool
  /-- `prescaler_of`, a total function of the rate alone (R9; spec/42_canbus.md R165). -/
  prescalerOf : Rate → Nat
  /-- `parse`: the command-layer operations a line makes the parser issue, and whether it succeeded (R236). -/
  parse : List Byte → List Cmd × Bool
  /-- `format`: the text of a received frame (R238). -/
  format : CanFrame → List Byte
  /-- Draws of `CAN.free_mailboxes()` (spec/60_exceptions.md R262). -/
  drawMailboxes : Nat → Nat
  /-- Draws of `CAN.submit(f)`: accepted or not (R263). -/
  drawAccept : Nat → Bool
  /-- Draws of `CAN.rx_nonempty()` (R264). -/
  drawNonempty : Nat → Bool
  /-- Draws of `CAN.pop_rx()`: a well-formed frame, or none for `HWERROR` (R265). -/
  drawPop : Nat → Option WfFrame
  /-- The unspecified reset content of a byte memory (spec/10_state.md R51). -/
  freeByte : Space → Nat → Nat → Byte
  /-- The unspecified reset content of the header fields of a `TxSlot` (R51). -/
  freeHeader : Nat → Nat → FrameHeader
  /-- The unspecified reset content of `URXLEN` (R51). -/
  freeLen : Nat → Nat → Nat
  /-- The unspecified reset content of a stand-alone ring's slots: no run observes it. -/
  freeItem : Nat → Nat → List Byte
  /-- The unspecified value of `CTX_FULLFLAG` (R29, R51). -/
  freeFullFlag : Nat → Bool
  deriving Inhabited

/-- `N` of the stand-alone ring instance. -/
def Config.ringN (c : Config) : Nat := c.ringExtra + 2
/-- `N_RX`. -/
def Config.nRx (c : Config) : Nat := c.nRxExtra + 2
/-- `APP_RX_DATA_SIZE`. -/
def Config.app (c : Config) : Nat := c.appExtra + 1
/-- `SLCAN_MTU`. -/
def Config.mtu (c : Config) : Nat := c.mtuExtra + 1
/-- `TX_BUF_SIZE`. -/
def Config.txBuf (c : Config) : Nat := c.txBufExtra + 1

/-- `N_TX`, the one capacity the source fixes (R8). -/
abbrev nTx : Nat := 28

/-- THIS implementation: nothing is known of it but the constraints `Config` carries, so what is proved of the machine
holds for every value of every open parameter (R8, R239; log entry 1). -/
opaque Config.impl : Config

end Sys2Proof
end

