-- ==== Sys2Proof/Decode.lean ====
section
/-! DEFINITION. The request encoding of spec/30_encoding.md: the opcode map (R102), the decoder, total on any bytes and
rejecting by name (R109, R110 (b)), and the encoder. A request stands as bytes with the low byte of `H`, of `LEN` and of
`FR` first, which is the order in which R97 numbers the bits of `FR`; the spec fixes none (log entry 2). -/

namespace Sys2Proof

/-- One row of the opcode map (R102): a header selects it when `(H AND mask) == value`. -/
structure Row where
  op    : Opcode
  value : Header
  mask  : Header
  deriving DecidableEq, Repr

/-- The opcode map, R102, in the spec's order. -/
def rows : List Row :=
  [ ⟨.rbPush,    0x0000, 0xFFFF⟩,
    ⟨.rbPend,    0x0100, 0xFFFF⟩,
    ⟨.rbPeek,    0x0200, 0xFFFF⟩,
    ⟨.rbAdv,     0x0300, 0xFFFF⟩,
    ⟨.rbPop,     0x0400, 0xFFFF⟩,
    ⟨.ctxEnq,    0x1000, 0xFFFF⟩,
    ⟨.ctxProc,   0x1100, 0xFFFF⟩,
    ⟨.busEn,     0x2000, 0xFFFF⟩,
    ⟨.busDis,    0x2100, 0xFFFF⟩,
    ⟨.busRate,   0x2200, 0xFFF0⟩,
    ⟨.busSilent, 0x2300, 0xFFFE⟩,
    ⟨.busArtx,   0x2400, 0xFFFE⟩,
    ⟨.crxPend,   0x3000, 0xFFFF⟩,
    ⟨.crxRecv,   0x3100, 0xFFFF⟩,
    ⟨.crxOvf,    0x3200, 0xFFFF⟩,
    ⟨.urxChunk,  0x4000, 0xFFFF⟩,
    ⟨.urxDrain,  0x4100, 0xFFFF⟩,
    ⟨.utxSend,   0x5000, 0xFFFF⟩,
    ⟨.utxDone,   0x5100, 0xFFFF⟩,
    ⟨.loopIter,  0x6000, 0xFFFF⟩ ]

/-- Why a byte string is no request. -/
inductive DecodeError where
  /-- Fewer bytes than the header and the payload of its format take (R111). -/
  | truncated
  /-- `FAM` in 7 to 15 (R109). -/
  | reservedFamily
  /-- An `FN` that R102 does not list for its `FAM` (R109). -/
  | reservedFunction
  /-- A non-zero `ARG` bit outside the operand bits of the format (R109). -/
  | reservedArg
  /-- A reserved bit of the frame record set (R97, R98). -/
  | reservedFrameBits
  deriving DecidableEq, Repr

/-- Does header `h` select row `r` (R102)? -/
def Row.selects (r : Row) (h : Header) : Bool := h &&& r.mask == r.value

/-- `FAM` (R91). -/
def famOf (h : Header) : BitVec 4 := h.extractLsb' 12 4
/-- `FN` (R91). -/
def fnOf (h : Header) : BitVec 4 := h.extractLsb' 8 4

/-- The row a header selects, or why it selects none (R102, R109). -/
def selectRow (h : Header) : Except DecodeError Row :=
  match rows.find? (·.selects h) with
  | some r => .ok r
  | none =>
    if 7 ≤ (famOf h).toNat then .error .reservedFamily
    else if rows.any (fun r => famOf r.value == famOf h && fnOf r.value == fnOf h) then .error .reservedArg
    else .error .reservedFunction

/-- A 16-bit field from its two bytes, low byte first (log entry 2). -/
def word16 (lo hi : Byte) : BitVec 16 := hi ++ lo

/-- The first four bytes of a frame record as `FR[31:0]` (R97). -/
def word32 (b0 b1 b2 b3 : Byte) : BitVec 32 := b3 ++ b2 ++ b1 ++ b0

/-- The frame record of R97: byte `k` of the payload is `FR[8k+7 : 8k]`; the reserved bits `FR[31]` and `FR[39:36]` must
be 0 (R98). -/
def decodeFrame : List Byte → Except DecodeError (FrameRecord × List Byte)
  | b0 :: b1 :: b2 :: b3 :: b4 :: d0 :: d1 :: d2 :: d3 :: d4 :: d5 :: d6 :: d7 :: rest =>
    let w := word32 b0 b1 b2 b3
    if w.getLsbD 31 || b4.extractLsb' 4 4 != 0#4 then .error .reservedFrameBits
    else .ok (⟨⟨w.extractLsb' 0 29, w.getLsbD 29, w.getLsbD 30, b4.extractLsb' 0 4⟩,
      #v[d0, d1, d2, d3, d4, d5, d6, d7]⟩, rest)
  | _ => .error .truncated

/-- The byte string of R99: `LEN[15:0]`, then `LEN` bytes, `B[0]` first. -/
def decodeBytes : List Byte → Except DecodeError (List Byte × List Byte)
  | lo :: hi :: rest =>
    let n := (word16 lo hi).toNat
    if n ≤ rest.length then .ok (rest.take n, rest.drop n) else .error .truncated
  | _ => .error .truncated

/-- The item of R100: the `size` bytes of a value of `T`, copied and never inspected. -/
def decodeItem (size : Nat) (rest : List Byte) : Except DecodeError (List Byte × List Byte) :=
  if size ≤ rest.length then .ok (rest.take size, rest.drop size) else .error .truncated

/-- The request that a header and what follows it stand for, with the bytes left over; `size` is the size of `T`. -/
def decodeOp (size : Nat) (op : Opcode) (h : Header) (rest : List Byte) : Except DecodeError (Instr × List Byte) :=
  match op with
  | .rbPush =>
    match decodeItem size rest with
    | .ok (item, r) => .ok (.rbPush item, r)
    | .error e => .error e
  | .rbPend => .ok (.rbPend, rest)
  | .rbPeek => .ok (.rbPeek, rest)
  | .rbAdv => .ok (.rbAdv, rest)
  | .rbPop => .ok (.rbPop, rest)
  | .ctxEnq =>
    match decodeFrame rest with
    | .ok (f, r) => .ok (.ctxEnq f, r)
    | .error e => .error e
  | .ctxProc => .ok (.ctxProc, rest)
  | .busEn => .ok (.busEn, rest)
  | .busDis => .ok (.busDis, rest)
  | .busRate => .ok (.busRate (h.extractLsb' 0 4), rest)
  | .busSilent => .ok (.busSilent (h.getLsbD 0), rest)
  | .busArtx => .ok (.busArtx (h.getLsbD 0), rest)
  | .crxPend => .ok (.crxPend, rest)
  | .crxRecv => .ok (.crxRecv, rest)
  | .crxOvf => .ok (.crxOvf, rest)
  | .urxChunk =>
    match decodeBytes rest with
    | .ok (bs, r) => .ok (.urxChunk bs, r)
    | .error e => .error e
  | .urxDrain => .ok (.urxDrain, rest)
  | .utxSend =>
    match decodeBytes rest with
    | .ok (bs, r) => .ok (.utxSend bs, r)
    | .error e => .error e
  | .utxDone => .ok (.utxDone, rest)
  | .loopIter => .ok (.loopIter, rest)

/-- The decoder, for an element type `T` of `size` bytes: the request at the head of a byte string, with the bytes that
follow it (R90, R92, R111). -/
def decode (size : Nat) : List Byte → Except DecodeError (Instr × List Byte)
  | lo :: hi :: rest =>
    match selectRow (word16 lo hi) with
    | .ok r => decodeOp size r.op (word16 lo hi) rest
    | .error e => .error e
  | _ => .error .truncated

/-- The row of an operation's name (R102). -/
def Instr.opcode : Instr → Opcode
  | .rbPush _ => .rbPush
  | .rbPend => .rbPend
  | .rbPeek => .rbPeek
  | .rbAdv => .rbAdv
  | .rbPop => .rbPop
  | .ctxEnq _ => .ctxEnq
  | .ctxProc => .ctxProc
  | .busEn => .busEn
  | .busDis => .busDis
  | .busRate _ => .busRate
  | .busSilent _ => .busSilent
  | .busArtx _ => .busArtx
  | .crxPend => .crxPend
  | .crxRecv => .crxRecv
  | .crxOvf => .crxOvf
  | .urxChunk _ => .urxChunk
  | .urxDrain => .urxDrain
  | .utxSend _ => .utxSend
  | .utxDone => .utxDone
  | .loopIter => .loopIter

/-- The port that accepts an operation (R90). -/
def Opcode.port : Opcode → Port
  | .rbPush => .p
  | .rbPend => .c
  | .rbPeek => .c
  | .rbAdv => .c
  | .rbPop => .c
  | .ctxEnq => .fgp
  | .ctxProc => .fgp
  | .busEn => .fgp
  | .busDis => .fgp
  | .busRate => .fgp
  | .busSilent => .fgp
  | .busArtx => .fgp
  | .crxPend => .fgp
  | .crxRecv => .fgp
  | .crxOvf => .irqp
  | .urxChunk => .irqp
  | .urxDrain => .fgp
  | .utxSend => .fgp
  | .utxDone => .envp
  | .loopIter => .fgp

/-- The port that accepts a request (R90). -/
def Instr.port (i : Instr) : Port := i.opcode.port

/-- The two bytes of a 16-bit field, low byte first (log entry 2). -/
def bytes16 (w : BitVec 16) : List Byte := [w.extractLsb' 0 8, w.extractLsb' 8 8]

/-- The thirteen bytes of a frame record (R97), reserved bits 0. -/
def encodeFrame (f : FrameRecord) : List Byte :=
  let w : BitVec 32 := 0#1 ++ BitVec.ofBool f.header.rtr ++ BitVec.ofBool f.header.ext ++ f.header.id
  [w.extractLsb' 0 8, w.extractLsb' 8 8, w.extractLsb' 16 8, w.extractLsb' 24 8, 0#4 ++ f.header.dlc,
   f.data[0], f.data[1], f.data[2], f.data[3], f.data[4], f.data[5], f.data[6], f.data[7]]

/-- `LEN` and the bytes of a byte string (R99). -/
def encodeBytes (bs : List Byte) : List Byte := bytes16 (BitVec.ofNat 16 bs.length) ++ bs

/-- The header of a request (R93 to R96, R102): the row's value with the operand bits of format `A`. -/
def Instr.header : Instr → Header
  | .rbPush _ => 0x0000
  | .rbPend => 0x0100
  | .rbPeek => 0x0200
  | .rbAdv => 0x0300
  | .rbPop => 0x0400
  | .ctxEnq _ => 0x1000
  | .ctxProc => 0x1100
  | .busEn => 0x2000
  | .busDis => 0x2100
  | .busRate r => 0x220#12 ++ r
  | .busSilent s => 0x1180#15 ++ BitVec.ofBool s
  | .busArtx a => 0x1200#15 ++ BitVec.ofBool a
  | .crxPend => 0x3000
  | .crxRecv => 0x3100
  | .crxOvf => 0x3200
  | .urxChunk _ => 0x4000
  | .urxDrain => 0x4100
  | .utxSend _ => 0x5000
  | .utxDone => 0x5100
  | .loopIter => 0x6000

/-- The payload of a request (R92, R95, R96, R100). -/
def Instr.payload : Instr → List Byte
  | .rbPush item => item
  | .ctxEnq f => encodeFrame f
  | .urxChunk bs => encodeBytes bs
  | .utxSend bs => encodeBytes bs
  | .rbPend => []
  | .rbPeek => []
  | .rbAdv => []
  | .rbPop => []
  | .ctxProc => []
  | .busEn => []
  | .busDis => []
  | .busRate _ => []
  | .busSilent _ => []
  | .busArtx _ => []
  | .crxPend => []
  | .crxRecv => []
  | .crxOvf => []
  | .urxDrain => []
  | .utxDone => []
  | .loopIter => []

/-- The encoder: the bytes of a request (R90 to R102). -/
def encode (i : Instr) : List Byte := bytes16 i.header ++ i.payload

/-- The length of a request in bits (R111). -/
def Instr.bits (i : Instr) : Nat := 16 + 8 * i.payload.length

/-- The `n` low bytes of a number, the lowest first. -/
def bytesOfNat : Nat → Nat → List Byte
  | 0, _ => []
  | n + 1, w => BitVec.ofNat 8 w :: bytesOfNat n (w / 256)

/-- The bytes of an instruction whose low `nbits` bits are `w` and whose other bits are 0: at least the fifteen of CTX.ENQ
(R111), and enough for an item of RB.PUSH. -/
def tableBytes (nbits w : Nat) : List Byte :=
  bytesOfNat (max (nbits / 8) 15) (w % 2 ^ nbits) ++ List.replicate Config.impl.itemSize 0

/-- The instruction the decoder reads from an opcode-table word (bits numbered as spec/opcode_table.json does). -/
def decodeTableWord (nbits w : Nat) : Option Instr :=
  match decode Config.impl.itemSize (tableBytes nbits w) with
  | .ok (i, _) => some i
  | .error _ => none

/-- The one request that the decoder reads from `tableBytes`, or those bytes where it reads none. -/
def tableRequest (nbits w : Nat) : List Byte :=
  match decodeTableWord nbits w with
  | some i => encode i
  | none => tableBytes nbits w

/-- The mnemonic of an operation (R102). -/
def Opcode.mnemonic : Opcode → String
  | .rbPush => "RB.PUSH"
  | .rbPend => "RB.PEND"
  | .rbPeek => "RB.PEEK"
  | .rbAdv => "RB.ADV"
  | .rbPop => "RB.POP"
  | .ctxEnq => "CTX.ENQ"
  | .ctxProc => "CTX.PROC"
  | .busEn => "BUS.EN"
  | .busDis => "BUS.DIS"
  | .busRate => "BUS.RATE"
  | .busSilent => "BUS.SILENT"
  | .busArtx => "BUS.ARTX"
  | .crxPend => "CRX.PEND"
  | .crxRecv => "CRX.RECV"
  | .crxOvf => "CRX.OVF"
  | .urxChunk => "URX.CHUNK"
  | .urxDrain => "URX.DRAIN"
  | .utxSend => "UTX.SEND"
  | .utxDone => "UTX.DONE"
  | .loopIter => "LOOP.ITER"

/-- The format of an operation (R92). -/
def Opcode.format : Opcode → Format
  | .rbPush => .t
  | .ctxEnq => .f
  | .urxChunk => .s
  | .utxSend => .s
  | .busRate => .a
  | .busSilent => .a
  | .busArtx => .a
  | .rbPend => .z
  | .rbPeek => .z
  | .rbAdv => .z
  | .rbPop => .z
  | .ctxProc => .z
  | .busEn => .z
  | .busDis => .z
  | .crxPend => .z
  | .crxRecv => .z
  | .crxOvf => .z
  | .urxDrain => .z
  | .utxDone => .z
  | .loopIter => .z

end Sys2Proof
end

