-- ==== Sys2Proof/Machine/State.lean ====
section
/-! DEFINITION. The state of the block (spec/10_state.md R20 to R47), the model's own inputs and observation log, and the
reset state (R51; spec/70_reset_and_hazards.md R280). Every field is plain data. -/

namespace Sys2Proof.Machine

/-- One of the block's private memories, or of a stand-alone ring's (spec/20_memory.md R60): (address, unit) pairs, the
address counted in the memory's own unit. An unlisted address holds its unspecified reset content (log entry 7);
`Memory Byte` is a list of `Host.Cell`. -/
abbrev Memory (α : Type) := List (Nat × α)

/-- The stand-alone ring instance `Q` of `RingBuffer<T, N>` (R21; spec/40_ringbuffer.md). -/
structure Ring where
  /-- `Q.HEAD`, in `[0, N)`, `IDX_W(N)` bits (log entry 17). -/
  head : Nat
  /-- `Q.TAIL`, in `[0, N)`, `IDX_W(N)` bits. -/
  tail : Nat
  /-- `Q.SLOT[0 .. N-1]`, each item `Config.itemSize` bytes. -/
  slot : Memory (List Byte)
  deriving DecidableEq, Repr

/-- The event counter file `EVT[0..5]`, in the order of R37. -/
structure Counters where
  canQueueFull : Nat
  canTxHardwareReject : Nat
  canRxFifoOverflow : Nat
  usbRxBufferFull : Nat
  usbTxBusy : Nat
  usbLineOverflow : Nat
  deriving DecidableEq, Repr

/-- What an observer outside the block sees (spec/60_exceptions.md R271): a request's result, the calls on the devices
with their arguments and answers, the calls of the function ports. -/
inductive Obs where
  | result (port : Port) (r : Result)
  | canSubmit (frame : CanFrame) (accepted : Bool)
  | canConfig (presc : Nat) (silent artx : Bool)
  | canFilterPassAll
  | canStart
  | canReset
  | usbArm (slot : Nat)
  /-- `USB.start_tx(n)` with the `n` bytes of `UTXMEM[0 .. n)` at that moment. -/
  | usbStartTx (bytes : List Byte)
  | parse (line : List Byte)
  | format (frame : CanFrame)
  deriving DecidableEq, Repr

/-- Who moves at the next micro-step boundary (spec/20_memory.md R71, R74, R75): the driver of a port presents a request,
the foreground takes its next micro-step, or the block is reset (spec/70_reset_and_hazards.md R281). -/
inductive Turn where
  | request (port : Port) (bytes : List Byte)
  | fg
  | reset
  deriving DecidableEq, Repr

/-- The answers the CAN peripheral will give to the next queries of each kind (spec/60_exceptions.md R262 to R265).
Where a list is empty the answer is a free draw of `Config`, numbered by `drawn` (log entry 6). -/
structure Answers where
  mailboxes : List Nat
  accepts : List Bool
  nonempty : List Bool
  pops : List (Option WfFrame)
  drawn : Nat
  deriving DecidableEq, Repr

/-- The line of the pseudocode of spec/44_usbrx.md R198 that a URX.DRAIN runs next, with the locals it still needs. Lines 1
and 2 are one micro-step, as spec/10_state.md R47 says. -/
inductive DrainLine where
  /-- Line 3. -/
  | test
  /-- Line 4. -/
  | read
  /-- Line 5, and the test of the overflow; `b` is the byte read. -/
  | branch (b : Byte)
  /-- Line 6: the call of the parser. -/
  | parse
  /-- Line 6: `cmd` is the next of the operations that the parser issued, `rest` those after it, `ok` the parser's result. -/
  | run (cmd : Cmd) (rest : List Cmd) (ok : Bool)
  /-- Line 7. -/
  | reply (ok : Bool)
  /-- Line 8. -/
  | clear
  /-- Line 9. -/
  | overflow
  /-- Line 10. -/
  | append (b : Byte)
  /-- Line 11. -/
  | next
  /-- Line 12. -/
  | advance
  /-- Line 13. -/
  | ret
  deriving DecidableEq, Repr

/-- The line of the pseudocode of spec/46_loop.md R231 that a LOOP.ITER runs next, with the locals it still needs. -/
inductive LoopLine where
  /-- Line 2. -/
  | toCanRx
  /-- Line 3. -/
  | pend
  /-- Line 4. -/
  | pended (p : Bool)
  /-- Line 5. -/
  | recv
  /-- Line 6. -/
  | received (r : Result)
  /-- Line 7. -/
  | format (f : CanFrame)
  /-- Line 8. -/
  | send (bytes : List Byte)
  /-- Line 9. -/
  | toUsbRx
  /-- Line 10: the URX.DRAIN inside it, at the line `d`, or not begun. -/
  | drain (d : Option DrainLine)
  /-- Line 11. -/
  | toTx
  /-- Line 12. -/
  | ret
  deriving DecidableEq, Repr

/-- What the foreground is at: no request outstanding, or the line at which its outstanding request goes on. -/
inductive Pos where
  | rest
  | drain (d : DrainLine)
  | loop (l : LoopLine)
  deriving DecidableEq, Repr

/-- The state: the block's registers and memories, then the model's own fields (`pos`, `inbox`, `answers`, `resets`,
`log`). -/
structure State where
  /-- The stand-alone ring instance. -/
  q : Ring
  /-- `CTX_HEAD`, in `[0, 28)` (R22). -/
  ctxHead : Nat
  /-- `CTX_TAIL`, in `[0, 28)` (R23). -/
  ctxTail : Nat
  /-- The fields `id`, `ext`, `rtr`, `dlc` of `CTXMEM[0..27]`, by slot (R39). -/
  ctxHdr : Memory FrameHeader
  /-- The payload bytes of `CTXMEM[0..27]`: `data[i]` of slot `k` at `8 * k + i` (R39). -/
  ctxData : Memory Byte
  /-- `CTX_FULLFLAG`: never read, never written, any value (R29). -/
  ctxFullFlag : Bool
  /-- `URX_HEAD`, in `[0, N_RX)` (R24). -/
  urxHead : Nat
  /-- `URX_TAIL`, in `[0, N_RX)` (R25). -/
  urxTail : Nat
  /-- `URXMEM`: byte `j` of slot `k` at `k * APP_RX_DATA_SIZE + j` (R40). -/
  urxMem : Memory Byte
  /-- `URXLEN`, by slot (R40). -/
  urxLen : Memory Nat
  /-- `URX_ARMED`: the armed slot, or none before the boot arm (R43). -/
  urxArmed : Option Nat
  /-- `URX_SCAN` (R47). -/
  urxScan : Bool
  /-- `URX_POS`, in `[0, APP_RX_DATA_SIZE]` (R47). -/
  urxPos : Nat
  /-- `LINE_IDX`, in `[0, SLCAN_MTU]` (R26). -/
  lineIdx : Nat
  /-- `LINEMEM` (R41). -/
  lineMem : Memory Byte
  /-- `UTX_BUSY` (R30). -/
  utxBusy : Bool
  /-- `UTX_LEN`, in `[0, TX_BUF_SIZE]` (R35). -/
  utxLen : Nat
  /-- `UTXMEM` (R42). -/
  utxMem : Memory Byte
  /-- `BUS_STATE` (R31). -/
  busState : BusState
  /-- `BUS_PRESC`, a natural number (R32). -/
  busPresc : Nat
  /-- `BUS_SILENT` (R33). -/
  busSilent : Bool
  /-- `BUS_ARTX` (R34). -/
  busArtx : Bool
  /-- `EVT[0..5]` (R37). -/
  evt : Counters
  /-- `FG_PHASE` (R46). -/
  fgPhase : Phase
  /-- The model's own: the line at which the foreground goes on (spec/00_scope.md R6; log entry 4). -/
  pos : Pos
  /-- The model's own: the turns that agents will take, the next one first (log entry 5). -/
  inbox : List Turn
  /-- The model's own: the peripheral's coming answers (log entry 6). -/
  answers : Answers
  /-- The model's own: how many resets there were before this run of the block (log entry 8). -/
  resets : Nat
  /-- The model's own: what an observer has seen, the latest first (log entry 11). -/
  log : List Obs
  deriving DecidableEq, Repr

/-- Why the machine stops. The block itself never traps and never halts (spec/60_exceptions.md R247). -/
inductive Fault where
  /-- An access to a unit its memory does not have (spec/20_memory.md R60, R64). Raised by every operation that reads or
  writes a memory at a register's value. Safe: R64 says that no reachable state makes such an access. -/
  | outOfRange (space : Space) (unit : Nat)
  deriving DecidableEq, Repr

/-- Why a request has no meaning: the cases the spec itself calls `refuse` (spec/93_implementation_defined.md section 3).
Each is safe: the spec gives the run no meaning from there on. -/
inductive Refusal where
  /-- An instruction without a meaning yet, by its mnemonic. Raised by `exec` alone. -/
  | notModelled (mnemonic : String)
  /-- X1: a reserved header. Raised when a request is presented. -/
  | reservedHeader
  /-- X1: BUS.RATE with a code 9 to 15. Raised by BUS.RATE. -/
  | reservedRate
  /-- X2: a request on a port that does not accept it. Raised when a request is presented. -/
  | wrongPort
  /-- X3: a frame record that is not well formed. Raised by CTX.ENQ, and when reserved record bits are set. -/
  | illFormedFrame
  /-- X4: a chunk of more than `APP_RX_DATA_SIZE` bytes. Raised by URX.CHUNK. -/
  | chunkTooLong
  /-- X4: a chunk before the boot arm. Raised by URX.CHUNK. -/
  | notArmed
  /-- X5: UTX.DONE with no transmission in flight. Raised by UTX.DONE. -/
  | noTransmission
  /-- X6: a second request on `FGP` before the first has returned. Raised when a request is presented, and by URX.DRAIN and
  LOOP.ITER while the other one is outstanding. -/
  | foregroundBusy
  /-- X7: RB.PEEK or RB.ADV on an empty ring. Raised by those two. -/
  | emptyRing
  /-- A byte string shorter or longer than the one request it starts with (spec/30_encoding.md R111; log entry 13), or an
  item that has not the size of `T`. Raised when a request is presented, and by RB.PUSH. -/
  | badLength
  deriving DecidableEq, Repr

/-- All six counters at 0 (R51). -/
def Counters.zero : Counters := ⟨0, 0, 0, 0, 0, 0⟩

/-- No answer given in advance: every one is a free draw. -/
def Answers.none : Answers := ⟨[], [], [], [], 0⟩

/-- The registers and memories at their reset values (R51) in an implementation `c`; what is not the block's own
(coming turns, the environment's answers, what was observed) is given. `resets` numbers the unspecified contents. -/
def State.initial (c : Config) (inbox : List Turn) (answers : Answers) (resets : Nat) (log : List Obs) : State where
  q := ⟨0, 0, []⟩
  ctxHead := 0
  ctxTail := 0
  ctxHdr := []
  ctxData := []
  ctxFullFlag := c.freeFullFlag resets
  urxHead := 0
  urxTail := 0
  urxMem := []
  urxLen := []
  urxArmed := Option.none
  urxScan := false
  urxPos := 0
  lineIdx := 0
  lineMem := []
  utxBusy := false
  utxLen := 0
  utxMem := []
  busState := .off
  busPresc := c.prescalerOf .rate125K
  busSilent := c.silentReset
  busArtx := c.artxReset
  evt := Counters.zero
  fgPhase := .pTx
  pos := .rest
  inbox := inbox
  answers := answers
  resets := resets
  log := log

/-- The machine right after reset (R51, R280), nothing placed and nothing observed. -/
def State.reset : State := State.initial Config.impl [] Answers.none 0 []

end Sys2Proof.Machine
end

