-- ==== Sys2Proof/Machine/Flags.lean ====
section
/-! DEFINITION. The conditions of a ring, computed from its two indices and stored nowhere (spec/00_scope.md R14;
spec/10_state.md R28), and the index arithmetic, with the width of an index (spec/40_ringbuffer.md R129; spec/00_scope.md
R9). -/

namespace Sys2Proof.Machine

/-- The one index arithmetic of the block: an advance by one position round a ring of `n` slots (R129). -/
def ringNext (n i : Nat) : Nat := (i + 1) % n

/-- `ceil(log2 n)`, the bits that count `n` values. -/
def clog2 (n : Nat) : Nat := if n ≤ 1 then 0 else Nat.log2 (n - 1) + 1

/-- `IDX_W(N)`, the width of an index register of a ring of `n` slots: `ceil(log2 n)` bits, at least 1 (R9). -/
def idxW (n : Nat) : Nat := max 1 (clog2 n)

/-- What a register of `w` bits holds after a write of `v`. -/
def inWidth (w v : Nat) : Nat := v % 2 ^ w

/-- What an index register of a ring of `n` slots holds after an advance from `i` (R129; R9). -/
def advanceIndex (n i : Nat) : Nat := inWidth (idxW n) (ringNext n i)

/-- `empty(head, tail)` (R14). -/
def ringEmpty (head tail : Nat) : Bool := head == tail

/-- `full(head, tail, N)` (R14). -/
def ringFull (n head tail : Nat) : Bool := ringNext n head == tail

/-- `count(head, tail, N)`: the number of live items, `(head - tail) mod N` (R14), for indices in `[0, N)`. -/
def ringCount (n head tail : Nat) : Nat := (head + n - tail) % n

/-- Is slot `i` live: from `tail` up to but not including `head` (spec/00_scope.md R16)? -/
def ringLive (n head tail i : Nat) : Bool := decide (ringCount n i tail < ringCount n head tail)

/-- The live slots, oldest first: `tail, tail + 1, ..., head - 1` modulo `N` (spec/40_ringbuffer.md R121 (d)). -/
def ringSlots (n head tail : Nat) : List Nat :=
  (List.range (ringCount n head tail)).map fun k => (tail + k) % n

end Sys2Proof.Machine
end

