-- ==== Sys2Proof/Machine/Operands.lean ====
section
/-! DEFINITION. Operand forms and codes (spec/30_encoding.md R94, R97, R98, R103 to R108). -/

namespace Sys2Proof.Machine

/-- The rate a code names; 9 to 15 are reserved (R103). -/
def rateOf (r : BitVec 4) : Option Rate :=
  match r.toNat with
  | 0 => some .rate10K
  | 1 => some .rate20K
  | 2 => some .rate50K
  | 3 => some .rate100K
  | 4 => some .rate125K
  | 5 => some .rate250K
  | 6 => some .rate500K
  | 7 => some .rate750K
  | 8 => some .rate1000K
  | _ => none

/-- The code of a rate (R103). -/
def rateCode : Rate → BitVec 4
  | .rate10K => 0
  | .rate20K => 1
  | .rate50K => 2
  | .rate100K => 3
  | .rate125K => 4
  | .rate250K => 5
  | .rate500K => 6
  | .rate750K => 7
  | .rate1000K => 8

/-- The frame a record carries: its header and the first `dlc` payload bytes; the others are ignored (R98). -/
def frameOf (f : FrameRecord) : CanFrame := ⟨f.header, f.data.toList.take f.header.dlc.toNat⟩

/-- The code of an event, its index in `EVT` (R107). -/
def eventCode : Event → Nat
  | .canQueueFull => 0
  | .canTxHardwareReject => 1
  | .canRxFifoOverflow => 2
  | .usbRxBufferFull => 3
  | .usbTxBusy => 4
  | .usbLineOverflow => 5

/-- The code of a bus state (R105). -/
def busStateCode : BusState → BitVec 1
  | .off => 0
  | .on => 1

/-- The code of a phase; 3 is unused (R105). -/
def phaseCode : Phase → BitVec 2
  | .pTx => 0
  | .pCanRx => 1
  | .pUsbRx => 2

/-- The code of a result (R108). -/
def resultCode : Result → Nat
  | .ok => 0
  | .okBool _ => 0
  | .okItem _ => 0
  | .okFrame _ => 0
  | .full => 1
  | .busy => 2
  | .tooLong => 3
  | .hwError => 4
  | .empty => 5

end Sys2Proof.Machine
end

