-- ==== Sys2Proof/Machine/Ops.lean ====
section
/-! DEFINITION. The named operations over memories, counters, the observation log and the peripheral's answers, which the
meanings are written over. -/

namespace Sys2Proof.Machine

/-! ### Memories (spec/20_memory.md R60 to R64) -/

/-- The unit written at an address since reset, if any. -/
def Memory.read {α : Type} : Memory α → Nat → Option α
  | [], _ => none
  | (b, v) :: r, a => if a = b then some v else Memory.read r a

/-- Write one unit, keeping the addresses strictly rising. -/
def Memory.write {α : Type} : Memory α → Nat → α → Memory α
  | [], a, v => [(a, v)]
  | (b, w) :: r, a, v =>
    if a < b then (a, v) :: (b, w) :: r
    else if a = b then (a, v) :: r
    else (b, w) :: Memory.write r a v

/-- Write consecutive units in increasing order (R61). -/
def Memory.writeAll {α : Type} : Memory α → Nat → List α → Memory α
  | m, _, [] => m
  | m, a, v :: vs => Memory.writeAll (m.write a v) (a + 1) vs

/-- The unit at an address: what was written there, else its unspecified reset content. -/
def Memory.readOr {α : Type} (m : Memory α) (free : Nat → α) (a : Nat) : α := (m.read a).getD (free a)

/-- `n` consecutive units from `a` on, in increasing order (R61, R62). -/
def Memory.readAll {α : Type} (m : Memory α) (free : Nat → α) : Nat → Nat → List α
  | _, 0 => []
  | a, n + 1 => m.readOr free a :: Memory.readAll m free (a + 1) n

/-- The canonical form: addresses strictly rising. An unlisted address holds no known unit, so no entry can equal what
one reads as. -/
def Memory.wf {α : Type} (m : Memory α) : Bool := decide ((m.map Prod.fst).Pairwise (· < ·))

/-- Does an access of `n` units from unit `a` on stay inside a memory of `size` units (R64)? -/
def checkRange (space : Space) (a n size : Nat) : Except Fault Unit :=
  if a + n ≤ size then .ok () else .error (.outOfRange space a)

/-- The address of payload byte 0 of a slot of `CTXMEM`. -/
def ctxAddr (slot : Nat) : Nat := 8 * slot

/-- The address of byte `off` of a slot of `URXMEM` (R60). -/
def urxAddr (c : Config) (slot off : Nat) : Nat := slot * c.app + off

/-! ### Error events (spec/60_exceptions.md R245 to R249) -/

/-- The counter of an event. -/
def Counters.get (k : Counters) : Event → Nat
  | .canQueueFull => k.canQueueFull
  | .canTxHardwareReject => k.canTxHardwareReject
  | .canRxFifoOverflow => k.canRxFifoOverflow
  | .usbRxBufferFull => k.usbRxBufferFull
  | .usbTxBusy => k.usbTxBusy
  | .usbLineOverflow => k.usbLineOverflow

/-- Set the counter of an event. -/
def Counters.set (k : Counters) (e : Event) (v : Nat) : Counters :=
  match e with
  | .canQueueFull => { k with canQueueFull := v }
  | .canTxHardwareReject => { k with canTxHardwareReject := v }
  | .canRxFifoOverflow => { k with canRxFifoOverflow := v }
  | .usbRxBufferFull => { k with usbRxBufferFull := v }
  | .usbTxBusy => { k with usbTxBusy := v }
  | .usbLineOverflow => { k with usbLineOverflow := v }

/-- `raise Event(e)`, the block's only exception: `EVT[e] <- (EVT[e] + 1) mod 2^CNT_W` and nothing else. There is no
entry and no return: nothing is saved and the operation goes on with its next line (R247, R255). -/
def State.raise (c : Config) (e : Event) (s : State) : State :=
  { s with evt := s.evt.set e ((s.evt.get e + 1) % 2 ^ c.cntW) }

/-! ### What an observer sees (spec/60_exceptions.md R271) -/

/-- Record an observation. -/
def State.emit (o : Obs) (s : State) : State := { s with log := o :: s.log }

/-- End a request on a port with its result (spec/30_encoding.md R90, R108). The result is presented at the step in which the
operation takes effect: where requests on `P` and `C` overlap, results come in the order of the effects, one of the orders
that spec/40_ringbuffer.md R131 leaves open (DESIGN CHOICE, log entry 23). -/
def finish (port : Port) : Except Fault (Result × State) → Host.Outcome State Fault Refusal
  | .ok (r, s) => .next (s.emit (.result port r))
  | .error f => .fault f

/-- End one micro-step of a request on `FGP` that takes several (spec/00_scope.md R6): the foreground goes on at the line it
has come to, if any; else the request has returned, with its result `OK`. -/
def proceed {α : Type} (at_ : α → Pos) : Except Fault (Option α × State) → Host.Outcome State Fault Refusal
  | .ok (some l, s) => .next { s with pos := at_ l }
  | .ok (none, s) => .next (({ s with pos := .rest } : State).emit (.result .fgp .ok))
  | .error f => .fault f

/-! ### The peripheral's answers, free at every call (spec/60_exceptions.md R262 to R265) -/

/-- `draw m <- CAN.free_mailboxes()` (R262). -/
def drawMailboxes (c : Config) (s : State) : Nat × State :=
  match s.answers.mailboxes with
  | m :: r => (m, { s with answers := { s.answers with mailboxes := r } })
  | [] => (c.drawMailboxes s.answers.drawn, { s with answers := { s.answers with drawn := s.answers.drawn + 1 } })

/-- `draw acc <- CAN.submit(f)`, the frame and the answer being observable output (R263). -/
def drawAccept (c : Config) (f : CanFrame) (s : State) : Bool × State :=
  match s.answers.accepts with
  | a :: r => (a, ({ s with answers := { s.answers with accepts := r } }).emit (.canSubmit f a))
  | [] =>
    (c.drawAccept s.answers.drawn,
      ({ s with answers := { s.answers with drawn := s.answers.drawn + 1 } }).emit
        (.canSubmit f (c.drawAccept s.answers.drawn)))

/-- `draw ne <- CAN.rx_nonempty()` (R264). -/
def drawNonempty (c : Config) (s : State) : Bool × State :=
  match s.answers.nonempty with
  | b :: r => (b, { s with answers := { s.answers with nonempty := r } })
  | [] => (c.drawNonempty s.answers.drawn, { s with answers := { s.answers with drawn := s.answers.drawn + 1 } })

/-- `draw res <- CAN.pop_rx()`: a well-formed frame, or none for `HWERROR` (R265). -/
def drawPop (c : Config) (s : State) : Option WfFrame × State :=
  match s.answers.pops with
  | f :: r => (f, { s with answers := { s.answers with pops := r } })
  | [] => (c.drawPop s.answers.drawn, { s with answers := { s.answers with drawn := s.answers.drawn + 1 } })

end Sys2Proof.Machine
end

