-- ==== Sys2Proof/Machine/Crx.lean ====
section
/-! DEFINITION. Family CRX: the CAN receive path (spec/43_canrx.md). It has no state of its own. -/

namespace Sys2Proof.Machine

/-- CRX.PEND (R176): false while `Off`, the peripheral not being asked; else what it answers. -/
def crxPend (c : Config) (s : State) : Bool × State :=
  match s.busState with
  | .off => (false, s)
  | .on => drawNonempty c s

/-- CRX.RECV (R178): the answer of `CAN.pop_rx()`, whatever the bus state. -/
def crxRecv (c : Config) (s : State) : Result × State :=
  match drawPop c s with
  | (some f, s1) => (.okFrame f.val, s1)
  | (none, s1) => (.hwError, s1)

/-- CRX.OVF (R180): count the event and nothing else. -/
def crxOvf (c : Config) (s : State) : State := s.raise c .canRxFifoOverflow

/-- CRX.PEND on port `FGP` (R176). -/
def execCrxPend (s : State) : Host.Outcome State Fault Refusal :=
  finish .fgp (.ok (.okBool (crxPend Config.impl s).1, (crxPend Config.impl s).2))

/-- CRX.RECV on port `FGP` (R178). -/
def execCrxRecv (s : State) : Host.Outcome State Fault Refusal := finish .fgp (.ok (crxRecv Config.impl s))

/-- CRX.OVF on port `IRQP` (R180). -/
def execCrxOvf (s : State) : Host.Outcome State Fault Refusal := finish .irqp (.ok (.ok, crxOvf Config.impl s))

end Sys2Proof.Machine
end

