-- ==== Sys2Proof/Machine/Bus.lean ====
section
/-! DEFINITION. Family BUS: the CAN bus controller (spec/42_canbus.md). Every operation returns `OK`, whether or not it took
effect (R163, R166). -/

namespace Sys2Proof.Machine

/-- BUS.EN (R156): configuration, filter, start, in this order, then `On`; nothing when already `On`. -/
def busEn (s : State) : State :=
  match s.busState with
  | .on => s
  | .off =>
    { (((s.emit (.canConfig s.busPresc s.busSilent s.busArtx)).emit .canFilterPassAll).emit .canStart) with
      busState := .on }

/-- BUS.DIS (R158): the peripheral is reset, then `Off`; nothing when already `Off`. -/
def busDis (s : State) : State :=
  match s.busState with
  | .off => s
  | .on => { s.emit .canReset with busState := .off }

/-- BUS.RATE (R160): the prescaler of the rate is stored; ignored while `On`. -/
def busRate (c : Config) (r : Rate) (s : State) : State :=
  match s.busState with
  | .on => s
  | .off => { s with busPresc := c.prescalerOf r }

/-- BUS.SILENT (R161): ignored while `On`. -/
def busSilent (b : Bool) (s : State) : State :=
  match s.busState with
  | .on => s
  | .off => { s with busSilent := b }

/-- BUS.ARTX (R162): ignored while `On`. -/
def busArtx (a : Bool) (s : State) : State :=
  match s.busState with
  | .on => s
  | .off => { s with busArtx := a }

/-- BUS.EN on port `FGP` (R156). -/
def execBusEn (s : State) : Host.Outcome State Fault Refusal := finish .fgp (.ok (.ok, busEn s))

/-- BUS.DIS on port `FGP` (R158). -/
def execBusDis (s : State) : Host.Outcome State Fault Refusal := finish .fgp (.ok (.ok, busDis s))

/-- BUS.RATE on port `FGP`; a reserved code is refused (R160; spec/30_encoding.md R109). -/
def execBusRate (r : BitVec 4) (s : State) : Host.Outcome State Fault Refusal :=
  match rateOf r with
  | some rate => finish .fgp (.ok (.ok, busRate Config.impl rate s))
  | none => .refused .reservedRate

/-- BUS.SILENT on port `FGP` (R161). -/
def execBusSilent (b : Bool) (s : State) : Host.Outcome State Fault Refusal := finish .fgp (.ok (.ok, busSilent b s))

/-- BUS.ARTX on port `FGP` (R162). -/
def execBusArtx (a : Bool) (s : State) : Host.Outcome State Fault Refusal := finish .fgp (.ok (.ok, busArtx a s))

end Sys2Proof.Machine
end

