-- ==== Sys2Proof/Machine/Ctx.lean ====
section
/-! DEFINITION. Family CTX: the CAN transmit queue and its sequencer (spec/41_cantx.md). -/

namespace Sys2Proof.Machine

/-- Lines 4 and 5 of R141: the header fields and the payload bytes the frame has go into slot `h`; the slot's other
payload bytes keep what they held (spec/20_memory.md R67). -/
def storeFrame (h : Nat) (f : CanFrame) (s : State) : Except Fault State := do
  checkRange .ctxMem h 1 nTx
  checkRange .ctxMem 0 f.data.length 8
  return { s with ctxHdr := s.ctxHdr.write h f.header, ctxData := s.ctxData.writeAll (ctxAddr h) f.data }

/-- CTX.ENQ of a well-formed frame (R141): lost with an event when the queue is full. -/
def ctxEnq (c : Config) (f : CanFrame) (s : State) : Except Fault (Result × State) :=
  if ringFull nTx s.ctxHead s.ctxTail then .ok (.full, s.raise c .canQueueFull)
  else do
    let s1 ← storeFrame s.ctxHead f s
    return (.ok, { s1 with ctxHead := advanceIndex nTx s.ctxHead })

/-- The view of a slot: header fields and the first `dlc` of its eight payload bytes (R148). -/
def slotFrame (c : Config) (t : Nat) (s : State) : CanFrame :=
  let hdr := s.ctxHdr.readOr (c.freeHeader s.resets) t
  ⟨hdr, s.ctxData.readAll (c.freeByte .ctxMem s.resets) (ctxAddr t) (min hdr.dlc.toNat 8)⟩

/-- The view of slot `t` handed to the peripheral (R144 line 4). -/
def slotView (c : Config) (t : Nat) (s : State) : Except Fault CanFrame := do
  checkRange .ctxMem t 1 nTx
  return slotFrame c t s

/-- Lines 4 to 7 of R144: the oldest frame is submitted and leaves the queue, accepted or not. -/
def submitTail (c : Config) (s : State) : Except Fault State := do
  let f ← slotView c s.ctxTail s
  let (acc, s1) := drawAccept c f s
  let s2 := { s1 with ctxTail := advanceIndex nTx s.ctxTail }
  return if acc then s2 else s2.raise c .canTxHardwareReject

/-- CTX.PROC (R144): nothing when the queue is empty or no mailbox is free. -/
def ctxProc (c : Config) (s : State) : Except Fault (Result × State) :=
  if ringEmpty s.ctxHead s.ctxTail then .ok (.ok, s)
  else
    match drawMailboxes c s with
    | (0, s1) => .ok (.ok, s1)
    | (_ + 1, s1) => do
      let s2 ← submitTail c s1
      return (.ok, s2)

/-- CTX.ENQ on port `FGP`; a record that is not well formed is refused (R141; spec/30_encoding.md R110 (b)). -/
def execCtxEnq (frame : FrameRecord) (s : State) : Host.Outcome State Fault Refusal :=
  if frame.wf then finish .fgp (ctxEnq Config.impl (frameOf frame) s) else .refused .illFormedFrame

/-- CTX.PROC on port `FGP` (R144). -/
def execCtxProc (s : State) : Host.Outcome State Fault Refusal := finish .fgp (ctxProc Config.impl s)

end Sys2Proof.Machine
end

