-- ==== Sys2Proof/Machine/Utx.lean ====
section
/-! DEFINITION. Family UTX: the USB transmit gate (spec/45_usbtx.md). -/

namespace Sys2Proof.Machine

/-- UTX.SEND (R216): busy is checked before the length; bytes of `UTXMEM` past the new ones keep their values (R217).
`UTX_LEN` has the width of spec/10_state.md R35. -/
def utxSend (c : Config) (bytes : List Byte) (s : State) : Result × State :=
  if s.utxBusy then (.busy, s.raise c .usbTxBusy)
  else if c.txBuf < bytes.length then (.tooLong, s)
  else
    (.ok, ({ s with
      utxMem := s.utxMem.writeAll 0 bytes
      utxLen := inWidth (clog2 (c.txBuf + 1)) bytes.length
      utxBusy := true }).emit (.usbStartTx bytes))

/-- UTX.SEND on port `FGP` (R216). -/
def execUtxSend (bytes : List Byte) (s : State) : Host.Outcome State Fault Refusal :=
  finish .fgp (.ok (utxSend Config.impl bytes s))

/-- UTX.DONE on port `ENVP`; refused with no transmission in flight (R220). -/
def execUtxDone (s : State) : Host.Outcome State Fault Refusal :=
  if s.utxBusy then finish .envp (.ok (.ok, { s with utxBusy := false })) else .refused .noTransmission

end Sys2Proof.Machine
end

