-- ==== Sys2Proof/Machine/Urx.lean ====
section
/-! DEFINITION. Family URX: the USB receive framer, chunk capture in interrupt context and line reassembly in the
foreground (spec/44_usbrx.md). -/

namespace Sys2Proof.Machine

/-- Tell the endpoint where the next chunk goes (R194; spec/60_exceptions.md R267). -/
def usbArm (slot : Nat) (s : State) : State := ({ s with urxArmed := some slot }).emit (.usbArm slot)

/-- Line 1 of R192: the endpoint's own writing of a chunk into the armed slot. -/
def writeChunk (c : Config) (slot : Nat) (bytes : List Byte) (s : State) : Except Fault State := do
  checkRange .urxMem slot 1 c.nRx
  checkRange .urxMem 0 bytes.length c.app
  return { s with urxMem := s.urxMem.writeAll (urxAddr c slot 0) bytes }

/-- Lines 7 to 9 of R192: the length is recorded, the head advances, the new head slot is armed. -/
def captureChunk (c : Config) (len : Nat) (s : State) : Except Fault State := do
  checkRange .urxLen s.urxHead 1 c.nRx
  let next := advanceIndex c.nRx s.urxHead
  return usbArm next { s with urxLen := s.urxLen.write s.urxHead len, urxHead := next }

/-- URX.CHUNK into the armed slot (R192); on a full ring the chunk is lost whole and the same slot armed again (R193). -/
def urxChunk (c : Config) (armed : Nat) (bytes : List Byte) (s : State) : Except Fault (Result × State) := do
  let s1 ← writeChunk c armed bytes s
  if ringFull c.nRx s1.urxHead s1.urxTail then
    return (.ok, usbArm s1.urxHead (s1.raise c .usbRxBufferFull))
  else
    let s2 ← captureChunk c bytes.length s1
    return (.ok, s2)

/-- One operation the parser issues, whole; its result goes back to the parser (spec/46_loop.md R237). -/
def runCmd (c : Config) (cmd : Cmd) (s : State) : Except Fault State :=
  match cmd with
  | .enq f => do
    let (_, s1) ← ctxEnq c f.val s
    return s1
  | .en => .ok (busEn s)
  | .dis => .ok (busDis s)
  | .rate r => .ok (busRate c r s)
  | .silent b => .ok (busSilent b s)
  | .artx a => .ok (busArtx a s)

/-- The in-progress line `LINEMEM[0 .. LINE_IDX)` (R197). -/
def lineOf (c : Config) (s : State) : List Byte :=
  s.lineMem.readAll (c.freeByte .lineMem s.resets) 0 s.lineIdx

/-- The line handed to the parser (R200 (a)). -/
def lineBytes (c : Config) (s : State) : Except Fault (List Byte) := do
  checkRange .lineMem 0 s.lineIdx c.mtu
  return lineOf c s

/-- `URXLEN[URX_TAIL]`, the recorded length of the tail slot. -/
def tailLenOf (c : Config) (s : State) : Nat := s.urxLen.readOr (c.freeLen s.resets) s.urxTail

/-- `URXMEM[URX_TAIL][URX_POS]`, the byte the scan has come to. -/
def tailByteOf (c : Config) (s : State) : Byte :=
  s.urxMem.readOr (c.freeByte .urxMem s.resets) (urxAddr c s.urxTail s.urxPos)

/-- The read of the tail slot's length (R198 line 3). -/
def tailLen (c : Config) (s : State) : Except Fault Nat := do
  checkRange .urxLen s.urxTail 1 c.nRx
  return tailLenOf c s

/-- The read of the byte at `URX_POS` (R198 line 4). -/
def tailByte (c : Config) (s : State) : Except Fault Byte := do
  checkRange .urxMem s.urxTail 1 c.nRx
  checkRange .urxMem s.urxPos 1 c.app
  return tailByteOf c s

/-- Where line 6 goes on: at the next of the operations that the parser issued, or at line 7 with its result. -/
def afterParse : List Cmd → Bool → DrainLine
  | [], ok => .reply ok
  | cmd :: rest, ok => .run cmd rest ok

/-- Line 9 (R201): the byte that no longer fits is dropped with the partial line. -/
def dropLine (c : Config) (s : State) : State := { s.raise c .usbLineOverflow with lineIdx := 0 }

/-- Line 10 (R202); `LINE_IDX` has the width of spec/10_state.md R26. -/
def appendByte (c : Config) (b : Byte) (s : State) : Except Fault State := do
  checkRange .lineMem s.lineIdx 1 c.mtu
  return { s with
    lineMem := s.lineMem.write s.lineIdx b
    lineIdx := inWidth (clog2 (c.mtu + 1)) (s.lineIdx + 1) }

/-- Line 12 (R203). -/
def advanceTail (c : Config) (s : State) : State :=
  { s with urxTail := advanceIndex c.nRx s.urxTail, urxScan := false }

/-- Lines 1 and 2 of R198: the line to go on at, or none where nothing is captured and the drain returns. -/
def drainBegin (s : State) : Option DrainLine × State :=
  if ringEmpty s.urxHead s.urxTail then (none, s)
  else (some .test, { s with urxScan := true, urxPos := 0 })

/-- One line of R198 from line 3 on (R199: every byte but 0x0D is treated alike), with the line to go on at, or none where
the drain returns. Steps of other agents may fall between any two of them (R198; spec/20_memory.md R75; log entry 4). -/
def drainLine (c : Config) (l : DrainLine) (s : State) : Except Fault (Option DrainLine × State) :=
  match l with
  | .test => do
    let len ← tailLen c s
    return (some (if s.urxPos < len then .read else .advance), s)
  | .read => do
    let b ← tailByte c s
    return (some (.branch b), s)
  | .branch b =>
    .ok (some (if b == term then .parse else if s.lineIdx == c.mtu then .overflow else .append b), s)
  | .parse => do
    let line ← lineBytes c s
    return (some (afterParse (c.parse line).1 (c.parse line).2), s.emit (.parse line))
  | .run cmd rest ok => do
    let s1 ← runCmd c cmd s
    return (some (afterParse rest ok), s1)
  | .reply ok => .ok (some .clear, (utxSend c [if ok then ack else nak] s).2)
  | .clear => .ok (some .next, { s with lineIdx := 0 })
  | .overflow => .ok (some .next, dropLine c s)
  | .append b => do
    let s1 ← appendByte c b s
    return (some .next, s1)
  | .next => .ok (some .test, { s with urxPos := s.urxPos + 1 })
  | .advance => .ok (some .ret, advanceTail c s)
  | .ret => .ok (none, s)

/-- URX.CHUNK on port `IRQP`; refused beyond `APP_RX_DATA_SIZE` bytes and before the boot arm (R191, R192). -/
def execUrxChunk (bytes : List Byte) (s : State) : Host.Outcome State Fault Refusal :=
  if Config.impl.app < bytes.length then .refused .chunkTooLong
  else
    match s.urxArmed with
    | none => .refused .notArmed
    | some a => finish .irqp (urxChunk Config.impl a bytes s)

/-- URX.DRAIN on port `FGP`, one micro-step of it: it begins, or goes on at its line (R198). While a LOOP.ITER is
outstanding it is a second request on the port (spec/30_encoding.md R110 (e)). -/
def execUrxDrain (s : State) : Host.Outcome State Fault Refusal :=
  match s.pos with
  | .rest => proceed .drain (.ok (drainBegin s))
  | .drain l => proceed .drain (drainLine Config.impl l s)
  | .loop _ => .refused .foregroundBusy

end Sys2Proof.Machine
end

