-- ==== Sys2Proof/Machine/Loop.lean ====
section
/-! DEFINITION. Family LOOP: one iteration of the foreground loop (spec/46_loop.md). -/

namespace Sys2Proof.Machine

/-- Line 1 of R231: part 1. -/
def loopBegin (c : Config) (s : State) : Except Fault (Option LoopLine × State) := do
  let (_, s1) ← ctxProc c s
  return (some .toCanRx, s1)

/-- Where line 10 goes on: inside the URX.DRAIN, or at line 11 where it has returned. -/
def afterDrain : Option DrainLine → LoopLine
  | some d => .drain (some d)
  | none => .toTx

/-- One line of R231 from line 2 on, with the line to go on at, or none where the iteration returns; line 10 takes one
micro-step for each of the URX.DRAIN it calls. Steps of other agents may fall between any two of them (log entry 4). -/
def loopLine (c : Config) (l : LoopLine) (s : State) : Except Fault (Option LoopLine × State) :=
  match l with
  | .toCanRx => .ok (some .pend, { s with fgPhase := .pCanRx })
  | .pend => .ok (some (.pended (crxPend c s).1), (crxPend c s).2)
  | .pended p => .ok (some (if p then .recv else .toUsbRx), s)
  | .recv => .ok (some (.received (crxRecv c s).1), (crxRecv c s).2)
  | .received r =>
    match r with
    | .okFrame f => .ok (some (.format f), s)
    | _ => .ok (some .toUsbRx, s)
  | .format f => .ok (some (.send (c.format f)), s.emit (.format f))
  | .send bytes => .ok (some .toUsbRx, (utxSend c bytes s).2)
  | .toUsbRx => .ok (some (.drain none), { s with fgPhase := .pUsbRx })
  | .drain none => .ok (some (afterDrain (drainBegin s).1), (drainBegin s).2)
  | .drain (some d) => do
    let (d', s1) ← drainLine c d s
    return (some (afterDrain d'), s1)
  | .toTx => .ok (some .ret, { s with fgPhase := .pTx })
  | .ret => .ok (none, s)

/-- LOOP.ITER on port `FGP`, one micro-step of it: it begins, or goes on at its line (R231). While a URX.DRAIN is outstanding
it is a second request on the port (spec/30_encoding.md R110 (e)). -/
def execLoopIter (s : State) : Host.Outcome State Fault Refusal :=
  match s.pos with
  | .rest => proceed .loop (loopBegin Config.impl s)
  | .loop l => proceed .loop (loopLine Config.impl l s)
  | .drain _ => .refused .foregroundBusy

end Sys2Proof.Machine
end

