-- ==== Sys2Proof/Machine/Rb.lean ====
section
/-! DEFINITION. Family RB: the stand-alone ring `RingBuffer<T, N>` (spec/40_ringbuffer.md). Each operation is one step:
R131 says at which instant it takes effect, however the producer and the consumer interleave. -/

namespace Sys2Proof.Machine

/-- RB.PUSH (R122): the slot is written, then the head advances; nothing changes when the ring is full. -/
def rbPush (c : Config) (item : List Byte) (s : State) : Except Fault (Result × State) :=
  if ringFull c.ringN s.q.head s.q.tail then .ok (.full, s)
  else do
    checkRange .qSlot s.q.head 1 c.ringN
    let slot := s.q.slot.write s.q.head item
    return (.ok, { s with q := { s.q with slot := slot, head := advanceIndex c.ringN s.q.head } })

/-- The item in slot `tail` (R125 line 2, R127 line 2). -/
def rbTailItem (c : Config) (s : State) : Except Fault (List Byte) := do
  checkRange .qSlot s.q.tail 1 c.ringN
  return s.q.slot.readOr (c.freeItem s.resets) s.q.tail

/-- The state after the consumer's advance (R126 line 2, R127 line 3). -/
def rbAdvance (c : Config) (s : State) : State :=
  { s with q := { s.q with tail := advanceIndex c.ringN s.q.tail } }

/-- RB.PEND (R124). -/
def rbPend (s : State) : Result × State := (.okBool (!ringEmpty s.q.head s.q.tail), s)

/-- RB.PEEK on a ring that is not empty (R125). -/
def rbPeek (c : Config) (s : State) : Except Fault (Result × State) := do
  let v ← rbTailItem c s
  return (.okItem v, s)

/-- RB.POP (R127). -/
def rbPop (c : Config) (s : State) : Except Fault (Result × State) :=
  if ringEmpty s.q.head s.q.tail then .ok (.empty, s)
  else do
    let v ← rbTailItem c s
    return (.okItem v, rbAdvance c s)

/-- RB.PUSH on port `P` (R122); an item that has not the size of `T` is refused (R120; spec/30_encoding.md R100, R111). -/
def execRbPush (item : List Byte) (s : State) : Host.Outcome State Fault Refusal :=
  if item.length = Config.impl.itemSize then finish .p (rbPush Config.impl item s) else .refused .badLength

/-- RB.PEND on port `C` (R124). -/
def execRbPend (s : State) : Host.Outcome State Fault Refusal := finish .c (.ok (rbPend s))

/-- RB.PEEK on port `C`; refused on an empty ring (R125). -/
def execRbPeek (s : State) : Host.Outcome State Fault Refusal :=
  if ringEmpty s.q.head s.q.tail then .refused .emptyRing else finish .c (rbPeek Config.impl s)

/-- RB.ADV on port `C`; refused on an empty ring (R126). -/
def execRbAdv (s : State) : Host.Outcome State Fault Refusal :=
  if ringEmpty s.q.head s.q.tail then .refused .emptyRing
  else finish .c (.ok (.ok, rbAdvance Config.impl s))

/-- RB.POP on port `C` (R127). -/
def execRbPop (s : State) : Host.Outcome State Fault Refusal := finish .c (rbPop Config.impl s)

end Sys2Proof.Machine
end

