-- ==== Sys2Proof/Machine/Dispatch.lean ====
section
/-! DEFINITION. Which meaning each request has: one arm per constructor of `Instr` (spec/30_encoding.md R102). -/

namespace Sys2Proof.Machine

def exec (i : Instr) (s : State) : Host.Outcome State Fault Refusal :=
  match i with
  | .rbPush item => Sys2Proof.Machine.execRbPush item s
  | .rbPend => Sys2Proof.Machine.execRbPend s
  | .rbPeek => Sys2Proof.Machine.execRbPeek s
  | .rbAdv => Sys2Proof.Machine.execRbAdv s
  | .rbPop => Sys2Proof.Machine.execRbPop s
  | .ctxEnq frame => Sys2Proof.Machine.execCtxEnq frame s
  | .ctxProc => Sys2Proof.Machine.execCtxProc s
  | .busEn => Sys2Proof.Machine.execBusEn s
  | .busDis => Sys2Proof.Machine.execBusDis s
  | .busRate r => Sys2Proof.Machine.execBusRate r s
  | .busSilent b => Sys2Proof.Machine.execBusSilent b s
  | .busArtx a => Sys2Proof.Machine.execBusArtx a s
  | .crxPend => Sys2Proof.Machine.execCrxPend s
  | .crxRecv => Sys2Proof.Machine.execCrxRecv s
  | .crxOvf => Sys2Proof.Machine.execCrxOvf s
  | .urxChunk bytes => Sys2Proof.Machine.execUrxChunk bytes s
  | .urxDrain => Sys2Proof.Machine.execUrxDrain s
  | .utxSend bytes => Sys2Proof.Machine.execUtxSend bytes s
  | .utxDone => Sys2Proof.Machine.execUtxDone s
  | .loopIter => Sys2Proof.Machine.execLoopIter s

end Sys2Proof.Machine
end

