-- ==== Sys2Proof/Machine/Ports.lean ====
section
/-! DEFINITION. Who moves next, and what a request must meet to be run: the ports (spec/30_encoding.md R90, R110), the
foreground's own turn (spec/46_loop.md R230), the boot arm and a reset during a run (spec/70_reset_and_hazards.md R281,
R284). -/

namespace Sys2Proof.Machine

/-- The request on `FGP` that has begun and not returned. -/
def outstanding (s : State) : Option Instr :=
  match s.pos with
  | .rest => none
  | .drain _ => some .urxDrain
  | .loop _ => some .loopIter

/-- The boot arm (spec/70_reset_and_hazards.md R284). -/
def boot (s : State) : State := usbArm 0 s

/-- The foreground's turn: the next micro-step of what it is at; else the boot arm, once; else the loop, for ever
(spec/46_loop.md R230; spec/70_reset_and_hazards.md R283). -/
def fgTurn (s : State) : Host.Outcome State Fault Refusal :=
  match outstanding s with
  | some i => exec i s
  | none =>
    match s.urxArmed with
    | none => .next (boot s)
    | some _ => exec .loopIter s

/-- The refusal for bytes that are no request (spec/30_encoding.md R109, R110 (b), R111). -/
def refusalOf : DecodeError → Refusal
  | .truncated => .badLength
  | .reservedFamily => .reservedHeader
  | .reservedFunction => .reservedHeader
  | .reservedArg => .reservedHeader
  | .reservedFrameBits => .illFormedFrame

/-- May request `i` be run when it is presented on a port (spec/30_encoding.md R110 (a), (e))? -/
def admission (port : Port) (i : Instr) (s : State) : Option Refusal :=
  if i.port ≠ port then some .wrongPort
  else if port = .fgp ∧ (outstanding s).isSome then some .foregroundBusy
  else none

/-- A request presented on a port (spec/30_encoding.md R90). -/
def present (port : Port) (bytes : List Byte) (s : State) : Host.Outcome State Fault Refusal :=
  match decode Config.impl.itemSize bytes with
  | .error e => .refused (refusalOf e)
  | .ok (_, _ :: _) => .refused .badLength
  | .ok (i, []) =>
    match admission port i s with
    | some r => .refused r
    | none => exec i s

/-- Reset during a run: everything of the block's is discarded; what is the environment's stays (R281, R282). -/
def restart (s : State) : State := State.initial Config.impl s.inbox s.answers (s.resets + 1) s.log

/-- One agent's turn. -/
def takeTurn (t : Turn) (s : State) : Host.Outcome State Fault Refusal :=
  match t with
  | .request port bytes => present port bytes s
  | .fg => fgTurn s
  | .reset => .next (restart s)

/-- The port an opcode-table word is presented on. -/
def tablePort (nbits w : Nat) : Port :=
  match decodeTableWord nbits w with
  | some i => i.port
  | none => .fgp

/-- The request of an opcode-table word, placed first in line. A request on `FGP` is only fetched when none is outstanding
there (spec/30_encoding.md R110 (e)), so the sequencer position is put at rest for it (log entry 21). -/
def placeWord (nbits w : Nat) (s : State) : State :=
  let s1 := if tablePort nbits w = .fgp then { s with fgPhase := .pTx, urxScan := false, pos := .rest } else s
  { s1 with inbox := .request (tablePort nbits w) (tableRequest nbits w) :: s.inbox }

end Sys2Proof.Machine
end

