-- ==== Sys2Proof/Machine/Step.lean ====
section
/-! DEFINITION. The step: one atomic micro-step of one agent (spec/00_scope.md R6; spec/20_memory.md R71). -/

namespace Sys2Proof.Machine

/-- The next turn in line, or, with none in line, the foreground's (spec/46_loop.md R230; log entry 5). -/
def step (s : State) : Host.Outcome State Fault Refusal :=
  match s.inbox with
  | [] => fgTurn s
  | t :: rest => takeTurn t { s with inbox := rest }

/-- `s` with the request of an opcode-table word where `step` fetches its next one: first in line (log entry 21). -/
def State.withFetchWord (s : State) (nbits w : Nat) : State := placeWord nbits w s

end Sys2Proof.Machine
end

