-- ==== Sys2Proof/Safety.lean ====
section
/-! DEFINITION. What counts as a sound state (spec/10_state.md R50; spec/20_memory.md R64, R79), and the queues that the
rings stand for (spec/40_ringbuffer.md R121, R128), in the terms the statements use. -/

namespace Sys2Proof.Machine

/-! ### Invariants -/

/-- The stand-alone ring: indices in range, every live slot written with an item of the size of `T` (R121 (a); R79;
spec/00_scope.md R10). -/
structure QOk (c : Config) (q : Ring) : Prop where
  head_lt : q.head < c.ringN
  tail_lt : q.tail < c.ringN
  live : ∀ i < c.ringN, ringLive c.ringN q.head q.tail i = true → 
    ∃ v, q.slot.read i = some v ∧ v.length = c.itemSize
  slotWf : q.slot.wf = true

/-- The CAN transmit ring: indices in `[0, 28)`; every live slot holds a well-formed header, so `dlc <= 8`, and its first
`dlc` payload bytes (R50 lines 1, 2, 5; R79). -/
structure CtxOk (head tail : Nat) (hdr : Memory FrameHeader) (data : Memory Byte) : Prop where
  head_lt : head < nTx
  tail_lt : tail < nTx
  live : ∀ i < nTx, ringLive nTx head tail i = true →
    ∃ h, hdr.read i = some h ∧ h.wf = true ∧ ∀ j < h.dlc.toNat, (data.read (ctxAddr i + j)).isSome = true
  hdrWf : hdr.wf = true
  dataWf : data.wf = true

/-- The USB receive ring: indices in `[0, N_RX)`; every live slot has a recorded length of at most `APP_RX_DATA_SIZE` and
its bytes written; the head slot is the armed one, and before the boot arm nothing was received (R50 lines 1, 2, 4, 6;
R79). -/
structure UrxOk (c : Config) (head tail : Nat) (mem : Memory Byte) (len : Memory Nat) (armed : Option Nat) : Prop where
  head_lt : head < c.nRx
  tail_lt : tail < c.nRx
  live : ∀ i < c.nRx, ringLive c.nRx head tail i = true →
    ∃ l, len.read i = some l ∧ l ≤ c.app ∧ ∀ j < l, (mem.read (urxAddr c i j)).isSome = true
  armed_head : ∀ a, armed = some a → a = head
  unarmed : armed = none → head = 0 ∧ tail = 0
  memWf : mem.wf = true
  lenWf : len.wf = true

/-- The line at which the URX.DRAIN in progress goes on, be it a request of its own or part 3 of an iteration. -/
def Pos.drainLine : Pos → Option DrainLine
  | .rest => none
  | .drain d => some d
  | .loop (.drain d) => d
  | .loop _ => none

/-- The value of `FG_PHASE` before a line of an iteration (spec/46_loop.md R231). -/
def LoopLine.phase : LoopLine → Phase
  | .toCanRx => .pTx
  | .pend => .pCanRx
  | .pended _ => .pCanRx
  | .recv => .pCanRx
  | .received _ => .pCanRx
  | .format _ => .pCanRx
  | .send _ => .pCanRx
  | .toUsbRx => .pCanRx
  | .drain _ => .pUsbRx
  | .toTx => .pUsbRx
  | .ret => .pTx

/-- The value of `FG_PHASE` at a position: outside an iteration it is `P_TX` (spec/10_state.md R46, R48). -/
def Pos.phase : Pos → Phase
  | .loop l => l.phase
  | _ => .pTx

/-- Is the scan open before a line: from line 3 up to the tail advance (R47)? -/
def DrainLine.scanning : DrainLine → Bool
  | .ret => false
  | _ => true

/-- Is a line inside the loop's body, where `URX_POS < URXLEN[t]` was found? -/
def DrainLine.inByte : DrainLine → Bool
  | .test => false
  | .advance => false
  | .ret => false
  | _ => true

/-- Is a scan open at a position? -/
def Pos.scanning (p : Pos) : Bool := p.drainLine.any DrainLine.scanning

/-- Is a position inside the pass of one byte? -/
def Pos.inByte (p : Pos) : Bool := p.drainLine.any DrainLine.inByte

/-- The sequencer position: `URX_SCAN` and `FG_PHASE` are what the line the foreground is at makes them; an open scan is of a
live slot, at most at its recorded length (R46, R47; R50 line 8), short of it inside a pass, and only a byte that is no terminator is
appended, where there is room (spec/44_usbrx.md R198). -/
structure ScanOk (c : Config) (head tail : Nat) (len : Memory Nat) (scan : Bool) (upos : Nat) (phase : Phase) (pos : Pos)
    (idx : Nat) : Prop where
  scan_eq : scan = pos.scanning
  phase_eq : phase = pos.phase
  nonempty : scan = true → tail ≠ head
  pos_le : scan = true → ∀ l, len.read tail = some l → upos ≤ l
  pos_lt : pos.inByte = true → ∀ l, len.read tail = some l → upos < l
  done : pos.drainLine = some .advance → ∀ l, len.read tail = some l → l ≤ upos
  room : ∀ b, pos.drainLine = some (.append b) → b ≠ term ∧ idx < c.mtu

/-- The lines handed to the parser, the latest first. -/
def parsedLines : List Obs → List (List Byte)
  | [] => []
  | .parse line :: rest => line :: parsedLines rest
  | _ :: rest => parsedLines rest

/-- The operations that remain to be run at a terminator, and the result that is awaited, are the parser's answer to the line
last handed to it (spec/44_usbrx.md R198 line 6). -/
def CmdsOk (c : Config) (pos : Pos) (last : Option (List Byte)) : Prop :=
  ∀ cmds ok, pos.drainLine = some (afterParse cmds ok) →
    ∃ line, last = some line ∧ line.length ≤ c.mtu ∧ cmds <:+ (c.parse line).1 ∧ ok = (c.parse line).2

/-- The line buffer: `LINE_IDX` in `[0, SLCAN_MTU]`, the in-progress line written, with no terminator in it (R50 line 3; R79;
spec/46_loop.md R236). -/
structure LineOk (c : Config) (idx : Nat) (mem : Memory Byte) : Prop where
  idx_le : idx ≤ c.mtu
  written : ∀ k < idx, ∃ b, mem.read k = some b ∧ b ≠ term
  memWf : mem.wf = true

/-- The transmit gate: `UTX_LEN` in `[0, TX_BUF_SIZE]`, the bytes in flight written (R50 line 7; R79). -/
structure UtxOk (c : Config) (busy : Bool) (len : Nat) (mem : Memory Byte) : Prop where
  len_le : len ≤ c.txBuf
  written : busy = true → ∀ k < len, (mem.read k).isSome = true
  memWf : mem.wf = true

/-- The invariant of an implementation `c`: R50, with what its proof needs (every counter fits `CNT_W` bits, R37; the
memories keep their canonical form). -/
structure State.Inv (c : Config) (s : State) : Prop where
  q : QOk c s.q
  ctx : CtxOk s.ctxHead s.ctxTail s.ctxHdr s.ctxData
  urx : UrxOk c s.urxHead s.urxTail s.urxMem s.urxLen s.urxArmed
  scan : ScanOk c s.urxHead s.urxTail s.urxLen s.urxScan s.urxPos s.fgPhase s.pos s.lineIdx
  cmds : CmdsOk c s.pos (parsedLines s.log).head?
  line : LineOk c s.lineIdx s.lineMem
  utx : UtxOk c s.utxBusy s.utxLen s.utxMem
  evt : ∀ e, s.evt.get e < 2 ^ c.cntW

/-- Every memory of the state is in its canonical form. -/
def State.memoriesWf (s : State) : Bool :=
  s.q.slot.wf && s.ctxHdr.wf && s.ctxData.wf && s.urxMem.wf && s.urxLen.wf && s.lineMem.wf && s.utxMem.wf

/-- A safe outcome: the machine goes on, or the request is one the spec itself refuses; it does not stop on an access
outside its memories (R64). -/
def Safe (o : Host.Outcome State Fault Refusal) : Prop := ∀ f, o ≠ .fault f

/-- The operations that can count an event: its raiser, and those that run it inside them (spec/60_exceptions.md R245). -/
def raisers : Event → List Opcode
  | .canQueueFull => [.ctxEnq, .urxDrain, .loopIter]
  | .canTxHardwareReject => [.ctxProc, .loopIter]
  | .canRxFifoOverflow => [.crxOvf]
  | .usbRxBufferFull => [.urxChunk]
  | .usbTxBusy => [.utxSend, .urxDrain, .loopIter]
  | .usbLineOverflow => [.urxDrain, .loopIter]

/-- What each operation may change: the state after it is the state before it but for the fields named, and the log, which
takes in what an observer sees. A memory that is not named keeps every unit it holds, and with it what every address
reads as; one that is named keeps the units that the operation's own statement does not write (spec/20_memory.md R70;
spec/60_exceptions.md R245). -/
def Frame (i : Instr) (s t : State) : Prop :=
  match i with
  | .rbPush _ => t = { s with q := { s.q with head := t.q.head, slot := t.q.slot }, log := t.log }
  | .rbPend => t = { s with log := t.log }
  | .rbPeek => t = { s with log := t.log }
  | .rbAdv => t = { s with q := { s.q with tail := t.q.tail }, log := t.log }
  | .rbPop => t = { s with q := { s.q with tail := t.q.tail }, log := t.log }
  | .ctxEnq _ => t = { s with
      ctxHead := t.ctxHead, ctxHdr := t.ctxHdr, ctxData := t.ctxData, log := t.log
      evt := { s.evt with canQueueFull := t.evt.canQueueFull } }
  | .ctxProc => t = { s with
      ctxTail := t.ctxTail, answers := t.answers, log := t.log
      evt := { s.evt with canTxHardwareReject := t.evt.canTxHardwareReject } }
  | .busEn => t = { s with busState := t.busState, log := t.log }
  | .busDis => t = { s with busState := t.busState, log := t.log }
  | .busRate _ => t = { s with busPresc := t.busPresc, log := t.log }
  | .busSilent _ => t = { s with busSilent := t.busSilent, log := t.log }
  | .busArtx _ => t = { s with busArtx := t.busArtx, log := t.log }
  | .crxPend => t = { s with answers := t.answers, log := t.log }
  | .crxRecv => t = { s with answers := t.answers, log := t.log }
  | .crxOvf => t = { s with evt := { s.evt with canRxFifoOverflow := t.evt.canRxFifoOverflow }, log := t.log }
  | .urxChunk _ => t = { s with
      urxHead := t.urxHead, urxLen := t.urxLen, urxMem := t.urxMem, urxArmed := t.urxArmed, log := t.log
      evt := { s.evt with usbRxBufferFull := t.evt.usbRxBufferFull } }
  | .urxDrain => t = { s with
      pos := t.pos
      urxTail := t.urxTail, urxScan := t.urxScan, urxPos := t.urxPos, lineIdx := t.lineIdx, lineMem := t.lineMem
      ctxHead := t.ctxHead, ctxHdr := t.ctxHdr, ctxData := t.ctxData
      busState := t.busState, busPresc := t.busPresc, busSilent := t.busSilent, busArtx := t.busArtx
      utxBusy := t.utxBusy, utxLen := t.utxLen, utxMem := t.utxMem, log := t.log
      evt := { s.evt with
        canQueueFull := t.evt.canQueueFull, usbTxBusy := t.evt.usbTxBusy
        usbLineOverflow := t.evt.usbLineOverflow } }
  | .utxSend _ => t = { s with
      utxBusy := t.utxBusy, utxLen := t.utxLen, utxMem := t.utxMem, log := t.log
      evt := { s.evt with usbTxBusy := t.evt.usbTxBusy } }
  | .utxDone => t = { s with utxBusy := t.utxBusy, log := t.log }
  | .loopIter => t = { s with
      ctxHead := t.ctxHead, ctxTail := t.ctxTail, ctxHdr := t.ctxHdr, ctxData := t.ctxData
      urxTail := t.urxTail, urxScan := t.urxScan, urxPos := t.urxPos, lineIdx := t.lineIdx, lineMem := t.lineMem
      busState := t.busState, busPresc := t.busPresc, busSilent := t.busSilent, busArtx := t.busArtx
      utxBusy := t.utxBusy, utxLen := t.utxLen, utxMem := t.utxMem, fgPhase := t.fgPhase
      pos := t.pos, answers := t.answers, log := t.log
      evt := { s.evt with
        canQueueFull := t.evt.canQueueFull, canTxHardwareReject := t.evt.canTxHardwareReject
        usbTxBusy := t.evt.usbTxBusy, usbLineOverflow := t.evt.usbLineOverflow } }

/-! ### What the rings hold -/

/-- The items of the stand-alone ring, oldest first (spec/40_ringbuffer.md R121 (d)). -/
def qItems (c : Config) (s : State) : List (List Byte) :=
  (ringSlots c.ringN s.q.head s.q.tail).map (s.q.slot.readOr (c.freeItem s.resets))

/-- The frames waiting in the CAN transmit queue, oldest first. -/
def ctxFrames (c : Config) (s : State) : List CanFrame :=
  (ringSlots nTx s.ctxHead s.ctxTail).map (fun t => slotFrame c t s)

/-- The bytes of a slot of the USB receive ring up to its recorded length (spec/44_usbrx.md R197). -/
def slotBytes (c : Config) (t : Nat) (s : State) : List Byte :=
  s.urxMem.readAll (c.freeByte .urxMem s.resets) (urxAddr c t 0) (s.urxLen.readOr (c.freeLen s.resets) t)

/-- The chunks waiting in the USB receive ring, oldest first. -/
def urxChunks (c : Config) (s : State) : List (List Byte) :=
  (ringSlots c.nRx s.urxHead s.urxTail).map (fun t => slotBytes c t s)

/-- The last configuration handed to the CAN peripheral (spec/60_exceptions.md R266), if any. -/
def lastConfig : List Obs → Option (Nat × Bool × Bool)
  | [] => none
  | .canConfig p s a :: _ => some (p, s, a)
  | _ :: rest => lastConfig rest

/-! ### Runs of one operation -/

/-- Push items one after the other, with the result of each (spec/40_ringbuffer.md R123). -/
def pushAll (c : Config) : List (List Byte) → State → Except Fault (List Result × State)
  | [], s => .ok ([], s)
  | v :: vs, s => do
    let (r, s1) ← rbPush c v s
    let (rs, s2) ← pushAll c vs s1
    return (r :: rs, s2)

/-- Enqueue frames one after the other, with the result of each (spec/41_cantx.md R142). -/
def enqAll (c : Config) : List CanFrame → State → Except Fault (List Result × State)
  | [], s => .ok ([], s)
  | f :: fs, s => do
    let (r, s1) ← ctxEnq c f s
    let (rs, s2) ← enqAll c fs s1
    return (r :: rs, s2)

/-- Deliver chunks one after the other, each into the slot armed then, with the result of each (spec/44_usbrx.md R195). -/
def chunkAll (c : Config) : List (List Byte) → State → Except Fault (List Result × State)
  | [], s => .ok ([], s)
  | b :: bs, s => do
    let (r, s1) ← urxChunk c (s.urxArmed.getD s.urxHead) b s
    let (rs, s2) ← chunkAll c bs s1
    return (r :: rs, s2)

/-- An operation with no step of another agent between its micro-steps: `n` of them. -/
def execN (i : Instr) : Nat → State → Host.Outcome State Fault Refusal
  | 0, s => .next s
  | n + 1, s =>
    match exec i s with
    | .next t => execN i n t
    | .fault f => .fault f
    | .refused r => .refused r

/-! ### The pass of one byte as a whole

What the lines of spec/44_usbrx.md R198 come to for one byte when no other agent takes a step between them. The machine runs
them line by line (`drainLine`); these definitions say it in one, for the statements. -/

/-- The operations the parser issues, one after the other (R198 line 6). -/
def runCmds (c : Config) : List Cmd → State → Except Fault State
  | [], s => .ok s
  | cmd :: cmds, s => do
    let s1 ← runCmd c cmd s
    runCmds c cmds s1

/-- The reply byte of a line (R200 (c)). -/
def replyOf (c : Config) (line : List Byte) : Byte := if (c.parse line).2 then ack else nak

/-- The terminator (R200): parse the line, run what the parser issues, offer the reply byte, empty the line. -/
def scanTerminator (c : Config) (s : State) : Except Fault State := do
  let line ← lineBytes c s
  let s1 ← runCmds c (c.parse line).1 (s.emit (.parse line))
  return { (utxSend c [replyOf c line] s1).2 with lineIdx := 0 }

/-- One byte (R198 lines 5 to 10). -/
def scanByte (c : Config) (b : Byte) (s : State) : Except Fault State :=
  if b == term then scanTerminator c s
  else if s.lineIdx == c.mtu then .ok (dropLine c s)
  else appendByte c b s

/-- Bytes one after the other (R197, R201). -/
def scanAll (c : Config) : List Byte → State → Except Fault State
  | [], s => .ok s
  | b :: bs, s => do
    let s1 ← scanByte c b s
    scanAll c bs s1

end Sys2Proof.Machine
end

