-- ==== Sys2Proof/Certificates/Slice0/Obligations.lean ====
section
/-! DEFINITION. The statements for the provers, each naming the rule of spec/ it formalises. `Config.impl` is the
implementation of which nothing is known, so every statement holds for every value of every open parameter. -/

open Sys2Proof Sys2Proof.Machine

/-! ### The encoding (spec/30_encoding.md) -/

/-- Decoding an encoded well-formed request gives it back, with nothing left over, for all twenty operations and an element
type of any size. -/
def Obligations.DecodeOfEncodeIsTheRequest : Prop :=
  ∀ (size : Nat) (i : Instr), i.wf size = true → decode size (encode i) = .ok (i, [])

/-- Bytes have one meaning: what was decoded, encoded again, is the bytes that were read; and the item of RB.PUSH has the
size of `T`. -/
def Obligations.EncodeOfDecodeIsTheBytes : Prop :=
  ∀ (size : Nat) (bs rest : List Byte) (i : Instr), decode size bs = .ok (i, rest) →
    bs = encode i ++ rest ∧ ∀ item, i = .rbPush item → item.length = size

/-- No two rows of the opcode map select the same header (section 4: "No two rows overlap"). -/
def Obligations.OpcodeRowsDoNotOverlap : Prop :=
  ∀ (h : Header) (r r' : Row), r ∈ rows → r' ∈ rows → r.selects h = true → r'.selects h = true → r = r'

/-- R109: a header with a reserved family, an unlisted function, or a bit set outside the operand bits of its row is
refused on every port and in every state, and so is BUS.RATE with a code 9 to 15, by the name of its own where its port
accepts it and no request is outstanding there. -/
def Obligations.ReservedHeadersAreRefused : Prop :=
  (∀ (h : Header) (port : Port) (rest : List Byte) (s : State),
    (7 ≤ (famOf h).toNat ∨
      (∀ r ∈ rows, ¬ (famOf r.value = famOf h ∧ fnOf r.value = fnOf h)) ∨
      (∃ r ∈ rows, famOf r.value = famOf h ∧ fnOf r.value = fnOf h ∧ h &&& r.mask ≠ r.value)) →
    present port (bytes16 h ++ rest) s = .refused .reservedHeader) ∧
  (∀ (r : BitVec 4) (port : Port) (rest : List Byte) (s : State), 9 ≤ r.toNat →
    exec (.busRate r) s = .refused .reservedRate ∧
    (∃ x, present port (bytes16 (0x220#12 ++ r) ++ rest) s = .refused x) ∧
    (outstanding s = none → present .fgp (bytes16 (0x220#12 ++ r)) s = .refused .reservedRate))

/-- One request of each of the twenty operations, its header and payload written out from the spec's encoding, decodes to what
it stands for; among them the vectors E1 (an item of one byte), E2, E6, E8, E9, E10, E11, E30, E31 and E34 of
95_test_vectors.md. -/
def Obligations.WrittenWordsDecode : Prop :=
  decode 1 [0x00, 0x00, 0xA1] = .ok (.rbPush [0xA1], []) ∧
  decode 1 [0x00, 0x01] = .ok (.rbPend, []) ∧
  decode 1 [0x00, 0x02] = .ok (.rbPeek, []) ∧
  decode 1 [0x00, 0x03] = .ok (.rbAdv, []) ∧
  decode 1 [0x00, 0x04] = .ok (.rbPop, []) ∧
  decode 1 [0x00, 0x10, 0x23, 0x01, 0x00, 0x00, 0x02, 0xAA, 0xBB, 0, 0, 0, 0, 0, 0] =
    .ok (.ctxEnq ⟨⟨0x123, false, false, 2⟩, #v[0xAA, 0xBB, 0, 0, 0, 0, 0, 0]⟩, []) ∧
  decode 1 [0x00, 0x11] = .ok (.ctxProc, []) ∧
  decode 1 [0x00, 0x20] = .ok (.busEn, []) ∧
  decode 1 [0x00, 0x21] = .ok (.busDis, []) ∧
  decode 1 [0x06, 0x22] = .ok (.busRate 6, []) ∧
  decode 1 [0x01, 0x23] = .ok (.busSilent true, []) ∧
  decode 1 [0x00, 0x24] = .ok (.busArtx false, []) ∧
  decode 1 [0x00, 0x30] = .ok (.crxPend, []) ∧
  decode 1 [0x00, 0x31] = .ok (.crxRecv, []) ∧
  decode 1 [0x00, 0x32] = .ok (.crxOvf, []) ∧
  decode 1 [0x00, 0x40, 0x06, 0x00, 0x74, 0x31, 0x30, 0x30, 0x30, 0x0D] =
    .ok (.urxChunk [0x74, 0x31, 0x30, 0x30, 0x30, 0x0D], []) ∧
  decode 1 [0x00, 0x41] = .ok (.urxDrain, []) ∧
  decode 1 [0x00, 0x50, 0x01, 0x00, 0x0D] = .ok (.utxSend [0x0D], []) ∧
  decode 1 [0x00, 0x51] = .ok (.utxDone, []) ∧
  decode 1 [0x00, 0x60] = .ok (.loopIter, [])

/-! ### The step -/

/-- A request first in line, on the port that accepts it and with no earlier request outstanding on `FGP`, is what the
step runs: the turn leaves the line, and the outcome is `exec`'s. -/
def Obligations.StepRunsTheDecodedRequest : Prop :=
  ∀ (s : State) (port : Port) (bytes : List Byte) (rest : List Turn) (i : Instr),
    s.inbox = .request port bytes :: rest → decode Config.impl.itemSize bytes = .ok (i, []) → i.port = port →
    (port = .fgp → outstanding s = none) → step s = exec i { s with inbox := rest }

/-- The foreground's turn, given to it or taken with no turn in line: it goes on with the request outstanding on `FGP`;
else it takes the boot arm, which arms slot 0 and does nothing else; else it starts an iteration of the loop. -/
def Obligations.ForegroundTakesItsTurn : Prop :=
  ∀ s s' : State, (s.inbox = [] ∧ s' = s ∨ ∃ rest, s.inbox = .fg :: rest ∧ s' = { s with inbox := rest }) →
    (∀ i, outstanding s' = some i → step s = exec i s') ∧
    (outstanding s' = none → s'.urxArmed = none →
      step s = .next { s' with urxArmed := some 0, log := .usbArm 0 :: s'.log }) ∧
    (∀ a, outstanding s' = none → s'.urxArmed = some a → step s = exec .loopIter s')

/-- A request on a port that does not accept it is refused, and so is a second one on `FGP` before the first returned; a
URX.DRAIN is outstanding from its first micro-step that finds something to its last, a LOOP.ITER from its first to its last,
and neither runs while the other is. -/
def Obligations.PortDisciplineIsEnforced : Prop :=
  (∀ (port : Port) (bytes : List Byte) (i : Instr) (s : State), decode Config.impl.itemSize bytes = .ok (i, []) →
    (i.port ≠ port → present port bytes s = .refused .wrongPort) ∧
    (i.port = port → port = .fgp → (outstanding s).isSome = true → present port bytes s = .refused .foregroundBusy)) ∧
  (∀ s : State,
    (outstanding s = none ↔ s.pos = .rest) ∧
    (outstanding s = some .urxDrain ↔ ∃ l, s.pos = .drain l) ∧
    (outstanding s = some .loopIter ↔ ∃ l, s.pos = .loop l) ∧
    (outstanding s = some .loopIter → exec .urxDrain s = .refused .foregroundBusy) ∧
    (outstanding s = some .urxDrain → exec .loopIter s = .refused .foregroundBusy))

/-- A reset during a run puts every register and memory of the block back and keeps what is not the block's: the turns and
answers still to come and what was observed. -/
def Obligations.ResetDiscardsTheBlocksState : Prop :=
  ∀ (s : State) (rest : List Turn), s.inbox = .reset :: rest →
    step s = .next (State.initial Config.impl rest s.answers (s.resets + 1) s.log)

/-! ### Reset (spec/10_state.md R51) -/

/-- The values the spec gives for reset, and the foreground at rest. -/
def Obligations.ResetValuesOfTheBlock : Prop :=
  ∀ (c : Config) (inbox : List Turn) (a : Answers) (n : Nat) (log : List Obs),
    let s := State.initial c inbox a n log
    s.q.head = 0 ∧ s.q.tail = 0 ∧ s.ctxHead = 0 ∧ s.ctxTail = 0 ∧ s.urxHead = 0 ∧ s.urxTail = 0 ∧ s.lineIdx = 0 ∧
    s.utxBusy = false ∧ s.utxLen = 0 ∧ s.busState = .off ∧ s.busPresc = c.prescalerOf .rate125K ∧
    s.busSilent = c.silentReset ∧ s.busArtx = c.artxReset ∧ (∀ e, s.evt.get e = 0) ∧ s.urxArmed = none ∧
    s.fgPhase = .pTx ∧ s.urxScan = false ∧ s.urxPos = 0 ∧ s.pos = .rest

/-- The state after reset meets the invariant. -/
def Obligations.ResetMeetsTheInvariant : Prop := State.reset.Inv Config.impl

/-- Every step keeps the invariant, whichever agent takes it. -/
def Obligations.StepKeepsTheInvariant : Prop :=
  ∀ s t : State, s.Inv Config.impl → step s = .next t → t.Inv Config.impl

/-- The eight lines of R50, which the spec derives from the rules it names, in every state that any schedule of turns
and any answers of the environment lead to from reset. -/
def Obligations.EveryReachableStateIsSound : Prop :=
  ∀ (inbox : List Turn) (a : Answers) (k n : Nat) (log : List Obs) (t : State),
    Host.Core.run Sys2Proof.core n (State.initial Config.impl inbox a k log) = .next t →
    (t.ctxHead < 28 ∧ t.ctxTail < 28 ∧ t.urxHead < Config.impl.nRx ∧ t.urxTail < Config.impl.nRx) ∧
    ((ctxFrames Config.impl t).length = ringCount 28 t.ctxHead t.ctxTail ∧ ringCount 28 t.ctxHead t.ctxTail ≤ 27 ∧
      (urxChunks Config.impl t).length = ringCount Config.impl.nRx t.urxHead t.urxTail ∧
      ringCount Config.impl.nRx t.urxHead t.urxTail ≤ Config.impl.nRx - 1) ∧
    t.lineIdx ≤ Config.impl.mtu ∧
    (∀ i < Config.impl.nRx, ringLive Config.impl.nRx t.urxHead t.urxTail i = true →
      ∃ l, t.urxLen.read i = some l ∧ l ≤ Config.impl.app) ∧
    (∀ i < 28, ringLive 28 t.ctxHead t.ctxTail i = true → ∃ h, t.ctxHdr.read i = some h ∧ h.dlc.toNat ≤ 8) ∧
    (∀ x, t.urxArmed = some x → x = t.urxHead ∧ ringLive Config.impl.nRx t.urxHead t.urxTail x = false) ∧
    t.utxLen ≤ Config.impl.txBuf ∧
    (t.urxScan = true → t.urxTail ≠ t.urxHead ∧ ∃ l, t.urxLen.read t.urxTail = some l ∧ t.urxPos ≤ l)

/-- No step from a state that meets the invariant makes an access outside a memory: the fault with which the model would stop
there (log entry 10) does not come. -/
def Obligations.NoStepLeavesItsMemories : Prop :=
  ∀ s : State, s.Inv Config.impl → Safe (step s)

/-- The loop never halts: left to itself, the block goes on for any number of micro-steps, whatever the parser, the
formatter and the peripheral answer. -/
def Obligations.LoopNeverHalts : Prop :=
  ∀ (n : Nat) (s : State), s.Inv Config.impl → s.inbox = [] → ∃ t, Host.Core.run Sys2Proof.core n s = .next t

/-! ### Memories and counters -/

/-- A read after a write gives the unit written there and leaves every other address alone, for one unit and for a copy,
whatever the unit of the memory is: a byte, a header, a length, an item. -/
def Obligations.ReadsAfterWrites : Prop :=
  ∀ (α : Type) (m : Memory α) (a b : Nat) (v : α) (vs : List α),
    (m.write a v).read a = some v ∧ (b ≠ a → (m.write a v).read b = m.read b) ∧
    (∀ k, (h : k < vs.length) → (m.writeAll a vs).read (a + k) = some vs[k]) ∧
    (b < a ∨ a + vs.length ≤ b → (m.writeAll a vs).read b = m.read b)

/-- Every step keeps every memory in its canonical form, in every state. -/
def Obligations.StepKeepsMemoriesCanonical : Prop :=
  ∀ s t : State, s.memoriesWf = true → step s = .next t → t.memoriesWf = true

/-- `raise Event(e)` adds one to its counter modulo `2^CNT_W` and does nothing else. -/
def Obligations.RaiseCountsOneEvent : Prop :=
  ∀ (c : Config) (e : Event) (s : State),
    (s.raise c e).evt.get e = (s.evt.get e + 1) % 2 ^ c.cntW ∧
    (∀ d, d ≠ e → (s.raise c e).evt.get d = s.evt.get d) ∧
    s.raise c e = { s with evt := (s.raise c e).evt }

/-! ### The stand-alone ring (spec/40_ringbuffer.md) -/

/-- RB.PUSH of an item of the size of `T`: `FULL` with nothing written on a full ring; else the slot at the head, then the
head. An item of another size is refused. -/
def Obligations.PushWritesSlotThenHead : Prop :=
  ∀ (item : List Byte) (s : State),
    (item.length ≠ Config.impl.itemSize → exec (.rbPush item) s = .refused .badLength) ∧
    (item.length = Config.impl.itemSize → ringFull Config.impl.ringN s.q.head s.q.tail = true →
      exec (.rbPush item) s = .next (s.emit (.result .p .full))) ∧
    (item.length = Config.impl.itemSize → ringFull Config.impl.ringN s.q.head s.q.tail = false →
      s.q.head < Config.impl.ringN →
      exec (.rbPush item) s = .next (({ s with q := { s.q with
        slot := s.q.slot.write s.q.head item
        head := ringNext Config.impl.ringN s.q.head } } : State).emit (.result .p .ok)))

/-- RB.PEND, RB.PEEK, RB.ADV and RB.POP: what the consumer sees and releases; RB.PEEK and RB.ADV are refused on an empty
ring, where RB.POP answers `EMPTY`. -/
def Obligations.ConsumerInspectsReadsReleases : Prop :=
  ∀ s : State,
    let item := s.q.slot.readOr (Config.impl.freeItem s.resets) s.q.tail
    let released : State := { s with q := { s.q with tail := ringNext Config.impl.ringN s.q.tail } }
    exec .rbPend s = .next (s.emit (.result .c (.okBool (!ringEmpty s.q.head s.q.tail)))) ∧
    (ringEmpty s.q.head s.q.tail = true →
      exec .rbPeek s = .refused .emptyRing ∧ exec .rbAdv s = .refused .emptyRing ∧
      exec .rbPop s = .next (s.emit (.result .c .empty))) ∧
    (ringEmpty s.q.head s.q.tail = false →
      exec .rbAdv s = .next (released.emit (.result .c .ok)) ∧
      (s.q.tail < Config.impl.ringN →
        exec .rbPeek s = .next (s.emit (.result .c (.okItem item))) ∧
        exec .rbPop s = .next (released.emit (.result .c (.okItem item)))))

/-- R121, the invariants of a ring, (a) to (e): the indices start at 0 and stay in `[0, N)`; at most `N - 1` items are
live, none exactly when the indices are equal and `N - 1` exactly when the ring is full; only RB.PUSH moves the head and
only RB.ADV and RB.POP the tail, each by one modulo `N`; the live slots are those from the tail on, up to the head; a
live slot is not written. -/
def Obligations.RingKeepsItsDiscipline : Prop :=
  State.reset.q.head = 0 ∧ State.reset.q.tail = 0 ∧
  ∀ (i : Instr) (s t : State), s.q.head < Config.impl.ringN → s.q.tail < Config.impl.ringN → exec i s = .next t →
    let n := Config.impl.ringN
    (t.q.head < n ∧ t.q.tail < n) ∧
    (ringCount n t.q.head t.q.tail ≤ n - 1 ∧
      (ringCount n t.q.head t.q.tail = 0 ↔ t.q.head = t.q.tail) ∧
      (ringCount n t.q.head t.q.tail = n - 1 ↔ (t.q.head + 1) % n = t.q.tail)) ∧
    (t.q.head ≠ s.q.head → (∃ item, i = .rbPush item) ∧ t.q.head = (s.q.head + 1) % n) ∧
    (t.q.tail ≠ s.q.tail → (i = .rbAdv ∨ i = .rbPop) ∧ t.q.tail = (s.q.tail + 1) % n) ∧
    (∀ a < n, ringLive n t.q.head t.q.tail a = true ↔
      ∃ k < ringCount n t.q.head t.q.tail, (ringSlots n t.q.head t.q.tail)[k]? = some a ∧ a = (t.q.tail + k) % n) ∧
    (∀ a < n, ringLive n s.q.head s.q.tail a = true → t.q.slot.read a = s.q.slot.read a)

/-- The capacity law, R123, whose general half the spec derives from R121 and R122: with `c` live items exactly `N - 1 -
c` further pushes succeed, and the next returns `FULL` and leaves everything unchanged; from empty that is `N - 1`. -/
def Obligations.ExactlyTheFreeSlotsAreFilled : Prop :=
  ∀ (c : Config) (s : State) (vs : List (List Byte)) (v : List Byte),
    s.q.head < c.ringN → s.q.tail < c.ringN →
    ringCount c.ringN s.q.head s.q.tail + vs.length = c.ringN - 1 →
    ∃ t, pushAll c vs s = .ok (List.replicate vs.length .ok, t) ∧ rbPush c v t = .ok (.full, t)

/-- The ring is a queue: a push that succeeds appends its item, a pop takes the oldest, a peek shows it and an advance
drops it; a refused push changes nothing. -/
def Obligations.RingIsFirstInFirstOut : Prop :=
  ∀ s t : State, s.Inv Config.impl →
    (∀ item, exec (.rbPush item) s = .next t →
      (t.log = .result .p .ok :: s.log ∧ qItems Config.impl t = qItems Config.impl s ++ [item]) ∨
      (t.log = .result .p .full :: s.log ∧ qItems Config.impl t = qItems Config.impl s)) ∧
    (exec .rbPop s = .next t →
      (∃ v, t.log = .result .c (.okItem v) :: s.log ∧ qItems Config.impl s = v :: qItems Config.impl t) ∨
      (t.log = .result .c .empty :: s.log ∧ qItems Config.impl s = [] ∧ qItems Config.impl t = [])) ∧
    (exec .rbPeek s = .next t →
      ∃ v rest, t.log = .result .c (.okItem v) :: s.log ∧ qItems Config.impl s = v :: rest ∧
        qItems Config.impl t = v :: rest) ∧
    (exec .rbAdv s = .next t → ∃ v, qItems Config.impl s = v :: qItems Config.impl t)

/-! ### The CAN transmit queue (spec/41_cantx.md) -/

/-- CTX.ENQ: a full queue drops the frame with an event; else header and payload bytes go into the head slot, its other
payload bytes stay, then the head advances; a record that is not well formed is refused, one of a standard frame with an
identifier above 11 bits among them (R98 and R110 (b); that clause is general knowledge, log entry 14). -/
def Obligations.EnqueueWritesSlotThenHead : Prop :=
  ∀ (f : FrameRecord) (s : State),
    (f.wf = false → exec (.ctxEnq f) s = .refused .illFormedFrame) ∧
    (f.wf = true → ringFull 28 s.ctxHead s.ctxTail = true →
      exec (.ctxEnq f) s = .next ((s.raise Config.impl .canQueueFull).emit (.result .fgp .full))) ∧
    (f.wf = true → ringFull 28 s.ctxHead s.ctxTail = false → s.ctxHead < 28 →
      exec (.ctxEnq f) s = .next (({ s with
        ctxHdr := s.ctxHdr.write s.ctxHead f.header
        ctxData := s.ctxData.writeAll (ctxAddr s.ctxHead) (f.data.toList.take f.header.dlc.toNat)
        ctxHead := ringNext 28 s.ctxHead } : State).emit (.result .fgp .ok)))

/-- CTX.PROC: nothing on an empty queue; nothing but the query with no free mailbox; else the tail slot's view is
submitted and the tail advances whatever the answer, a rejection being counted. -/
def Obligations.ProcessSubmitsTheOldestOnce : Prop :=
  ∀ s : State,
    let m := (drawMailboxes Config.impl s).1
    let s1 := (drawMailboxes Config.impl s).2
    let f := slotFrame Config.impl s.ctxTail s
    let acc := (drawAccept Config.impl f s1).1
    let s2 : State := { (drawAccept Config.impl f s1).2 with ctxTail := ringNext 28 s.ctxTail }
    (ringEmpty s.ctxHead s.ctxTail = true → exec .ctxProc s = .next (s.emit (.result .fgp .ok))) ∧
    (ringEmpty s.ctxHead s.ctxTail = false → m = 0 →
      exec .ctxProc s = .next (s1.emit (.result .fgp .ok)) ∧ s1 = { s with answers := s1.answers }) ∧
    (ringEmpty s.ctxHead s.ctxTail = false → m ≠ 0 → s.ctxTail < 28 →
      exec .ctxProc s = .next ((if acc then s2 else s2.raise Config.impl .canTxHardwareReject).emit (.result .fgp .ok)) ∧
      s2 = { s with answers := s2.answers, ctxTail := ringNext 28 s.ctxTail, log := .canSubmit f acc :: s.log })

/-- R142, which the spec derives from R141 and R123: from empty 27 frames are enqueued and the 28th is refused, which
changes nothing but `EVT[0]`. -/
def Obligations.TwentySevenFramesFit : Prop :=
  ∀ (c : Config) (s : State) (fs : List CanFrame) (f : CanFrame),
    s.ctxHead < 28 → s.ctxTail = s.ctxHead → fs.length = 27 → (∀ g ∈ fs, g.wf = true) →
    ∃ t, enqAll c fs s = .ok (List.replicate 27 .ok, t) ∧ ctxEnq c f t = .ok (.full, t.raise c .canQueueFull)

/-- Frames leave the queue in the order they entered it, each at most once, unaltered: CTX.ENQ appends the frame or
changes nothing, CTX.PROC submits the oldest frame and drops it or changes nothing. -/
def Obligations.TransmitQueueIsFirstInFirstOut : Prop :=
  ∀ s t : State, s.Inv Config.impl →
    (∀ f, exec (.ctxEnq f) s = .next t →
      (t.log = .result .fgp .ok :: s.log ∧ ctxFrames Config.impl t = ctxFrames Config.impl s ++ [frameOf f]) ∨
      (t.log = .result .fgp .full :: s.log ∧ ctxFrames Config.impl t = ctxFrames Config.impl s)) ∧
    (exec .ctxProc s = .next t →
      (t.log = .result .fgp .ok :: s.log ∧ ctxFrames Config.impl t = ctxFrames Config.impl s) ∨
      (∃ f acc, t.log = .result .fgp .ok :: .canSubmit f acc :: s.log ∧
        ctxFrames Config.impl s = f :: ctxFrames Config.impl t))

/-! ### The bus controller (spec/42_canbus.md) -/

/-- BUS.EN: in `Off` the configuration, the filter and the start are commanded in this order and the bus is `On`; in `On`
nothing. -/
def Obligations.EnableConfiguresFiltersStarts : Prop :=
  ∀ s : State,
    (s.busState = .off → exec .busEn s = .next { s with
      busState := .on
      log := .result .fgp .ok :: .canStart :: .canFilterPassAll ::
        .canConfig s.busPresc s.busSilent s.busArtx :: s.log }) ∧
    (s.busState = .on → exec .busEn s = .next (s.emit (.result .fgp .ok)))

/-- BUS.DIS: in `On` the peripheral is reset and the bus is `Off`, the three settings kept; in `Off` nothing. -/
def Obligations.DisableResetsThePeripheral : Prop :=
  ∀ s : State,
    (s.busState = .on → exec .busDis s = .next { s with
      busState := .off, log := .result .fgp .ok :: .canReset :: s.log }) ∧
    (s.busState = .off → exec .busDis s = .next (s.emit (.result .fgp .ok)))

/-- R157, which the spec derives from R156 and R158: a second BUS.EN, or a second BUS.DIS, makes no call and changes
nothing. -/
def Obligations.EnableAndDisableAreIdempotent : Prop :=
  ∀ s t : State,
    (exec .busEn s = .next t → t.busState = .on ∧ exec .busEn t = .next (t.emit (.result .fgp .ok))) ∧
    (exec .busDis s = .next t → t.busState = .off ∧ exec .busDis t = .next (t.emit (.result .fgp .ok)))

/-- BUS.RATE, BUS.SILENT and BUS.ARTX take effect in `Off`: each writes its own register and nothing else; the rate is the one
that R103 gives for the code, 0 to 8 being `RATE_10K` to `RATE_1000K` and 9 to 15 none. -/
def Obligations.SettingsAreWrittenWhileOff : Prop :=
  (List.range 16).map (fun n => rateOf (BitVec.ofNat 4 n)) =
    [some .rate10K, some .rate20K, some .rate50K, some .rate100K, some .rate125K, some .rate250K, some .rate500K,
      some .rate750K, some .rate1000K, none, none, none, none, none, none, none] ∧
  ∀ s : State, s.busState = .off →
    (∀ r rate, rateOf r = some rate →
      exec (.busRate r) s = .next (({ s with busPresc := Config.impl.prescalerOf rate } : State).emit (.result .fgp .ok))) ∧
    (∀ b, exec (.busSilent b) s = .next (({ s with busSilent := b } : State).emit (.result .fgp .ok))) ∧
    (∀ a, exec (.busArtx a) s = .next (({ s with busArtx := a } : State).emit (.result .fgp .ok)))

/-- R163, which the spec derives from R160 to R162: a configuration request in `On` returns `OK`, raises no event and
changes nothing. -/
def Obligations.SettingsAreIgnoredWhileOn : Prop :=
  ∀ s : State, s.busState = .on →
    (∀ r rate, rateOf r = some rate → exec (.busRate r) s = .next (s.emit (.result .fgp .ok))) ∧
    (∀ b, exec (.busSilent b) s = .next (s.emit (.result .fgp .ok))) ∧
    (∀ a, exec (.busArtx a) s = .next (s.emit (.result .fgp .ok)))

/-- R36, which the spec derives from R32 to R34, R156 and R160 to R162: in a step that does not reset the block and
commands no `CAN.reset`, an `On` bus stays `On` with its three settings unchanged; and in every state reached from reset
they equal, while `On`, what the last `CAN.config` handed over. -/
def Obligations.SettingsAreFrozenWhileOn : Prop :=
  (∀ (s t : State) (new : List Obs), step s = .next t → s.inbox.head? ≠ some .reset → t.log = new ++ s.log →
    .canReset ∉ new → s.busState = .on →
    t.busState = .on ∧ t.busPresc = s.busPresc ∧ t.busSilent = s.busSilent ∧ t.busArtx = s.busArtx) ∧
  (∀ (inbox : List Turn) (a : Answers) (k n : Nat) (log : List Obs) (t : State),
    Host.Core.run Sys2Proof.core n (State.initial Config.impl inbox a k log) = .next t →
    t.busState = .on → lastConfig t.log = some (t.busPresc, t.busSilent, t.busArtx))

/-- The bus state and the three settings change only through controller operations: the five of family BUS, or those a
command line makes the parser issue inside URX.DRAIN. A micro-step of URX.DRAIN, or of LOOP.ITER around one, that moves one of
the four registers is the one that runs the operation named for that register, and that operation stands in the parser's
answer to the line last handed to it. -/
def Obligations.OnlyTheControllerMovesTheBus : Prop :=
  ∀ (i : Instr) (s t : State), exec i s = .next t →
    (i ≠ .busEn → i ≠ .busDis → i ≠ .urxDrain → i ≠ .loopIter → t.busState = s.busState) ∧
    ((∀ r, i ≠ .busRate r) → i ≠ .urxDrain → i ≠ .loopIter → t.busPresc = s.busPresc) ∧
    ((∀ b, i ≠ .busSilent b) → i ≠ .urxDrain → i ≠ .loopIter → t.busSilent = s.busSilent) ∧
    ((∀ a, i ≠ .busArtx a) → i ≠ .urxDrain → i ≠ .loopIter → t.busArtx = s.busArtx) ∧
    (i = .urxDrain ∨ i = .loopIter →
      (t.busState ≠ s.busState ∨ t.busPresc ≠ s.busPresc ∨ t.busSilent ≠ s.busSilent ∨ t.busArtx ≠ s.busArtx) →
      ∃ cmd rest ok, s.pos.drainLine = some (.run cmd rest ok) ∧
        (t.busState ≠ s.busState → cmd = .en ∨ cmd = .dis) ∧ (t.busPresc ≠ s.busPresc → ∃ r, cmd = .rate r) ∧
        (t.busSilent ≠ s.busSilent → ∃ b, cmd = .silent b) ∧ (t.busArtx ≠ s.busArtx → ∃ a, cmd = .artx a) ∧
        (s.Inv Config.impl → ∃ line, (parsedLines s.log).head? = some line ∧ cmd ∈ (Config.impl.parse line).1))

/-! ### The CAN receive path (spec/43_canrx.md) -/

/-- CRX.PEND is false while `Off`, without asking; in `On` it is the peripheral's answer. CRX.RECV is the peripheral's
answer in either state: a frame or `HWERROR`. No register of the block changes. -/
def Obligations.ReceivePathAnswersForThePeripheral : Prop :=
  ∀ s : State,
    (s.busState = .off → exec .crxPend s = .next (s.emit (.result .fgp (.okBool false)))) ∧
    (s.busState = .on →
      exec .crxPend s = .next ((drawNonempty Config.impl s).2.emit
        (.result .fgp (.okBool (drawNonempty Config.impl s).1)))) ∧
    (∀ f, (drawPop Config.impl s).1 = some f →
      exec .crxRecv s = .next ((drawPop Config.impl s).2.emit (.result .fgp (.okFrame f.val)))) ∧
    ((drawPop Config.impl s).1 = none →
      exec .crxRecv s = .next ((drawPop Config.impl s).2.emit (.result .fgp .hwError))) ∧
    (drawNonempty Config.impl s).2 = { s with answers := (drawNonempty Config.impl s).2.answers } ∧
    (drawPop Config.impl s).2 = { s with answers := (drawPop Config.impl s).2.answers }

/-- R180: CRX.OVF has header 0x3200 on port `IRQP`, may come at every micro-step boundary, counts event 2 and does nothing
else, in every state; it commutes with every operation, and no other one moves its counter. -/
def Obligations.FifoOverflowIsOnlyCounted : Prop :=
  Instr.crxOvf.header = 0x3200 ∧ Instr.crxOvf.port = .irqp ∧
  ∀ s : State,
    exec .crxOvf s = .next ((s.raise Config.impl .canRxFifoOverflow).emit (.result .irqp .ok)) ∧
    (∀ rest, step { s with inbox := .request .irqp (encode .crxOvf) :: rest } = exec .crxOvf { s with inbox := rest }) ∧
    (∀ i t, exec i s = .next t →
      exec i (s.raise Config.impl .canRxFifoOverflow) = .next (t.raise Config.impl .canRxFifoOverflow) ∧
      (i ≠ .crxOvf → t.evt.get .canRxFifoOverflow = s.evt.get .canRxFifoOverflow)) ∧
    (∀ i r, exec i s = .refused r → exec i (s.raise Config.impl .canRxFifoOverflow) = .refused r)

/-! ### The USB receive framer (spec/44_usbrx.md) -/

/-- URX.CHUNK: refused beyond `APP_RX_DATA_SIZE` bytes and before the boot arm; on a full ring the bytes lie in the armed
slot, an event is counted and the head slot is armed again; else the length is recorded, the head advances and the new
head slot is armed. -/
def Obligations.ChunkIsCapturedOrLostWhole : Prop :=
  ∀ (bytes : List Byte) (s : State),
    (Config.impl.app < bytes.length → exec (.urxChunk bytes) s = .refused .chunkTooLong) ∧
    (bytes.length ≤ Config.impl.app → s.urxArmed = none → exec (.urxChunk bytes) s = .refused .notArmed) ∧
    (∀ a, bytes.length ≤ Config.impl.app → s.urxArmed = some a → a < Config.impl.nRx →
      ringFull Config.impl.nRx s.urxHead s.urxTail = true →
      exec (.urxChunk bytes) s = .next { s.raise Config.impl .usbRxBufferFull with
        urxMem := s.urxMem.writeAll (urxAddr Config.impl a 0) bytes
        urxArmed := some s.urxHead
        log := .result .irqp .ok :: .usbArm s.urxHead :: s.log }) ∧
    (∀ a, bytes.length ≤ Config.impl.app → s.urxArmed = some a → a < Config.impl.nRx →
      ringFull Config.impl.nRx s.urxHead s.urxTail = false → s.urxHead < Config.impl.nRx →
      exec (.urxChunk bytes) s = .next { s with
        urxMem := s.urxMem.writeAll (urxAddr Config.impl a 0) bytes
        urxLen := s.urxLen.write s.urxHead bytes.length
        urxHead := ringNext Config.impl.nRx s.urxHead
        urxArmed := some (ringNext Config.impl.nRx s.urxHead)
        log := .result .irqp .ok :: .usbArm (ringNext Config.impl.nRx s.urxHead) :: s.log })

/-- The captured chunks are a queue: a chunk that finds room is appended whole, one that meets a full ring leaves the
queued ones as they were (section 1, the chunk just received is the one lost); a drain that finds none returns at once, and
one that finds some takes the oldest away, the one it scans, with its tail advance and with no other micro-step. -/
def Obligations.ReceiveRingIsFirstInFirstOut : Prop :=
  ∀ s t : State, s.Inv Config.impl →
    (∀ bytes, exec (.urxChunk bytes) s = .next t →
      (t.evt = s.evt ∧ urxChunks Config.impl t = urxChunks Config.impl s ++ [bytes]) ∨
      (t.evt = (s.raise Config.impl .usbRxBufferFull).evt ∧ urxChunks Config.impl t = urxChunks Config.impl s)) ∧
    (exec .urxDrain s = .next t →
      (s.pos ≠ .drain .advance → urxChunks Config.impl t = urxChunks Config.impl s) ∧
      (s.pos = .drain .advance →
        urxChunks Config.impl s = slotBytes Config.impl s.urxTail s :: urxChunks Config.impl t) ∧
      (s.pos = .rest → (t.pos = .rest ↔ urxChunks Config.impl s = [])))

/-- From empty `N_RX - 1` chunks are captured with no event, and of any number of further ones each raises
`UsbRxBufferFull` and none moves an index or records a length. -/
def Obligations.ReceiveRingHoldsOneChunkLessThanSlots : Prop :=
  ∀ (c : Config) (s : State) (bs more : List (List Byte)),
    s.urxHead < c.nRx → s.urxTail = s.urxHead → s.urxArmed = some s.urxHead →
    bs.length = c.nRx - 1 → (∀ x ∈ bs ++ more, x.length ≤ c.app) →
    ∃ t u, chunkAll c bs s = .ok (List.replicate bs.length .ok, t) ∧ t.evt = s.evt ∧ t.urxTail = s.urxTail ∧
      t.urxArmed = some t.urxHead ∧
      chunkAll c more t = .ok (List.replicate more.length .ok, u) ∧
      u.evt = ((State.raise c .usbRxBufferFull)^[more.length] t).evt ∧
      u.urxHead = t.urxHead ∧ u.urxTail = t.urxTail ∧ u.urxLen = t.urxLen ∧ u.urxArmed = t.urxArmed

/-- URX.DRAIN with nothing captured returns at once; else its first micro-step opens the scan of the tail slot (R198 lines 1
and 2, one micro-step by R47). -/
def Obligations.DrainOpensTheTailSlot : Prop :=
  ∀ s : State, s.pos = .rest →
    (ringEmpty s.urxHead s.urxTail = true → exec .urxDrain s = .next (s.emit (.result .fgp .ok))) ∧
    (ringEmpty s.urxHead s.urxTail = false →
      exec .urxDrain s = .next { s with urxScan := true, urxPos := 0, pos := .drain .test })

/-- The lines of R198 that a byte other than the terminator takes, each one micro-step (log entry 4): the test, the read, the
branch, then the append while the line has room, else the drop of the byte with the line, which is counted; then the next
byte. The five together, with no step of another agent between them, append the byte (R202) or drop it with the line and
count the event (R201), and nothing else: no transmission and no call of the parser; that is what `scanByte` says of the byte
in one. Nothing is ever stored beyond the line buffer. -/
def Obligations.ScannedByteIsAppendedOrOverflows : Prop :=
  (∀ s : State,
    (s.pos = .drain .test → s.urxTail < Config.impl.nRx →
      exec .urxDrain s = .next { s with
        pos := .drain (if s.urxPos < tailLenOf Config.impl s then .read else .advance) }) ∧
    (s.pos = .drain .read → s.urxTail < Config.impl.nRx → s.urxPos < Config.impl.app →
      exec .urxDrain s = .next { s with pos := .drain (.branch (tailByteOf Config.impl s)) }) ∧
    (∀ b, s.pos = .drain (.branch b) →
      (b = 0x0D → exec .urxDrain s = .next { s with pos := .drain .parse }) ∧
      (b ≠ 0x0D → s.lineIdx = Config.impl.mtu → exec .urxDrain s = .next { s with pos := .drain .overflow }) ∧
      (b ≠ 0x0D → s.lineIdx ≠ Config.impl.mtu → exec .urxDrain s = .next { s with pos := .drain (.append b) })) ∧
    (∀ b, s.pos = .drain (.append b) → s.lineIdx < Config.impl.mtu →
      exec .urxDrain s = .next { s with
        lineMem := s.lineMem.write s.lineIdx b, lineIdx := s.lineIdx + 1, pos := .drain .next }) ∧
    (s.pos = .drain .overflow →
      exec .urxDrain s = .next { s.raise Config.impl .usbLineOverflow with lineIdx := 0, pos := .drain .next }) ∧
    (s.pos = .drain .next →
      exec .urxDrain s = .next { s with urxPos := s.urxPos + 1, pos := .drain .test })) ∧
  (∀ s : State, s.Inv Config.impl → s.pos = .drain .test → s.urxPos < tailLenOf Config.impl s →
    tailByteOf Config.impl s ≠ 0x0D →
    (s.lineIdx < Config.impl.mtu →
      execN .urxDrain 5 s = .next { s with
        lineMem := s.lineMem.write s.lineIdx (tailByteOf Config.impl s)
        lineIdx := s.lineIdx + 1
        urxPos := s.urxPos + 1 }) ∧
    (s.lineIdx = Config.impl.mtu →
      execN .urxDrain 5 s = .next { s.raise Config.impl .usbLineOverflow with
        lineIdx := 0
        urxPos := s.urxPos + 1 }) ∧
    (∃ t, scanByte Config.impl (tailByteOf Config.impl s) s = .ok t ∧
      execN .urxDrain 5 s = .next { t with urxPos := s.urxPos + 1 })) ∧
  (∀ (i : Instr) (s t : State), exec i s = .next t → t.lineMem ≠ s.lineMem → s.lineIdx < Config.impl.mtu)

/-- The lines of R198 that a terminator takes, each one micro-step, and each operation that the parser issues one (log entry
4): the line is handed to the parser, and holds at most `SLCAN_MTU` bytes, none of them the terminator; the operations of its
answer run whole, in order, each with the effect of the operation of that name, which leaves the state the request of that
name leaves, its result apart (R237); the reply byte is offered to the gate; the line is emptied, whatever the parser and the
gate answered. The reply byte is the parser's result for the line alone, whatever the operations returned (the model's choice
within R237, log entry 15). The last two clauses say what they come to together, with no step of another agent between them;
the very last, for a byte of either kind, that it is what `scanByte` says of the byte in one, so that what is stated of
`scanByte` and `scanAll` is stated of the machine's lines. -/
def Obligations.TerminatorParsesThenReplies : Prop :=
  (∀ s : State,
    (s.Inv Config.impl → s.pos = .drain .parse →
      (lineOf Config.impl s).length ≤ Config.impl.mtu ∧ 0x0D ∉ lineOf Config.impl s ∧
      exec .urxDrain s = .next { s.emit (.parse (lineOf Config.impl s)) with
        pos := .drain (match (Config.impl.parse (lineOf Config.impl s)).1 with
          | [] => .reply (Config.impl.parse (lineOf Config.impl s)).2
          | cmd :: rest => .run cmd rest (Config.impl.parse (lineOf Config.impl s)).2) }) ∧
    (∀ cmd rest ok, s.pos = .drain (.run cmd rest ok) → s.ctxHead < 28 →
      ∃ t, runCmd Config.impl cmd s = .ok t ∧
        exec .urxDrain s = .next { t with pos := .drain (match rest with
          | [] => .reply ok
          | cmd' :: rest' => .run cmd' rest' ok) }) ∧
    (∀ ok, s.pos = .drain (.reply ok) →
      exec .urxDrain s = .next { (utxSend Config.impl [if ok then 0x0D else 0x07] s).2 with pos := .drain .clear }) ∧
    (s.pos = .drain .clear → exec .urxDrain s = .next { s with lineIdx := 0, pos := .drain .next })) ∧
  (∀ s t : State,
    (∀ f : WfFrame, runCmd Config.impl (.enq f) s = .ok t → ∀ g : FrameRecord, g.wf = true → frameOf g = f.val →
      ∃ r, exec (.ctxEnq g) s = .next (t.emit (.result .fgp r))) ∧
    (runCmd Config.impl .en s = .ok t → exec .busEn s = .next (t.emit (.result .fgp .ok))) ∧
    (runCmd Config.impl .dis s = .ok t → exec .busDis s = .next (t.emit (.result .fgp .ok))) ∧
    (∀ r, runCmd Config.impl (.rate r) s = .ok t → exec (.busRate (rateCode r)) s = .next (t.emit (.result .fgp .ok))) ∧
    (∀ b, runCmd Config.impl (.silent b) s = .ok t → exec (.busSilent b) s = .next (t.emit (.result .fgp .ok))) ∧
    (∀ a, runCmd Config.impl (.artx a) s = .ok t → exec (.busArtx a) s = .next (t.emit (.result .fgp .ok)))) ∧
  (∀ s : State, runCmds Config.impl [] s = .ok s ∧
    ∀ cmd cmds t, runCmd Config.impl cmd s = .ok t → runCmds Config.impl (cmd :: cmds) s = runCmds Config.impl cmds t) ∧
  (∀ s : State, s.Inv Config.impl → s.pos = .drain .test → s.urxPos < tailLenOf Config.impl s →
    tailByteOf Config.impl s = 0x0D →
    let line := lineOf Config.impl s
    let reply : Byte := if (Config.impl.parse line).2 then 0x0D else 0x07
    ∃ s1, runCmds Config.impl (Config.impl.parse line).1 (s.emit (.parse line)) = .ok s1 ∧
      execN .urxDrain ((Config.impl.parse line).1.length + 7) s =
        .next { (utxSend Config.impl [reply] s1).2 with lineIdx := 0, urxPos := s.urxPos + 1 }) ∧
  (∀ s : State, s.Inv Config.impl → s.pos = .drain .test → s.urxPos < tailLenOf Config.impl s →
    ∃ n t, scanByte Config.impl (tailByteOf Config.impl s) s = .ok t ∧
      execN .urxDrain n s = .next { t with urxPos := s.urxPos + 1 })

/-- The tail advance (R203), in the micro-steps of log entry 4, where the return is one of its own after it: no micro-step of
URX.DRAIN moves the tail but the one that follows when the whole recorded length is scanned; that
one advances it whatever came before, and only the return comes after it. The slot is free from then on, so that a chunk may
arm it again, and nothing of it is cleared. -/
def Obligations.DrainEndsWithTheTailAdvance : Prop :=
  ∀ s : State,
    (∀ t, exec .urxDrain s = .next t → s.pos ≠ .drain .advance → t.urxTail = s.urxTail) ∧
    (s.pos = .drain .test → s.urxTail < Config.impl.nRx → tailLenOf Config.impl s ≤ s.urxPos →
      exec .urxDrain s = .next { s with pos := .drain .advance }) ∧
    (s.pos = .drain .advance →
      let t : State := { s with urxTail := ringNext Config.impl.nRx s.urxTail, urxScan := false, pos := .drain .ret }
      exec .urxDrain s = .next t ∧
      exec .urxDrain t = .next (({ t with pos := .rest } : State).emit (.result .fgp .ok)) ∧
      (s.urxHead < Config.impl.nRx → s.urxTail < Config.impl.nRx → s.urxTail ≠ s.urxHead →
        ringLive Config.impl.nRx t.urxHead t.urxTail s.urxTail = false) ∧
      (∀ bytes a, s.urxHead < Config.impl.nRx → ringNext Config.impl.nRx s.urxHead = s.urxTail →
        s.urxArmed = some a → a < Config.impl.nRx → bytes.length ≤ Config.impl.app →
        ∃ u, exec (.urxChunk bytes) t = .next u ∧ u.urxArmed = some s.urxTail))

/-- A URX.DRAIN left to itself, at whatever line, ends: where the parser issues at most `B` operations for a line, after at
most `7 + B` micro-steps for each byte left and three more, with the slot released, its result presented and the head where
it was. -/
def Obligations.DrainFinishesInBoundedSteps : Prop :=
  ∀ B : Nat, (∀ line, line.length ≤ Config.impl.mtu → (Config.impl.parse line).1.length ≤ B) →
  ∀ (s : State) (l : DrainLine), s.Inv Config.impl → s.inbox = [] → s.pos = .drain l →
    ∃ n t, 0 < n ∧ n ≤ (tailLenOf Config.impl s - s.urxPos) * (7 + B) + 3 ∧
      Host.Core.run Sys2Proof.core n s = .next t ∧ t.pos = .rest ∧ t.urxScan = false ∧ t.urxHead = s.urxHead ∧
      t.urxTail = (if l = .ret then s.urxTail else ringNext Config.impl.nRx s.urxTail) ∧
      t.log.head? = some (.result .fgp .ok)

/-- A run of `k` bytes without a terminator from an empty line overflows `k / (SLCAN_MTU + 1)` times and leaves
`k mod (SLCAN_MTU + 1)` bytes in the line; the parser is not called and nothing is sent. First of the bytes alone; then of
the machine, with no step of another agent between the micro-steps of its drains (log entry 4): of `k` bytes of the tail slot
from the one the scan has come to, and of all captured chunks, drained one after the other, wherever the run was cut. -/
def Obligations.OverlongLinesOverflowOncePerBufferful : Prop :=
  (∀ (c : Config) (bs : List Byte) (s : State), s.lineIdx = 0 → s.evt.get .usbLineOverflow < 2 ^ c.cntW →
    (∀ b ∈ bs, b ≠ term) →
    ∃ t, scanAll c bs s = .ok t ∧ t.lineIdx = bs.length % (c.mtu + 1) ∧
      t.evt.get .usbLineOverflow = (s.evt.get .usbLineOverflow + bs.length / (c.mtu + 1)) % 2 ^ c.cntW ∧
      t.log = s.log ∧ t.utxBusy = s.utxBusy) ∧
  (∀ (k : Nat) (s : State), s.Inv Config.impl → s.pos = .drain .test → s.lineIdx = 0 →
    s.urxPos + k ≤ tailLenOf Config.impl s →
    (∀ b ∈ ((slotBytes Config.impl s.urxTail s).drop s.urxPos).take k, b ≠ 0x0D) →
    ∃ t, execN .urxDrain (5 * k) s = .next t ∧ t = { s with
      lineIdx := k % (Config.impl.mtu + 1)
      lineMem := t.lineMem
      urxPos := s.urxPos + k
      evt := { s.evt with usbLineOverflow :=
        (s.evt.usbLineOverflow + k / (Config.impl.mtu + 1)) % 2 ^ Config.impl.cntW } }) ∧
  (∀ s : State, s.Inv Config.impl → s.pos = .rest → s.lineIdx = 0 →
    (∀ b ∈ (urxChunks Config.impl s).flatten, b ≠ 0x0D) →
    let k := (urxChunks Config.impl s).flatten.length
    ∃ n t, execN .urxDrain n s = .next t ∧ urxChunks Config.impl t = [] ∧ t = { s with
      lineIdx := k % (Config.impl.mtu + 1)
      lineMem := t.lineMem
      urxTail := s.urxHead
      urxPos := t.urxPos
      evt := { s.evt with usbLineOverflow :=
        (s.evt.usbLineOverflow + k / (Config.impl.mtu + 1)) % 2 ^ Config.impl.cntW }
      log := List.replicate (urxChunks Config.impl s).length (.result .fgp .ok) ++ s.log })

/-- A line of at most `SLCAN_MTU` bytes reaches the parser whole, once, without its terminator, and the line is empty
afterwards; where the chunks were cut does not matter: when the captured chunks, one after the other, are the line and its
terminator, then so many micro-steps of URX.DRAIN as drain them all call the parser once, with the line, run its operations
on the queue and the bus, and offer the one reply byte to the gate. The reply byte is the parser's result for the line alone
(the model's choice within R237, log entry 15). -/
def Obligations.LineReachesTheParserWhole : Prop :=
  (∀ (c : Config) (l : List Byte) (s : State), s.Inv c → s.lineIdx = 0 → l.length ≤ c.mtu → (∀ b ∈ l, b ≠ term) →
    ∃ s1 s2 t, scanAll c l s = .ok s1 ∧ s1.log = s.log ∧ lineOf c s1 = l ∧
      runCmds c (c.parse l).1 (s1.emit (.parse l)) = .ok s2 ∧
      scanAll c (l ++ [term]) s = .ok t ∧ t.lineIdx = 0 ∧
      t = { (utxSend c [replyOf c l] s2).2 with lineIdx := 0 }) ∧
  (∀ (l : List Byte) (s : State), s.Inv Config.impl → s.pos = .rest → s.lineIdx = 0 → l.length ≤ Config.impl.mtu →
    (∀ b ∈ l, b ≠ term) → (urxChunks Config.impl s).flatten = l ++ [term] →
    ∃ n s1 t, runCmds Config.impl (Config.impl.parse l).1 s = .ok s1 ∧ execN .urxDrain n s = .next t ∧
      urxChunks Config.impl t = [] ∧ parsedLines t.log = l :: parsedLines s.log ∧
      t = { (utxSend Config.impl [replyOf Config.impl l] s1).2 with
        lineIdx := 0, lineMem := t.lineMem, urxTail := t.urxTail, urxPos := t.urxPos, log := t.log })

/-- A chunk that arrives in the middle of a scan changes nothing of what the scan does: in either order of a chunk and any
micro-step of the scan but the tail advance, be it of a URX.DRAIN of its own or inside LOOP.ITER, the state is the same, but
for the order of what was observed. -/
def Obligations.ChunkCommutesWithTheScan : Prop :=
  ∀ (bytes : List Byte) (i : Instr) (l : DrainLine) (s t u : State), s.Inv Config.impl → i = .urxDrain ∨ i = .loopIter →
    s.pos.drainLine = some l → l ≠ .advance →
    exec (.urxChunk bytes) s = .next t → exec i s = .next u →
    ∃ v w, exec i t = .next v ∧ exec (.urxChunk bytes) u = .next w ∧
      ({ v with log := [] } : State) = { w with log := [] }

/-- The two interrupt operations, and the completion of a transmission, commute with one another: in either order the
state is the same, but for the order of what was observed. -/
def Obligations.InterruptsAndCompletionCommute : Prop :=
  ∀ (bytes : List Byte) (i j : Instr) (s t u : State),
    i ∈ [.urxChunk bytes, .crxOvf, .utxDone] → j ∈ [.urxChunk bytes, .crxOvf, .utxDone] → i ≠ j →
    exec i s = .next t → exec j s = .next u →
    ∃ v w, exec j t = .next v ∧ exec i u = .next w ∧ ({ v with log := [] } : State) = { w with log := [] }

/-! ### The USB transmit gate (spec/45_usbtx.md) -/

/-- UTX.SEND: `BUSY` with an event while one is in flight, else `TOOLONG` with nothing changed beyond the buffer's size,
else the bytes are copied to offset 0 on and the transmission starts. -/
def Obligations.SendStartsOrIsTurnedAway : Prop :=
  ∀ (bytes : List Byte) (s : State),
    (s.utxBusy = true → exec (.utxSend bytes) s = .next ((s.raise Config.impl .usbTxBusy).emit (.result .fgp .busy))) ∧
    (s.utxBusy = false → Config.impl.txBuf < bytes.length →
      exec (.utxSend bytes) s = .next (s.emit (.result .fgp .tooLong))) ∧
    (s.utxBusy = false → bytes.length ≤ Config.impl.txBuf →
      exec (.utxSend bytes) s = .next { s with
        utxMem := s.utxMem.writeAll 0 bytes
        utxLen := bytes.length
        utxBusy := true
        log := .result .fgp .ok :: .usbStartTx bytes :: s.log })

/-- R218, which the spec derives from R216: with a transmission in flight every UTX.SEND returns `BUSY`, adds one to
`EVT[4]` and leaves the gate alone, and the only operation that changes the gate's state is UTX.DONE. -/
def Obligations.FlightIsOnlyEndedByCompletion : Prop :=
  ∀ s : State, s.utxBusy = true →
    (∀ bytes, exec (.utxSend bytes) s = .next ((s.raise Config.impl .usbTxBusy).emit (.result .fgp .busy))) ∧
    (∀ (i : Instr) (t : State), exec i s = .next t → i ≠ .utxDone →
      t.utxMem = s.utxMem ∧ t.utxLen = s.utxLen ∧ t.utxBusy = true)

/-- UTX.DONE frees the gate and leaves the buffer and its length; with nothing in flight it is refused. -/
def Obligations.CompletionFreesTheGate : Prop :=
  ∀ s : State,
    (s.utxBusy = true → exec .utxDone s = .next (({ s with utxBusy := false } : State).emit (.result .envp .ok))) ∧
    (s.utxBusy = false → exec .utxDone s = .refused .noTransmission)

/-! ### The foreground loop (spec/46_loop.md) -/

/-- The three parts of LOOP.ITER, in order, line by line, each line of R231 one micro-step (log entry 4): CTX.PROC; CRX.PEND,
and if it was true one CRX.RECV, whose frame is formatted and offered to the gate; URX.DRAIN, each micro-step of which is the
one that a URX.DRAIN of its own takes there, and whose return is followed by the end of the iteration. -/
def Obligations.IterationRunsItsThreeParts : Prop :=
  ∀ s : State,
    (s.pos = .rest → s.ctxTail < 28 →
      ∃ s1, ctxProc Config.impl s = .ok (.ok, s1) ∧ exec .loopIter s = .next { s1 with pos := .loop .toCanRx }) ∧
    (s.pos = .loop .toCanRx → exec .loopIter s = .next { s with fgPhase := .pCanRx, pos := .loop .pend }) ∧
    (s.pos = .loop .pend → exec .loopIter s = .next { (crxPend Config.impl s).2 with
      pos := .loop (.pended (crxPend Config.impl s).1) }) ∧
    (∀ p, s.pos = .loop (.pended p) →
      exec .loopIter s = .next { s with pos := .loop (if p then .recv else .toUsbRx) }) ∧
    (s.pos = .loop .recv → exec .loopIter s = .next { (drawPop Config.impl s).2 with
      pos := .loop (.received (match (drawPop Config.impl s).1 with
        | some f => .okFrame f.val
        | none => .hwError)) }) ∧
    (∀ f, s.pos = .loop (.received (.okFrame f)) → exec .loopIter s = .next { s with pos := .loop (.format f) }) ∧
    (s.pos = .loop (.received .hwError) → exec .loopIter s = .next { s with pos := .loop .toUsbRx }) ∧
    (∀ f, s.pos = .loop (.format f) →
      exec .loopIter s = .next { s.emit (.format f) with pos := .loop (.send (Config.impl.format f)) }) ∧
    (∀ bytes, s.pos = .loop (.send bytes) →
      exec .loopIter s = .next { (utxSend Config.impl bytes s).2 with pos := .loop .toUsbRx }) ∧
    (s.pos = .loop .toUsbRx → exec .loopIter s = .next { s with fgPhase := .pUsbRx, pos := .loop (.drain none) }) ∧
    (s.pos = .loop (.drain none) →
      (ringEmpty s.urxHead s.urxTail = true → exec .loopIter s = .next { s with pos := .loop .toTx }) ∧
      (ringEmpty s.urxHead s.urxTail = false →
        exec .loopIter s = .next { s with urxScan := true, urxPos := 0, pos := .loop (.drain (some .test)) })) ∧
    (∀ d, s.pos = .loop (.drain (some d)) →
      (d = .ret → exec .loopIter s = .next { s with pos := .loop .toTx }) ∧
      (∀ d' t, exec .urxDrain { s with pos := .drain d } = .next t → t.pos = .drain d' →
        exec .loopIter s = .next { t with pos := .loop (.drain (some d')) })) ∧
    (s.pos = .loop .toTx → exec .loopIter s = .next { s with fgPhase := .pTx, pos := .loop .ret }) ∧
    (s.pos = .loop .ret → exec .loopIter s = .next (({ s with pos := .rest } : State).emit (.result .fgp .ok)))

/-- After boot, left to itself with no request outstanding, the foreground is there again after one iteration, with its result
presented: where the parser issues at most `B` operations for a line, after at most `APP_RX_DATA_SIZE * (7 + B) + 15`
micro-steps. -/
def Obligations.IterationFinishesInBoundedSteps : Prop :=
  ∀ B : Nat, (∀ line, line.length ≤ Config.impl.mtu → (Config.impl.parse line).1.length ≤ B) →
  ∀ s : State, s.Inv Config.impl → s.inbox = [] → s.pos = .rest → s.urxArmed ≠ none →
    ∃ n t, 0 < n ∧ n ≤ Config.impl.app * (7 + B) + 15 ∧ Host.Core.run Sys2Proof.core n s = .next t ∧
      t.pos = .rest ∧ t.fgPhase = .pTx ∧ t.urxScan = false ∧ t.log.head? = some (.result .fgp .ok)

/-! ### Rules of the whole machine (spec/60_exceptions.md) -/

/-- Each context writes its own state and nothing else: `IRQ` the receive ring's producer side and its two counters,
`USBDEV` the busy bit, the stand-alone ring's producer its head and slots and its consumer its tail; and `FG` writes none
of what is theirs, the busy bit being set by it and cleared by `USBDEV`. -/
def Obligations.EachContextWritesItsOwnState : Prop :=
  ∀ (i : Instr) (s t : State), exec i s = .next t →
    (i.port = .irqp → t = { s with
      urxHead := t.urxHead, urxLen := t.urxLen, urxMem := t.urxMem, urxArmed := t.urxArmed, log := t.log
      evt := { s.evt with
        canRxFifoOverflow := t.evt.canRxFifoOverflow, usbRxBufferFull := t.evt.usbRxBufferFull } }) ∧
    (i.port = .envp → t = { s with utxBusy := false, log := t.log }) ∧
    (i.port = .p → t = { s with q := { s.q with head := t.q.head, slot := t.q.slot }, log := t.log }) ∧
    (i.port = .c → t = { s with q := { s.q with tail := t.q.tail }, log := t.log }) ∧
    (i.port = .fgp → t.q = s.q ∧ t.urxHead = s.urxHead ∧ t.urxLen = s.urxLen ∧ t.urxMem = s.urxMem ∧
      t.urxArmed = s.urxArmed ∧ t.evt.canRxFifoOverflow = s.evt.canRxFifoOverflow ∧
      t.evt.usbRxBufferFull = s.evt.usbRxBufferFull ∧ (s.utxBusy = true → t.utxBusy = true) ∧
      t.inbox = s.inbox ∧ t.resets = s.resets)

/-- The frame of every operation, in every state: what it may change is named field by field (`Frame`), so every other
register, counter, memory and environment field is as before. -/
def Obligations.EveryOperationKeepsToItsFrame : Prop :=
  ∀ (i : Instr) (s t : State), exec i s = .next t → Frame i s t

/-- The frame in memory: each storing operation leaves every unit outside the ones it stores to as it was, the address
stored to being computed from the registers as the operation computes it. A micro-step of a URX.DRAIN or of a LOOP.ITER reaches at most
the unit of the line at `LINE_IDX`; the header at `CTX_HEAD`, and the payload bytes of the frame from byte 0 of that slot on,
where it runs a CTX.ENQ that the parser issued, and nothing of that memory elsewhere; the first units of the transmit buffer,
as many as the bytes of the line of R231 that sends, or the one of the reply; and no frame that waits in the transmit queue,
but for the oldest, which a CTX.PROC may take out. -/
def Obligations.StoresReachOnlyTheirUnits : Prop :=
  ∀ (s t : State) (a : Nat),
    (∀ item, exec (.rbPush item) s = .next t → a ≠ s.q.head → t.q.slot.read a = s.q.slot.read a) ∧
    (∀ f, exec (.ctxEnq f) s = .next t →
      (a ≠ s.ctxHead → t.ctxHdr.read a = s.ctxHdr.read a) ∧
      (a < ctxAddr s.ctxHead ∨ ctxAddr s.ctxHead + f.header.dlc.toNat ≤ a → t.ctxData.read a = s.ctxData.read a)) ∧
    (∀ bytes slot, s.urxArmed = some slot → exec (.urxChunk bytes) s = .next t →
      (a ≠ s.urxHead → t.urxLen.read a = s.urxLen.read a) ∧
      (a < urxAddr Config.impl slot 0 ∨ urxAddr Config.impl slot 0 + bytes.length ≤ a →
        t.urxMem.read a = s.urxMem.read a)) ∧
    (∀ bytes, exec (.utxSend bytes) s = .next t → bytes.length ≤ a → t.utxMem.read a = s.utxMem.read a) ∧
    (exec .urxDrain s = .next t →
      (a ≠ s.lineIdx → t.lineMem.read a = s.lineMem.read a) ∧
      (1 ≤ a → t.utxMem.read a = s.utxMem.read a) ∧
      (s.Inv Config.impl → ∃ fs, ctxFrames Config.impl t = ctxFrames Config.impl s ++ fs)) ∧
    (∀ i, i = .urxDrain ∨ i = .loopIter → exec i s = .next t →
      (a ≠ s.lineIdx → t.lineMem.read a = s.lineMem.read a) ∧
      (a ≠ s.ctxHead → t.ctxHdr.read a = s.ctxHdr.read a) ∧
      (a < ctxAddr s.ctxHead ∨ ctxAddr s.ctxHead + 8 ≤ a → t.ctxData.read a = s.ctxData.read a) ∧
      (∀ f rest ok, s.pos.drainLine = some (.run (.enq f) rest ok) →
        a < ctxAddr s.ctxHead ∨ ctxAddr s.ctxHead + f.val.data.length ≤ a → t.ctxData.read a = s.ctxData.read a) ∧
      ((∀ f rest ok, s.pos.drainLine ≠ some (.run (.enq f) rest ok)) → t.ctxHdr = s.ctxHdr ∧ t.ctxData = s.ctxData) ∧
      (∀ bytes, s.pos = .loop (.send bytes) → bytes.length ≤ a → t.utxMem.read a = s.utxMem.read a) ∧
      (∀ ok, s.pos.drainLine = some (.reply ok) → 1 ≤ a → t.utxMem.read a = s.utxMem.read a) ∧
      ((∀ bytes, s.pos ≠ .loop (.send bytes)) → (∀ ok, s.pos.drainLine ≠ some (.reply ok)) → t.utxMem = s.utxMem) ∧
      (s.Inv Config.impl → (∃ fs, ctxFrames Config.impl t = ctxFrames Config.impl s ++ fs) ∨
        ∃ f, ctxFrames Config.impl s = f :: ctxFrames Config.impl t))

/-- A counter moves only in the operations that the event table names for it, directly or as their callers. -/
def Obligations.EventsAreCountedWhereTheyAreDetected : Prop :=
  ∀ (i : Instr) (s t : State) (e : Event), exec i s = .next t → i.opcode ∉ raisers e → t.evt.get e = s.evt.get e

/-- No operation reads a counter: with other counter values it does the same and leaves the same, the counters apart. -/
def Obligations.CountersNeverInfluenceBehaviour : Prop :=
  ∀ (i : Instr) (s : State) (k : Counters),
    (∀ t, exec i s = .next t → ∃ l, exec i { s with evt := k } = .next { t with evt := l }) ∧
    (∀ r, exec i s = .refused r → exec i { s with evt := k } = .refused r) ∧
    (∀ f, exec i s = .fault f → exec i { s with evt := k } = .fault f)

/-- R29: no operation reads `CTX_FULLFLAG` or writes it. -/
def Obligations.FullFlagIsNeverReadOrWritten : Prop :=
  ∀ (i : Instr) (s : State) (b : Bool),
    (∀ t, exec i s = .next t → t.ctxFullFlag = s.ctxFullFlag ∧
      exec i { s with ctxFullFlag := b } = .next { t with ctxFullFlag := b }) ∧
    (∀ r, exec i s = .refused r → exec i { s with ctxFullFlag := b } = .refused r) ∧
    (∀ f, exec i s = .fault f → exec i { s with ctxFullFlag := b } = .fault f)

/-- The unspecified reset contents are never observed: from a state that meets the invariant, an implementation with other
reset contents of the memories does exactly the same: every operation, every line of URX.DRAIN and LOOP.ITER and every operation
that the parser issues; the ones not named (RB.PEND, BUS.EN, BUS.DIS, BUS.SILENT, BUS.ARTX, UTX.DONE, the first micro-step of
URX.DRAIN, the boot arm) are functions of the state alone. -/
def Obligations.ResetContentsAreNeverObserved : Prop :=
  ∀ (c : Config) (fb : Space → Nat → Nat → Byte) (fh : Nat → Nat → FrameHeader) (fl : Nat → Nat → Nat)
    (fi : Nat → Nat → List Byte) (s : State), s.Inv c →
    let c' : Config := { c with freeByte := fb, freeHeader := fh, freeLen := fl, freeItem := fi }
    ctxProc c' s = ctxProc c s ∧ loopBegin c' s = loopBegin c s ∧
    (∀ l, s.pos.drainLine = some l → drainLine c' l s = drainLine c l s) ∧
    (∀ l, s.pos = .loop l → loopLine c' l s = loopLine c l s) ∧
    rbPop c' s = rbPop c s ∧ (ringEmpty s.q.head s.q.tail = false → rbPeek c' s = rbPeek c s) ∧
    (∀ item, rbPush c' item s = rbPush c item s) ∧ rbAdvance c' s = rbAdvance c s ∧
    (∀ f, ctxEnq c' f s = ctxEnq c f s) ∧ (∀ r, busRate c' r s = busRate c r s) ∧
    crxPend c' s = crxPend c s ∧ crxRecv c' s = crxRecv c s ∧ crxOvf c' s = crxOvf c s ∧
    (∀ a bytes, urxChunk c' a bytes s = urxChunk c a bytes s) ∧ (∀ cmd, runCmd c' cmd s = runCmd c cmd s) ∧
    (∀ bytes, utxSend c' bytes s = utxSend c bytes s)
end

