-- ==== Sys2Proof/Laws/Bits.lean ====
section
/-! SUPPORT. The bits of the fields that the encoding packs and unpacks, each field said once bit by bit
(spec/30_encoding.md R91, R97). -/

namespace Sys2Proof

theorem getLsbD_word16 (lo hi : Byte) (i : Nat) :
    (word16 lo hi).getLsbD i = if i < 8 then lo.getLsbD i else hi.getLsbD (i - 8) := by
  rw [show (word16 lo hi).getLsbD i = _ from BitVec.getLsbD_append (x := hi) (y := lo) (i := i)]

theorem getLsbD_word32 (b0 b1 b2 b3 : Byte) (i : Nat) :
    (word32 b0 b1 b2 b3).getLsbD i =
      if i < 8 then b0.getLsbD i else if i < 16 then b1.getLsbD (i - 8)
      else if i < 24 then b2.getLsbD (i - 16) else b3.getLsbD (i - 24) := by
  rw [show (word32 b0 b1 b2 b3).getLsbD i = _ from BitVec.getLsbD_append (x := b3 ++ b2 ++ b1) (y := b0) (i := i)]
  rw [BitVec.getLsbD_append, BitVec.getLsbD_append]
  by_cases h0 : i < 8
  · simp [h0]
  · by_cases h1 : i < 16
    · simp [h0, h1, show i - 8 < 8 by omega]
    · by_cases h2 : i < 24
      · simp [h0, h1, h2, show ¬ i - 8 < 8 by omega, show i - 16 < 8 by omega, Nat.sub_sub]
      · simp [h0, h1, h2, show ¬ i - 8 < 8 by omega, show ¬ i - 16 < 8 by omega, Nat.sub_sub]

/-- Two 16-bit words that agree on their sixteen bits are equal. -/
theorem eq_of_bits16 {v w : BitVec 16} (h : ∀ i < 16, v.getLsbD i = w.getLsbD i) : v = w :=
  BitVec.eq_of_getLsbD_eq h

theorem word16_bytes (w : BitVec 16) : word16 (w.extractLsb' 0 8) (w.extractLsb' 8 8) = w := by
  apply eq_of_bits16
  intro i hi
  rw [getLsbD_word16]
  simp only [BitVec.getLsbD_extractLsb']
  split
  · simp [*]
  · simp [show i - 8 < 8 by omega, show 8 + (i - 8) = i by omega]

theorem bytes16_word16 (lo hi : Byte) : bytes16 (word16 lo hi) = [lo, hi] := by
  have h0 : (word16 lo hi).extractLsb' 0 8 = lo := by
    apply BitVec.eq_of_getLsbD_eq
    intro i hi
    rw [BitVec.getLsbD_extractLsb', getLsbD_word16]
    simp [hi]
  have h1 : (word16 lo hi).extractLsb' 8 8 = hi := by
    apply BitVec.eq_of_getLsbD_eq
    intro i hi
    rw [BitVec.getLsbD_extractLsb', getLsbD_word16]
    simp [hi]
  rw [bytes16, h0, h1]

/-- The four bytes of a 32-bit word, put together again, are the word. -/
theorem word32_bytes (w : BitVec 32) :
    word32 (w.extractLsb' 0 8) (w.extractLsb' 8 8) (w.extractLsb' 16 8) (w.extractLsb' 24 8) = w := by
  apply BitVec.eq_of_getLsbD_eq
  intro i hi
  rw [getLsbD_word32]
  simp only [BitVec.getLsbD_extractLsb']
  split
  · simp [*]
  · split
    · simp [show i - 8 < 8 by omega, show 8 + (i - 8) = i by omega]
    · split
      · simp [show i - 16 < 8 by omega, show 16 + (i - 16) = i by omega]
      · simp [show i - 24 < 8 by omega, show 24 + (i - 24) = i by omega]

/-- Each byte of a 32-bit word is the byte it was made of. -/
theorem extract_word32 (b0 b1 b2 b3 : Byte) :
    (word32 b0 b1 b2 b3).extractLsb' 0 8 = b0 ∧ (word32 b0 b1 b2 b3).extractLsb' 8 8 = b1 ∧
    (word32 b0 b1 b2 b3).extractLsb' 16 8 = b2 ∧ (word32 b0 b1 b2 b3).extractLsb' 24 8 = b3 := by
  refine ⟨?_, ?_, ?_, ?_⟩ <;>
  · apply BitVec.eq_of_getLsbD_eq
    intro i hi
    rw [BitVec.getLsbD_extractLsb', getLsbD_word32]
    interval_cases i <;> simp

/-- The bits of `FR[31:0]` as the encoder writes them (R97). -/
theorem getLsbD_frameWord (rtr ext : Bool) (id : BitVec 29) (i : Nat) :
    (0#1 ++ BitVec.ofBool rtr ++ BitVec.ofBool ext ++ id : BitVec 32).getLsbD i =
      if i < 29 then id.getLsbD i else if i = 29 then ext else if i = 30 then rtr else false := by
  rw [show (0#1 ++ BitVec.ofBool rtr ++ BitVec.ofBool ext ++ id : BitVec 32).getLsbD i = _ from
    BitVec.getLsbD_append (x := 0#1 ++ BitVec.ofBool rtr ++ BitVec.ofBool ext) (y := id) (i := i)]
  rw [BitVec.getLsbD_append, BitVec.getLsbD_append]
  by_cases h0 : i < 29
  · simp [h0]
  · by_cases h1 : i = 29
    · subst h1; simp
    · by_cases h2 : i = 30
      · subst h2; simp
      · simp [h0, h1, h2, show ¬ i - 29 < 1 by omega, show ¬ i - 29 - 1 < 1 by omega]

/-- The bits of `FR[39:32]` as the encoder writes them (R97). -/
theorem getLsbD_dlcByte (dlc : BitVec 4) (i : Nat) :
    (0#4 ++ dlc : BitVec 8).getLsbD i = if i < 4 then dlc.getLsbD i else false := by
  rw [show (0#4 ++ dlc : BitVec 8).getLsbD i = _ from BitVec.getLsbD_append (x := 0#4) (y := dlc) (i := i)]
  split <;> simp

end Sys2Proof
end

