-- ==== Sys2Proof/Laws/Memory.lean ====
section
/-! SUPPORT. The laws of the sparse memories: what a read gives after a write, and that every memory operation keeps the
canonical form. -/

namespace Sys2Proof.Machine

variable {α : Type}

@[simp] theorem Memory.read_nil (a : Nat) : Memory.read ([] : Memory α) a = none := rfl

theorem Memory.read_cons (b : Nat) (v : α) (m : Memory α) (a : Nat) :
    Memory.read ((b, v) :: m) a = if a = b then some v else Memory.read m a := rfl

theorem Memory.read_write (m : Memory α) (a : Nat) (v : α) (b : Nat) :
    (m.write a v).read b = if b = a then some v else m.read b := by
  induction m with
  | nil => simp [Memory.write, Memory.read]
  | cons e m ih =>
    obtain ⟨k, w⟩ := e
    simp only [Memory.write]
    split
    · simp [Memory.read_cons]
    · split
      · subst_vars; simp only [Memory.read_cons]; split <;> rfl
      · simp only [Memory.read_cons, ih]
        by_cases h1 : b = k <;> by_cases h2 : b = a <;> simp_all

@[simp] theorem Memory.read_write_same (m : Memory α) (a : Nat) (v : α) : (m.write a v).read a = some v := by
  simp [Memory.read_write]

theorem Memory.read_write_other (m : Memory α) {a b : Nat} (v : α) (h : b ≠ a) : (m.write a v).read b = m.read b := by
  simp [Memory.read_write, h]

theorem Memory.isSome_read_write (m : Memory α) (a : Nat) (v : α) {b : Nat} (h : (m.read b).isSome) :
    ((m.write a v).read b).isSome := by
  rw [Memory.read_write]; split <;> simp [h]

@[simp] theorem Memory.writeAll_nil (m : Memory α) (a : Nat) : m.writeAll a [] = m := rfl

theorem Memory.read_writeAll (m : Memory α) (a : Nat) (vs : List α) (b : Nat) :
    (m.writeAll a vs).read b =
      if h : a ≤ b ∧ b - a < vs.length then some (vs[b - a]'h.2) else m.read b := by
  induction vs generalizing m a with
  | nil => simp
  | cons v vs ih =>
    rw [Memory.writeAll, ih]
    by_cases h1 : a + 1 ≤ b ∧ b - (a + 1) < vs.length
    · have h2 : a ≤ b ∧ b - a < (v :: vs).length := by simp; omega
      rw [dif_pos h1, dif_pos h2]
      have : b - a = (b - (a + 1)) + 1 := by omega
      simp [this]
    · rw [dif_neg h1, Memory.read_write]
      by_cases h3 : b = a
      · subst h3; simp
      · have h2 : ¬ (a ≤ b ∧ b - a < (v :: vs).length) := by simp; omega
        rw [dif_neg h2, if_neg h3]

/-- A write of several units leaves every address outside them alone. -/
theorem Memory.read_writeAll_outside (m : Memory α) (a : Nat) (vs : List α) (b : Nat)
    (h : b < a ∨ a + vs.length ≤ b) : (m.writeAll a vs).read b = m.read b := by
  rw [Memory.read_writeAll, dif_neg]; omega

theorem Memory.read_writeAll_inside (m : Memory α) (a : Nat) (vs : List α) (k : Nat) (h : k < vs.length) :
    (m.writeAll a vs).read (a + k) = some vs[k] := by
  rw [Memory.read_writeAll, dif_pos (by omega)]; simp

theorem Memory.isSome_read_writeAll (m : Memory α) (a : Nat) (vs : List α) {b : Nat} (h : (m.read b).isSome) :
    ((m.writeAll a vs).read b).isSome := by
  rw [Memory.read_writeAll]; split <;> simp [h]

@[simp] theorem Memory.length_readAll (m : Memory α) (free : Nat → α) (a n : Nat) :
    (m.readAll free a n).length = n := by
  induction n generalizing a <;> simp [Memory.readAll, *]

@[simp] theorem Memory.getElem_readAll (m : Memory α) (free : Nat → α) (a n k : Nat)
    (h : k < (m.readAll free a n).length) : (m.readAll free a n)[k] = m.readOr free (a + k) := by
  induction n generalizing a k with
  | zero => simp at h
  | succ n ih =>
    cases k with
    | zero => simp [Memory.readAll]
    | succ k => simp [Memory.readAll, ih, Nat.add_assoc, Nat.add_comm 1]

/-- Reading back what was written. -/
theorem Memory.readAll_writeAll (m : Memory α) (free : Nat → α) (a : Nat) (vs : List α) :
    (m.writeAll a vs).readAll free a vs.length = vs := by
  apply List.ext_getElem
  · simp
  · intro k h1 h2
    simp [Memory.readOr, Memory.read_writeAll_inside _ _ _ _ h2]

/-- Two memories (and two free contents) that agree on a range read alike there. -/
theorem Memory.readAll_congr (m m' : Memory α) (free free' : Nat → α) (a n : Nat)
    (h : ∀ k < n, m.readOr free (a + k) = m'.readOr free' (a + k)) : m.readAll free a n = m'.readAll free' a n := by
  apply List.ext_getElem
  · simp
  · intro k h1 h2
    simpa using h k (by simpa using h1)

/-- What was written there reads the same whatever the reset content was. -/
theorem Memory.readOr_of_isSome (m : Memory α) (free free' : Nat → α) {a : Nat} (h : (m.read a).isSome) :
    m.readOr free a = m.readOr free' a := by
  obtain ⟨v, hv⟩ := Option.isSome_iff_exists.mp h
  simp [Memory.readOr, hv]

/-! ### The canonical form -/

theorem Memory.wf_iff (m : Memory α) : m.wf = true ↔ (m.map Prod.fst).Pairwise (· < ·) := by
  simp [Memory.wf]

@[simp] theorem Memory.wf_nil : Memory.wf ([] : Memory α) = true := rfl

theorem Memory.mem_write {m : Memory α} {a : Nat} {v : α} {k : Nat} :
    k ∈ (m.write a v).map Prod.fst → k = a ∨ k ∈ m.map Prod.fst := by
  induction m with
  | nil => simp [Memory.write]
  | cons e m ih =>
    obtain ⟨b, w⟩ := e
    simp only [Memory.write]
    split
    · simp
    · split
      · intro h; simp only [List.map_cons, List.mem_cons] at h ⊢; tauto
      · intro h
        simp only [List.map_cons, List.mem_cons] at h ⊢
        rcases h with h | h
        · exact .inr (.inl h)
        · rcases ih h with h | h
          · exact .inl h
          · exact .inr (.inr h)

theorem Memory.wf_write {m : Memory α} (h : m.wf = true) (a : Nat) (v : α) : (m.write a v).wf = true := by
  rw [Memory.wf_iff] at h ⊢
  induction m with
  | nil => simp [Memory.write]
  | cons e m ih =>
    obtain ⟨b, w⟩ := e
    simp only [List.map_cons, List.pairwise_cons] at h
    simp only [Memory.write]
    split
    · rename_i hab
      simp only [List.map_cons, List.pairwise_cons, List.mem_cons]
      refine ⟨?_, h.1, h.2⟩
      rintro k (rfl | hk)
      · exact hab
      · exact Nat.lt_trans hab (h.1 k hk)
    · split
      · rename_i _ hab
        subst hab
        simpa using h
      · rename_i h1 h2
        simp only [List.map_cons, List.pairwise_cons]
        refine ⟨fun k hk => ?_, ih h.2⟩
        rcases Memory.mem_write hk with hk | hk
        · rw [hk]; exact Nat.lt_of_le_of_ne (Nat.le_of_not_lt h1) (Ne.symm h2)
        · exact h.1 k hk

theorem Memory.wf_writeAll {m : Memory α} (h : m.wf = true) (a : Nat) (vs : List α) : (m.writeAll a vs).wf = true := by
  induction vs generalizing m a with
  | nil => exact h
  | cons v vs ih => exact ih (Memory.wf_write h a v) (a + 1)

/-! ### Ranges -/

theorem checkRange_ok {sp : Space} {a n size : Nat} (h : a + n ≤ size) : checkRange sp a n size = .ok () := by
  simp [checkRange, h]

theorem checkRange_eq_ok {sp : Space} {a n size : Nat} {u : Unit} : checkRange sp a n size = .ok u ↔ a + n ≤ size := by
  simp only [checkRange]; split <;> simp_all

/-- Bytes of different slots of `URXMEM` lie at different addresses (spec/20_memory.md R60). -/
theorem urxAddr_injective {c : Config} {i j a b : Nat} (ha : a < c.app) (hb : b < c.app)
    (h : urxAddr c i a = urxAddr c j b) : i = j ∧ a = b := by
  simp only [urxAddr] at h
  have hi : (i * c.app + a) / c.app = i := by
    rw [Nat.mul_comm, Nat.mul_add_div (by omega), Nat.div_eq_of_lt ha, Nat.add_zero]
  have hj : (j * c.app + b) / c.app = j := by
    rw [Nat.mul_comm, Nat.mul_add_div (by omega), Nat.div_eq_of_lt hb, Nat.add_zero]
  have : i = j := by rw [← hi, h, hj]
  subst this
  exact ⟨rfl, by omega⟩

end Sys2Proof.Machine
end

