-- ==== Sys2Proof/Laws/Ring.lean ====
section
/-! SUPPORT. The arithmetic of a ring's two indices (spec/00_scope.md R9, R14; spec/40_ringbuffer.md R121, R129). -/

namespace Sys2Proof.Machine

/-- A register of `ceil(log2 n)` bits holds every value below `n`. -/
theorem lt_two_pow_clog2 {n v : Nat} (h : v < n) : v < 2 ^ clog2 n := by
  unfold clog2
  split
  · omega
  · exact Nat.lt_of_le_of_lt (by omega : v ≤ n - 1) Nat.lt_log2_self

theorem lt_two_pow_idxW {n v : Nat} (h : v < n) : v < 2 ^ idxW n :=
  Nat.lt_of_lt_of_le (lt_two_pow_clog2 h) (Nat.pow_le_pow_right (by decide) (Nat.le_max_right _ _))

/-- A value in range is written whole. -/
theorem inWidth_clog2 {n v : Nat} (h : v < n) : inWidth (clog2 n) v = v := Nat.mod_eq_of_lt (lt_two_pow_clog2 h)

/-- The advance of an index fits its register: it is the one of R129. -/
theorem advanceIndex_eq {n : Nat} (hn : 0 < n) (i : Nat) : advanceIndex n i = ringNext n i :=
  Nat.mod_eq_of_lt (lt_two_pow_idxW (Nat.mod_lt _ hn))

@[simp] theorem advanceIndex_ringN (c : Config) (i : Nat) : advanceIndex c.ringN i = ringNext c.ringN i :=
  advanceIndex_eq (Nat.succ_pos _) i
@[simp] theorem advanceIndex_nRx (c : Config) (i : Nat) : advanceIndex c.nRx i = ringNext c.nRx i :=
  advanceIndex_eq (Nat.succ_pos _) i
@[simp] theorem advanceIndex_nTx (i : Nat) : advanceIndex nTx i = ringNext nTx i := advanceIndex_eq (by decide) i

theorem ringNext_lt {n i : Nat} (hn : 0 < n) : ringNext n i < n := Nat.mod_lt _ hn

theorem ringNext_eq {n i : Nat} (h : i < n) : ringNext n i = if i + 1 = n then 0 else i + 1 := by
  unfold ringNext
  split
  · rename_i h1; rw [h1]; exact Nat.mod_self n
  · exact Nat.mod_eq_of_lt (by omega)

theorem ringCount_eq {n head tail : Nat} (hh : head < n) (ht : tail < n) :
    ringCount n head tail = if tail ≤ head then head - tail else head + n - tail := by
  unfold ringCount
  split
  · rw [show head + n - tail = (head - tail) + n by omega, Nat.add_mod_right]
    exact Nat.mod_eq_of_lt (by omega)
  · exact Nat.mod_eq_of_lt (by omega)

@[simp] theorem ringCount_self {n i : Nat} (h : i < n) : ringCount n i i = 0 := by
  simp [ringCount_eq h h]

theorem ringCount_le {n head tail : Nat} (hh : head < n) (ht : tail < n) : ringCount n head tail ≤ n - 1 := by
  rw [ringCount_eq hh ht]; split <;> omega

theorem ringEmpty_iff {n head tail : Nat} (hh : head < n) (ht : tail < n) :
    ringEmpty head tail = true ↔ ringCount n head tail = 0 := by
  rw [ringCount_eq hh ht]; simp only [ringEmpty, beq_iff_eq]; split <;> omega

theorem ringFull_iff {n head tail : Nat} (hh : head < n) (ht : tail < n) :
    ringFull n head tail = true ↔ ringCount n head tail = n - 1 := by
  rw [ringCount_eq hh ht]; simp only [ringFull, beq_iff_eq, ringNext_eq hh]; split <;> split <;> omega

/-- A push that is not refused makes one more item live. -/
theorem ringCount_push {n head tail : Nat} (hh : head < n) (ht : tail < n) (hf : ringFull n head tail = false) :
    ringCount n (ringNext n head) tail = ringCount n head tail + 1 := by
  have hn : ringNext n head < n := ringNext_lt (by omega)
  have hc : ¬ ringCount n head tail = n - 1 := by
    rw [← ringFull_iff hh ht, hf]; decide
  rw [ringCount_eq hh ht] at *
  rw [ringCount_eq hn ht]
  rw [ringNext_eq hh] at *
  split_ifs at hc ⊢ <;> omega

/-- An advance of the tail makes one item fewer live. -/
theorem ringCount_advance {n head tail : Nat} (hh : head < n) (ht : tail < n) (he : ringEmpty head tail = false) :
    ringCount n head (ringNext n tail) + 1 = ringCount n head tail := by
  have hn : ringNext n tail < n := ringNext_lt (by omega)
  simp only [ringEmpty, beq_eq_false_iff_ne] at he
  rw [ringCount_eq hh ht, ringCount_eq hh hn, ringNext_eq ht]
  by_cases h1 : tail + 1 = n
  · simp only [h1, if_true, Nat.zero_le]; split_ifs <;> omega
  · simp only [h1, if_false]; split_ifs <;> omega

theorem ringLive_iff {n head tail i : Nat} :
    ringLive n head tail i = true ↔ ringCount n i tail < ringCount n head tail := by
  simp [ringLive]

/-- The head slot is not live. -/
theorem ringLive_head {n head tail : Nat} : ringLive n head tail head = false := by simp [ringLive]

theorem ringLive_tail {n head tail : Nat} (hh : head < n) (ht : tail < n) (he : ringEmpty head tail = false) :
    ringLive n head tail tail = true := by
  rw [ringLive_iff, ringCount_self ht]
  have h0 : ringCount n head tail ≠ 0 := fun h => by simp [(ringEmpty_iff hh ht).mpr h] at he
  omega

/-- After a push the live slots are the old ones and the old head. -/
theorem ringLive_push {n head tail i : Nat} (hh : head < n) (ht : tail < n) (hi : i < n)
    (hf : ringFull n head tail = false) :
    ringLive n (ringNext n head) tail i = true ↔ i = head ∨ ringLive n head tail i = true := by
  rw [ringLive_iff, ringLive_iff, ringCount_push hh ht hf, ringCount_eq hh ht, ringCount_eq hi ht]
  split_ifs <;> omega

/-- After an advance every live slot was live before. -/
theorem ringLive_of_advance {n head tail i : Nat} (hh : head < n) (ht : tail < n) (hi : i < n)
    (he : ringEmpty head tail = false) (h : ringLive n head (ringNext n tail) i = true) :
    ringLive n head tail i = true := by
  have hn : ringNext n tail < n := ringNext_lt (by omega)
  simp only [ringEmpty, beq_eq_false_iff_ne] at he
  rw [ringLive_iff] at *
  rw [ringCount_eq hh hn, ringCount_eq hi hn, ringNext_eq ht] at h
  rw [ringCount_eq hh ht, ringCount_eq hi ht]
  split_ifs at h ⊢ <;> omega

theorem ringSlots_empty {n head tail : Nat} (hh : head < n) (ht : tail < n) (he : ringEmpty head tail = true) :
    ringSlots n head tail = [] := by
  simp [ringSlots, (ringEmpty_iff hh ht).mp he]

/-- A push appends the old head slot to the live ones. -/
theorem ringSlots_push {n head tail : Nat} (hh : head < n) (ht : tail < n) (hf : ringFull n head tail = false) :
    ringSlots n (ringNext n head) tail = ringSlots n head tail ++ [head] := by
  simp only [ringSlots, ringCount_push hh ht hf, List.range_succ, List.map_append, List.map_cons, List.map_nil]
  congr 2
  rw [ringCount_eq hh ht]
  split
  · rw [show tail + (head - tail) = head by omega]; exact Nat.mod_eq_of_lt hh
  · rw [show tail + (head + n - tail) = head + n by omega, Nat.add_mod_right]; exact Nat.mod_eq_of_lt hh

/-- The oldest live slot is the tail, and an advance leaves the others. -/
theorem ringSlots_advance {n head tail : Nat} (hh : head < n) (ht : tail < n) (he : ringEmpty head tail = false) :
    ringSlots n head tail = tail :: ringSlots n head (ringNext n tail) := by
  simp only [ringSlots, ← ringCount_advance hh ht he, List.range_succ_eq_map, List.map_cons, List.map_map]
  congr 1
  · simpa using Nat.mod_eq_of_lt ht
  · apply List.map_congr_left
    intro k _
    simp only [Function.comp, ringNext, Nat.mod_add_mod]
    congr 1
    omega

theorem mem_ringSlots {n head tail i : Nat} (hh : head < n) (ht : tail < n) (hi : i < n) :
    i ∈ ringSlots n head tail ↔ ringLive n head tail i = true := by
  simp only [ringSlots, List.mem_map, List.mem_range, ringLive_iff]
  constructor
  · rintro ⟨k, hk, rfl⟩
    have hc := ringCount_le hh ht
    have : ringCount n ((tail + k) % n) tail = k := by
      rw [ringCount_eq hi ht]
      have h2 : (tail + k) % n = if tail + k < n then tail + k else tail + k - n := by
        split
        · exact Nat.mod_eq_of_lt ‹_›
        · rw [Nat.mod_eq_sub_mod (by omega)]; exact Nat.mod_eq_of_lt (by omega)
      rw [h2]; split <;> split <;> omega
    omega
  · intro h
    refine ⟨ringCount n i tail, h, ?_⟩
    rw [ringCount_eq hi ht]
    split
    · rw [show tail + (i - tail) = i by omega]; exact Nat.mod_eq_of_lt hi
    · rw [show tail + (i + n - tail) = i + n by omega, Nat.add_mod_right]; exact Nat.mod_eq_of_lt hi

end Sys2Proof.Machine
end

