-- ==== Sys2Proof/Laws/State.lean ====
section
/-! SUPPORT. One lemma per field per named update of the state, true by unfolding, so that no later proof unfolds one. -/

namespace Sys2Proof.Machine

/-! ### `emit` -/

@[simp] theorem State.emit_q (o : Obs) (s : State) : (s.emit o).q = s.q := rfl
@[simp] theorem State.emit_ctxHead (o : Obs) (s : State) : (s.emit o).ctxHead = s.ctxHead := rfl
@[simp] theorem State.emit_ctxTail (o : Obs) (s : State) : (s.emit o).ctxTail = s.ctxTail := rfl
@[simp] theorem State.emit_ctxHdr (o : Obs) (s : State) : (s.emit o).ctxHdr = s.ctxHdr := rfl
@[simp] theorem State.emit_ctxData (o : Obs) (s : State) : (s.emit o).ctxData = s.ctxData := rfl
@[simp] theorem State.emit_ctxFullFlag (o : Obs) (s : State) : (s.emit o).ctxFullFlag = s.ctxFullFlag := rfl
@[simp] theorem State.emit_urxHead (o : Obs) (s : State) : (s.emit o).urxHead = s.urxHead := rfl
@[simp] theorem State.emit_urxTail (o : Obs) (s : State) : (s.emit o).urxTail = s.urxTail := rfl
@[simp] theorem State.emit_urxMem (o : Obs) (s : State) : (s.emit o).urxMem = s.urxMem := rfl
@[simp] theorem State.emit_urxLen (o : Obs) (s : State) : (s.emit o).urxLen = s.urxLen := rfl
@[simp] theorem State.emit_urxArmed (o : Obs) (s : State) : (s.emit o).urxArmed = s.urxArmed := rfl
@[simp] theorem State.emit_urxScan (o : Obs) (s : State) : (s.emit o).urxScan = s.urxScan := rfl
@[simp] theorem State.emit_urxPos (o : Obs) (s : State) : (s.emit o).urxPos = s.urxPos := rfl
@[simp] theorem State.emit_lineIdx (o : Obs) (s : State) : (s.emit o).lineIdx = s.lineIdx := rfl
@[simp] theorem State.emit_lineMem (o : Obs) (s : State) : (s.emit o).lineMem = s.lineMem := rfl
@[simp] theorem State.emit_utxBusy (o : Obs) (s : State) : (s.emit o).utxBusy = s.utxBusy := rfl
@[simp] theorem State.emit_utxLen (o : Obs) (s : State) : (s.emit o).utxLen = s.utxLen := rfl
@[simp] theorem State.emit_utxMem (o : Obs) (s : State) : (s.emit o).utxMem = s.utxMem := rfl
@[simp] theorem State.emit_busState (o : Obs) (s : State) : (s.emit o).busState = s.busState := rfl
@[simp] theorem State.emit_busPresc (o : Obs) (s : State) : (s.emit o).busPresc = s.busPresc := rfl
@[simp] theorem State.emit_busSilent (o : Obs) (s : State) : (s.emit o).busSilent = s.busSilent := rfl
@[simp] theorem State.emit_busArtx (o : Obs) (s : State) : (s.emit o).busArtx = s.busArtx := rfl
@[simp] theorem State.emit_evt (o : Obs) (s : State) : (s.emit o).evt = s.evt := rfl
@[simp] theorem State.emit_fgPhase (o : Obs) (s : State) : (s.emit o).fgPhase = s.fgPhase := rfl
@[simp] theorem State.emit_pos (o : Obs) (s : State) : (s.emit o).pos = s.pos := rfl
@[simp] theorem State.emit_inbox (o : Obs) (s : State) : (s.emit o).inbox = s.inbox := rfl
@[simp] theorem State.emit_answers (o : Obs) (s : State) : (s.emit o).answers = s.answers := rfl
@[simp] theorem State.emit_resets (o : Obs) (s : State) : (s.emit o).resets = s.resets := rfl
@[simp] theorem State.emit_log (o : Obs) (s : State) : (s.emit o).log = o :: s.log := rfl

/-! ### `raise` -/

@[simp] theorem State.raise_q (c : Config) (e : Event) (s : State) : (s.raise c e).q = s.q := rfl
@[simp] theorem State.raise_ctxHead (c : Config) (e : Event) (s : State) : (s.raise c e).ctxHead = s.ctxHead := rfl
@[simp] theorem State.raise_ctxTail (c : Config) (e : Event) (s : State) : (s.raise c e).ctxTail = s.ctxTail := rfl
@[simp] theorem State.raise_ctxHdr (c : Config) (e : Event) (s : State) : (s.raise c e).ctxHdr = s.ctxHdr := rfl
@[simp] theorem State.raise_ctxData (c : Config) (e : Event) (s : State) : (s.raise c e).ctxData = s.ctxData := rfl
@[simp] theorem State.raise_ctxFullFlag (c : Config) (e : Event) (s : State) : (s.raise c e).ctxFullFlag = s.ctxFullFlag := rfl
@[simp] theorem State.raise_urxHead (c : Config) (e : Event) (s : State) : (s.raise c e).urxHead = s.urxHead := rfl
@[simp] theorem State.raise_urxTail (c : Config) (e : Event) (s : State) : (s.raise c e).urxTail = s.urxTail := rfl
@[simp] theorem State.raise_urxMem (c : Config) (e : Event) (s : State) : (s.raise c e).urxMem = s.urxMem := rfl
@[simp] theorem State.raise_urxLen (c : Config) (e : Event) (s : State) : (s.raise c e).urxLen = s.urxLen := rfl
@[simp] theorem State.raise_urxArmed (c : Config) (e : Event) (s : State) : (s.raise c e).urxArmed = s.urxArmed := rfl
@[simp] theorem State.raise_urxScan (c : Config) (e : Event) (s : State) : (s.raise c e).urxScan = s.urxScan := rfl
@[simp] theorem State.raise_urxPos (c : Config) (e : Event) (s : State) : (s.raise c e).urxPos = s.urxPos := rfl
@[simp] theorem State.raise_lineIdx (c : Config) (e : Event) (s : State) : (s.raise c e).lineIdx = s.lineIdx := rfl
@[simp] theorem State.raise_lineMem (c : Config) (e : Event) (s : State) : (s.raise c e).lineMem = s.lineMem := rfl
@[simp] theorem State.raise_utxBusy (c : Config) (e : Event) (s : State) : (s.raise c e).utxBusy = s.utxBusy := rfl
@[simp] theorem State.raise_utxLen (c : Config) (e : Event) (s : State) : (s.raise c e).utxLen = s.utxLen := rfl
@[simp] theorem State.raise_utxMem (c : Config) (e : Event) (s : State) : (s.raise c e).utxMem = s.utxMem := rfl
@[simp] theorem State.raise_busState (c : Config) (e : Event) (s : State) : (s.raise c e).busState = s.busState := rfl
@[simp] theorem State.raise_busPresc (c : Config) (e : Event) (s : State) : (s.raise c e).busPresc = s.busPresc := rfl
@[simp] theorem State.raise_busSilent (c : Config) (e : Event) (s : State) : (s.raise c e).busSilent = s.busSilent := rfl
@[simp] theorem State.raise_busArtx (c : Config) (e : Event) (s : State) : (s.raise c e).busArtx = s.busArtx := rfl
@[simp] theorem State.raise_evt (c : Config) (e : Event) (s : State) : (s.raise c e).evt = s.evt.set e ((s.evt.get e + 1) % 2 ^ c.cntW) := rfl
@[simp] theorem State.raise_fgPhase (c : Config) (e : Event) (s : State) : (s.raise c e).fgPhase = s.fgPhase := rfl
@[simp] theorem State.raise_pos (c : Config) (e : Event) (s : State) : (s.raise c e).pos = s.pos := rfl
@[simp] theorem State.raise_inbox (c : Config) (e : Event) (s : State) : (s.raise c e).inbox = s.inbox := rfl
@[simp] theorem State.raise_answers (c : Config) (e : Event) (s : State) : (s.raise c e).answers = s.answers := rfl
@[simp] theorem State.raise_resets (c : Config) (e : Event) (s : State) : (s.raise c e).resets = s.resets := rfl
@[simp] theorem State.raise_log (c : Config) (e : Event) (s : State) : (s.raise c e).log = s.log := rfl

/-! ### `usbArm` -/

@[simp] theorem State.usbArm_q (a : Nat) (s : State) : (usbArm a s).q = s.q := rfl
@[simp] theorem State.usbArm_ctxHead (a : Nat) (s : State) : (usbArm a s).ctxHead = s.ctxHead := rfl
@[simp] theorem State.usbArm_ctxTail (a : Nat) (s : State) : (usbArm a s).ctxTail = s.ctxTail := rfl
@[simp] theorem State.usbArm_ctxHdr (a : Nat) (s : State) : (usbArm a s).ctxHdr = s.ctxHdr := rfl
@[simp] theorem State.usbArm_ctxData (a : Nat) (s : State) : (usbArm a s).ctxData = s.ctxData := rfl
@[simp] theorem State.usbArm_ctxFullFlag (a : Nat) (s : State) : (usbArm a s).ctxFullFlag = s.ctxFullFlag := rfl
@[simp] theorem State.usbArm_urxHead (a : Nat) (s : State) : (usbArm a s).urxHead = s.urxHead := rfl
@[simp] theorem State.usbArm_urxTail (a : Nat) (s : State) : (usbArm a s).urxTail = s.urxTail := rfl
@[simp] theorem State.usbArm_urxMem (a : Nat) (s : State) : (usbArm a s).urxMem = s.urxMem := rfl
@[simp] theorem State.usbArm_urxLen (a : Nat) (s : State) : (usbArm a s).urxLen = s.urxLen := rfl
@[simp] theorem State.usbArm_urxArmed (a : Nat) (s : State) : (usbArm a s).urxArmed = some a := rfl
@[simp] theorem State.usbArm_urxScan (a : Nat) (s : State) : (usbArm a s).urxScan = s.urxScan := rfl
@[simp] theorem State.usbArm_urxPos (a : Nat) (s : State) : (usbArm a s).urxPos = s.urxPos := rfl
@[simp] theorem State.usbArm_lineIdx (a : Nat) (s : State) : (usbArm a s).lineIdx = s.lineIdx := rfl
@[simp] theorem State.usbArm_lineMem (a : Nat) (s : State) : (usbArm a s).lineMem = s.lineMem := rfl
@[simp] theorem State.usbArm_utxBusy (a : Nat) (s : State) : (usbArm a s).utxBusy = s.utxBusy := rfl
@[simp] theorem State.usbArm_utxLen (a : Nat) (s : State) : (usbArm a s).utxLen = s.utxLen := rfl
@[simp] theorem State.usbArm_utxMem (a : Nat) (s : State) : (usbArm a s).utxMem = s.utxMem := rfl
@[simp] theorem State.usbArm_busState (a : Nat) (s : State) : (usbArm a s).busState = s.busState := rfl
@[simp] theorem State.usbArm_busPresc (a : Nat) (s : State) : (usbArm a s).busPresc = s.busPresc := rfl
@[simp] theorem State.usbArm_busSilent (a : Nat) (s : State) : (usbArm a s).busSilent = s.busSilent := rfl
@[simp] theorem State.usbArm_busArtx (a : Nat) (s : State) : (usbArm a s).busArtx = s.busArtx := rfl
@[simp] theorem State.usbArm_evt (a : Nat) (s : State) : (usbArm a s).evt = s.evt := rfl
@[simp] theorem State.usbArm_fgPhase (a : Nat) (s : State) : (usbArm a s).fgPhase = s.fgPhase := rfl
@[simp] theorem State.usbArm_pos (a : Nat) (s : State) : (usbArm a s).pos = s.pos := rfl
@[simp] theorem State.usbArm_inbox (a : Nat) (s : State) : (usbArm a s).inbox = s.inbox := rfl
@[simp] theorem State.usbArm_answers (a : Nat) (s : State) : (usbArm a s).answers = s.answers := rfl
@[simp] theorem State.usbArm_resets (a : Nat) (s : State) : (usbArm a s).resets = s.resets := rfl
@[simp] theorem State.usbArm_log (a : Nat) (s : State) : (usbArm a s).log = .usbArm a :: s.log := rfl

/-! ### `advanceTail` -/

@[simp] theorem State.advanceTail_q (c : Config) (s : State) : (advanceTail c s).q = s.q := rfl
@[simp] theorem State.advanceTail_ctxHead (c : Config) (s : State) : (advanceTail c s).ctxHead = s.ctxHead := rfl
@[simp] theorem State.advanceTail_ctxTail (c : Config) (s : State) : (advanceTail c s).ctxTail = s.ctxTail := rfl
@[simp] theorem State.advanceTail_ctxHdr (c : Config) (s : State) : (advanceTail c s).ctxHdr = s.ctxHdr := rfl
@[simp] theorem State.advanceTail_ctxData (c : Config) (s : State) : (advanceTail c s).ctxData = s.ctxData := rfl
@[simp] theorem State.advanceTail_ctxFullFlag (c : Config) (s : State) : (advanceTail c s).ctxFullFlag = s.ctxFullFlag := rfl
@[simp] theorem State.advanceTail_urxHead (c : Config) (s : State) : (advanceTail c s).urxHead = s.urxHead := rfl
@[simp] theorem State.advanceTail_urxTail (c : Config) (s : State) : (advanceTail c s).urxTail = advanceIndex c.nRx s.urxTail := rfl
@[simp] theorem State.advanceTail_urxMem (c : Config) (s : State) : (advanceTail c s).urxMem = s.urxMem := rfl
@[simp] theorem State.advanceTail_urxLen (c : Config) (s : State) : (advanceTail c s).urxLen = s.urxLen := rfl
@[simp] theorem State.advanceTail_urxArmed (c : Config) (s : State) : (advanceTail c s).urxArmed = s.urxArmed := rfl
@[simp] theorem State.advanceTail_urxScan (c : Config) (s : State) : (advanceTail c s).urxScan = false := rfl
@[simp] theorem State.advanceTail_urxPos (c : Config) (s : State) : (advanceTail c s).urxPos = s.urxPos := rfl
@[simp] theorem State.advanceTail_lineIdx (c : Config) (s : State) : (advanceTail c s).lineIdx = s.lineIdx := rfl
@[simp] theorem State.advanceTail_lineMem (c : Config) (s : State) : (advanceTail c s).lineMem = s.lineMem := rfl
@[simp] theorem State.advanceTail_utxBusy (c : Config) (s : State) : (advanceTail c s).utxBusy = s.utxBusy := rfl
@[simp] theorem State.advanceTail_utxLen (c : Config) (s : State) : (advanceTail c s).utxLen = s.utxLen := rfl
@[simp] theorem State.advanceTail_utxMem (c : Config) (s : State) : (advanceTail c s).utxMem = s.utxMem := rfl
@[simp] theorem State.advanceTail_busState (c : Config) (s : State) : (advanceTail c s).busState = s.busState := rfl
@[simp] theorem State.advanceTail_busPresc (c : Config) (s : State) : (advanceTail c s).busPresc = s.busPresc := rfl
@[simp] theorem State.advanceTail_busSilent (c : Config) (s : State) : (advanceTail c s).busSilent = s.busSilent := rfl
@[simp] theorem State.advanceTail_busArtx (c : Config) (s : State) : (advanceTail c s).busArtx = s.busArtx := rfl
@[simp] theorem State.advanceTail_evt (c : Config) (s : State) : (advanceTail c s).evt = s.evt := rfl
@[simp] theorem State.advanceTail_fgPhase (c : Config) (s : State) : (advanceTail c s).fgPhase = s.fgPhase := rfl
@[simp] theorem State.advanceTail_pos (c : Config) (s : State) : (advanceTail c s).pos = s.pos := rfl
@[simp] theorem State.advanceTail_inbox (c : Config) (s : State) : (advanceTail c s).inbox = s.inbox := rfl
@[simp] theorem State.advanceTail_answers (c : Config) (s : State) : (advanceTail c s).answers = s.answers := rfl
@[simp] theorem State.advanceTail_resets (c : Config) (s : State) : (advanceTail c s).resets = s.resets := rfl
@[simp] theorem State.advanceTail_log (c : Config) (s : State) : (advanceTail c s).log = s.log := rfl

/-! ### `dropLine` -/

@[simp] theorem State.dropLine_q (c : Config) (s : State) : (dropLine c s).q = s.q := rfl
@[simp] theorem State.dropLine_ctxHead (c : Config) (s : State) : (dropLine c s).ctxHead = s.ctxHead := rfl
@[simp] theorem State.dropLine_ctxTail (c : Config) (s : State) : (dropLine c s).ctxTail = s.ctxTail := rfl
@[simp] theorem State.dropLine_ctxHdr (c : Config) (s : State) : (dropLine c s).ctxHdr = s.ctxHdr := rfl
@[simp] theorem State.dropLine_ctxData (c : Config) (s : State) : (dropLine c s).ctxData = s.ctxData := rfl
@[simp] theorem State.dropLine_ctxFullFlag (c : Config) (s : State) : (dropLine c s).ctxFullFlag = s.ctxFullFlag := rfl
@[simp] theorem State.dropLine_urxHead (c : Config) (s : State) : (dropLine c s).urxHead = s.urxHead := rfl
@[simp] theorem State.dropLine_urxTail (c : Config) (s : State) : (dropLine c s).urxTail = s.urxTail := rfl
@[simp] theorem State.dropLine_urxMem (c : Config) (s : State) : (dropLine c s).urxMem = s.urxMem := rfl
@[simp] theorem State.dropLine_urxLen (c : Config) (s : State) : (dropLine c s).urxLen = s.urxLen := rfl
@[simp] theorem State.dropLine_urxArmed (c : Config) (s : State) : (dropLine c s).urxArmed = s.urxArmed := rfl
@[simp] theorem State.dropLine_urxScan (c : Config) (s : State) : (dropLine c s).urxScan = s.urxScan := rfl
@[simp] theorem State.dropLine_urxPos (c : Config) (s : State) : (dropLine c s).urxPos = s.urxPos := rfl
@[simp] theorem State.dropLine_lineIdx (c : Config) (s : State) : (dropLine c s).lineIdx = 0 := rfl
@[simp] theorem State.dropLine_lineMem (c : Config) (s : State) : (dropLine c s).lineMem = s.lineMem := rfl
@[simp] theorem State.dropLine_utxBusy (c : Config) (s : State) : (dropLine c s).utxBusy = s.utxBusy := rfl
@[simp] theorem State.dropLine_utxLen (c : Config) (s : State) : (dropLine c s).utxLen = s.utxLen := rfl
@[simp] theorem State.dropLine_utxMem (c : Config) (s : State) : (dropLine c s).utxMem = s.utxMem := rfl
@[simp] theorem State.dropLine_busState (c : Config) (s : State) : (dropLine c s).busState = s.busState := rfl
@[simp] theorem State.dropLine_busPresc (c : Config) (s : State) : (dropLine c s).busPresc = s.busPresc := rfl
@[simp] theorem State.dropLine_busSilent (c : Config) (s : State) : (dropLine c s).busSilent = s.busSilent := rfl
@[simp] theorem State.dropLine_busArtx (c : Config) (s : State) : (dropLine c s).busArtx = s.busArtx := rfl
@[simp] theorem State.dropLine_evt (c : Config) (s : State) : (dropLine c s).evt = s.evt.set .usbLineOverflow ((s.evt.get .usbLineOverflow + 1) % 2 ^ c.cntW) := rfl
@[simp] theorem State.dropLine_fgPhase (c : Config) (s : State) : (dropLine c s).fgPhase = s.fgPhase := rfl
@[simp] theorem State.dropLine_pos (c : Config) (s : State) : (dropLine c s).pos = s.pos := rfl
@[simp] theorem State.dropLine_inbox (c : Config) (s : State) : (dropLine c s).inbox = s.inbox := rfl
@[simp] theorem State.dropLine_answers (c : Config) (s : State) : (dropLine c s).answers = s.answers := rfl
@[simp] theorem State.dropLine_resets (c : Config) (s : State) : (dropLine c s).resets = s.resets := rfl
@[simp] theorem State.dropLine_log (c : Config) (s : State) : (dropLine c s).log = s.log := rfl

/-! ### The counter file -/

@[simp] theorem Counters.get_set_same (k : Counters) (e : Event) (v : Nat) : (k.set e v).get e = v := by
  cases e <;> rfl

theorem Counters.get_set_other (k : Counters) {e d : Event} (v : Nat) (h : d ≠ e) : (k.set e v).get d = k.get d := by
  cases e <;> cases d <;> first | rfl | exact absurd rfl h

theorem Counters.get_set (k : Counters) (e d : Event) (v : Nat) :
    (k.set e v).get d = if d = e then v else k.get d := by
  split
  · subst_vars; simp
  · exact Counters.get_set_other k v ‹_›

/-- Two counter files with equal counters are equal. -/
theorem Counters.ext_get {k l : Counters} (h : ∀ e, k.get e = l.get e) : k = l := by
  cases k; cases l
  have h0 := h .canQueueFull
  have h1 := h .canTxHardwareReject
  have h2 := h .canRxFifoOverflow
  have h3 := h .usbRxBufferFull
  have h4 := h .usbTxBusy
  have h5 := h .usbLineOverflow
  simp only [Counters.get] at h0 h1 h2 h3 h4 h5
  subst_vars
  rfl

end Sys2Proof.Machine
end

