-- ==== Sys2Proof/Laws/Ops.lean ====
section
/-! SUPPORT. For each shared operation, everything it can do: if it answers a state, one of the cases named here holds;
and, for those that check a range, when they answer one. -/

namespace Sys2Proof.Machine

theorem bind_eq_ok {ε α β : Type} {x : Except ε α} {f : α → Except ε β} {b : β} :
    (x >>= f) = .ok b ↔ ∃ a, x = .ok a ∧ f a = .ok b := by
  cases x <;> simp [bind, Except.bind]

@[simp] theorem bind_ok {ε α β : Type} (a : α) (f : α → Except ε β) : (Except.ok a >>= f) = f a := rfl
@[simp] theorem bind_error {ε α β : Type} (e : ε) (f : α → Except ε β) : (Except.error e >>= f) = .error e := rfl
@[simp] theorem pure_ok {ε α : Type} (a : α) : (pure a : Except ε α) = .ok a := rfl

/-! ### Ending a request -/

theorem finish_next {port : Port} {r : Except Fault (Result × State)} {t : State} (h : finish port r = .next t) :
    ∃ res s', r = .ok (res, s') ∧ t = s'.emit (.result port res) := by
  cases r with
  | error f => simp [finish] at h
  | ok v => exact ⟨v.1, v.2, rfl, by simpa [finish] using h.symm⟩

theorem proceed_next {α : Type} {f : α → Pos} {r : Except Fault (Option α × State)} {t : State}
    (h : proceed f r = .next t) :
    (∃ s', r = .ok (none, s') ∧ t = ({ s' with pos := .rest } : State).emit (.result .fgp .ok)) ∨
    ∃ l s', r = .ok (some l, s') ∧ t = { s' with pos := f l } := by
  cases r with
  | error e => simp [proceed] at h
  | ok v =>
    obtain ⟨l, s'⟩ := v
    cases l with
    | none => exact .inl ⟨s', rfl, by simpa [proceed] using h.symm⟩
    | some l => exact .inr ⟨l, s', rfl, by simpa [proceed] using h.symm⟩

/-- A micro-step that runs leads to a next state. -/
theorem proceed_runs {α : Type} (f : α → Pos) (l : Option α) (s : State) : ∃ t, proceed f (.ok (l, s)) = .next t := by
  cases l <;> exact ⟨_, rfl⟩

/-! ### Draws: only the answers, and for a submission the log, change -/

theorem drawMailboxes_cases (c : Config) (s : State) :
    ∃ m a, drawMailboxes c s = (m, { s with answers := a }) := by
  unfold drawMailboxes; split <;> exact ⟨_, _, rfl⟩

theorem drawAccept_cases (c : Config) (f : CanFrame) (s : State) :
    ∃ acc a, drawAccept c f s = (acc, { s with answers := a, log := .canSubmit f acc :: s.log }) := by
  unfold drawAccept; split <;> exact ⟨_, _, rfl⟩

theorem drawNonempty_cases (c : Config) (s : State) :
    ∃ b a, drawNonempty c s = (b, { s with answers := a }) := by
  unfold drawNonempty; split <;> exact ⟨_, _, rfl⟩

theorem drawPop_cases (c : Config) (s : State) :
    ∃ f a, drawPop c s = (f, { s with answers := a }) := by
  unfold drawPop; split <;> exact ⟨_, _, rfl⟩

/-! ### Family RB -/

/-- The state after a push that is not refused (spec/40_ringbuffer.md R122 lines 3 and 4). -/
def rbPushed (c : Config) (item : List Byte) (s : State) : State :=
  { s with q := { s.q with slot := s.q.slot.write s.q.head item, head := ringNext c.ringN s.q.head } }

theorem rbPush_full {c : Config} {s : State} (item : List Byte) (h : ringFull c.ringN s.q.head s.q.tail = true) :
    rbPush c item s = .ok (.full, s) := by simp [rbPush, h]

theorem rbPush_ok {c : Config} {s : State} (item : List Byte) (h : ringFull c.ringN s.q.head s.q.tail = false)
    (hr : s.q.head < c.ringN) : rbPush c item s = .ok (.ok, rbPushed c item s) := by
  simp [rbPush, h, checkRange_ok (show s.q.head + 1 ≤ c.ringN from hr), rbPushed]

theorem rbPush_cases {c : Config} {item : List Byte} {s t : State} {r : Result} (h : rbPush c item s = .ok (r, t)) :
    (ringFull c.ringN s.q.head s.q.tail = true ∧ r = .full ∧ t = s) ∨
    (ringFull c.ringN s.q.head s.q.tail = false ∧ s.q.head < c.ringN ∧ r = .ok ∧ t = rbPushed c item s) := by
  cases hf : ringFull c.ringN s.q.head s.q.tail with
  | true =>
    rw [rbPush_full item hf] at h; simp only [Except.ok.injEq, Prod.mk.injEq] at h
    exact .inl ⟨rfl, h.1.symm, h.2.symm⟩
  | false =>
    simp only [rbPush, hf, Bool.false_eq_true, if_false, bind_eq_ok, checkRange_eq_ok, pure_ok, Except.ok.injEq,
      Prod.mk.injEq] at h
    obtain ⟨_, h1, h2, h3⟩ := h
    exact .inr ⟨rfl, h1, h2.symm, by simpa [rbPushed] using h3.symm⟩

/-- RB.ADV (spec/40_ringbuffer.md R126 line 2). -/
theorem rbAdvance_eq (c : Config) (s : State) :
    rbAdvance c s = { s with q := { s.q with tail := ringNext c.ringN s.q.tail } } := by simp [rbAdvance]

theorem rbTailItem_ok {c : Config} {s : State} (hr : s.q.tail < c.ringN) :
    rbTailItem c s = .ok (s.q.slot.readOr (c.freeItem s.resets) s.q.tail) := by
  simp [rbTailItem, checkRange_ok (show s.q.tail + 1 ≤ c.ringN from hr)]

theorem rbTailItem_eq_ok {c : Config} {s : State} {v : List Byte} (h : rbTailItem c s = .ok v) :
    s.q.tail < c.ringN ∧ v = s.q.slot.readOr (c.freeItem s.resets) s.q.tail := by
  simp only [rbTailItem, bind_eq_ok, checkRange_eq_ok, pure_ok, Except.ok.injEq] at h
  obtain ⟨_, h1, h2⟩ := h
  exact ⟨h1, h2.symm⟩

theorem rbPeek_cases {c : Config} {s t : State} {r : Result} (h : rbPeek c s = .ok (r, t)) :
    s.q.tail < c.ringN ∧ r = .okItem (s.q.slot.readOr (c.freeItem s.resets) s.q.tail) ∧ t = s := by
  simp only [rbPeek, bind_eq_ok, pure_ok, Except.ok.injEq, Prod.mk.injEq] at h
  obtain ⟨v, h1, h2, h3⟩ := h
  obtain ⟨h4, h5⟩ := rbTailItem_eq_ok h1
  exact ⟨h4, by rw [← h2, h5], h3.symm⟩

theorem rbPop_cases {c : Config} {s t : State} {r : Result} (h : rbPop c s = .ok (r, t)) :
    (ringEmpty s.q.head s.q.tail = true ∧ r = .empty ∧ t = s) ∨
    (ringEmpty s.q.head s.q.tail = false ∧ s.q.tail < c.ringN ∧
      r = .okItem (s.q.slot.readOr (c.freeItem s.resets) s.q.tail) ∧ t = rbAdvance c s) := by
  cases he : ringEmpty s.q.head s.q.tail with
  | true =>
    simp only [rbPop, he, if_true, Except.ok.injEq, Prod.mk.injEq] at h
    exact .inl ⟨rfl, h.1.symm, h.2.symm⟩
  | false =>
    simp only [rbPop, he, Bool.false_eq_true, if_false, bind_eq_ok, pure_ok, Except.ok.injEq, Prod.mk.injEq] at h
    obtain ⟨v, h1, h2, h3⟩ := h
    obtain ⟨h4, h5⟩ := rbTailItem_eq_ok h1
    exact .inr ⟨rfl, h4, by rw [← h2, h5], h3.symm⟩

/-! ### Family CTX -/

/-- The state after an enqueue that is not refused (spec/41_cantx.md R141 lines 4 to 6). -/
def ctxEnqueued (f : CanFrame) (s : State) : State :=
  { s with
    ctxHdr := s.ctxHdr.write s.ctxHead f.header
    ctxData := s.ctxData.writeAll (ctxAddr s.ctxHead) f.data
    ctxHead := ringNext nTx s.ctxHead }

theorem ctxEnq_full {c : Config} {s : State} (f : CanFrame) (h : ringFull nTx s.ctxHead s.ctxTail = true) :
    ctxEnq c f s = .ok (.full, s.raise c .canQueueFull) := by simp [ctxEnq, h]

theorem ctxEnq_ok {c : Config} {s : State} {f : CanFrame} (h : ringFull nTx s.ctxHead s.ctxTail = false)
    (hr : s.ctxHead < nTx) (hd : f.data.length ≤ 8) : ctxEnq c f s = .ok (.ok, ctxEnqueued f s) := by
  simp [ctxEnq, h, storeFrame, checkRange_ok (show s.ctxHead + 1 ≤ nTx from hr),
    checkRange_ok (show 0 + f.data.length ≤ 8 by omega), ctxEnqueued]

theorem ctxEnq_cases {c : Config} {f : CanFrame} {s t : State} {r : Result} (h : ctxEnq c f s = .ok (r, t)) :
    (ringFull nTx s.ctxHead s.ctxTail = true ∧ r = .full ∧ t = s.raise c .canQueueFull) ∨
    (ringFull nTx s.ctxHead s.ctxTail = false ∧ s.ctxHead < nTx ∧ f.data.length ≤ 8 ∧ r = .ok ∧ t = ctxEnqueued f s) := by
  cases hf : ringFull nTx s.ctxHead s.ctxTail with
  | true =>
    rw [ctxEnq_full f hf] at h; simp only [Except.ok.injEq, Prod.mk.injEq] at h
    exact .inl ⟨rfl, h.1.symm, h.2.symm⟩
  | false =>
    simp only [ctxEnq, hf, Bool.false_eq_true, if_false, storeFrame, bind_eq_ok, checkRange_eq_ok, pure_ok,
      Except.ok.injEq, Prod.mk.injEq] at h
    obtain ⟨s1, ⟨_, h1, _, h2, h3⟩, h4, h5⟩ := h
    subst h3
    exact .inr ⟨rfl, h1, by omega, h4.symm, by simpa [ctxEnqueued] using h5.symm⟩

theorem slotView_ok {c : Config} {s : State} {t : Nat} (h : t < nTx) : slotView c t s = .ok (slotFrame c t s) := by
  simp [slotView, checkRange_ok (show t + 1 ≤ nTx from h)]

theorem slotView_eq_ok {c : Config} {s : State} {t : Nat} {f : CanFrame} (h : slotView c t s = .ok f) :
    t < nTx ∧ f = slotFrame c t s := by
  simp only [slotView, bind_eq_ok, checkRange_eq_ok, pure_ok, Except.ok.injEq] at h
  obtain ⟨_, h1, h2⟩ := h
  exact ⟨h1, h2.symm⟩

/-- The state after a submission whose answer is `acc`, `a` being the answers that remain. -/
def ctxSubmitted (c : Config) (acc : Bool) (a : Answers) (s : State) : State :=
  let s1 := { s with
    answers := a
    log := .canSubmit (slotFrame c s.ctxTail s) acc :: s.log
    ctxTail := ringNext nTx s.ctxTail }
  if acc then s1 else s1.raise c .canTxHardwareReject

theorem submitTail_cases {c : Config} {s t : State} (h : submitTail c s = .ok t) :
    s.ctxTail < nTx ∧ ∃ acc a, (drawAccept c (slotFrame c s.ctxTail s) s).1 = acc ∧ t = ctxSubmitted c acc a s := by
  simp only [submitTail, bind_eq_ok, pure_ok, Except.ok.injEq] at h
  obtain ⟨f, h1, h2⟩ := h
  obtain ⟨h3, rfl⟩ := slotView_eq_ok h1
  obtain ⟨acc, a, h4⟩ := drawAccept_cases c (slotFrame c s.ctxTail s) s
  rw [h4] at h2
  exact ⟨h3, acc, a, by rw [h4], by simpa [ctxSubmitted] using h2.symm⟩

theorem submitTail_ok {c : Config} {s : State} (h : s.ctxTail < nTx) : ∃ t, submitTail c s = .ok t := by
  simp [submitTail, slotView_ok h]

theorem ctxProc_cases {c : Config} {s t : State} {r : Result} (h : ctxProc c s = .ok (r, t)) :
    r = .ok ∧
    ((ringEmpty s.ctxHead s.ctxTail = true ∧ t = s) ∨
     (ringEmpty s.ctxHead s.ctxTail = false ∧ (drawMailboxes c s).1 = 0 ∧ t = (drawMailboxes c s).2) ∨
     (ringEmpty s.ctxHead s.ctxTail = false ∧ (drawMailboxes c s).1 ≠ 0 ∧ s.ctxTail < nTx ∧
       ∃ acc a, t = ctxSubmitted c acc a s)) := by
  unfold ctxProc at h
  split at h
  · simp only [Except.ok.injEq, Prod.mk.injEq] at h
    exact ⟨h.1.symm, .inl ⟨‹_›, h.2.symm⟩⟩
  · rename_i he
    simp only [Bool.not_eq_true] at he
    split at h
    · rename_i s1 hm
      simp only [Except.ok.injEq, Prod.mk.injEq] at h
      exact ⟨h.1.symm, .inr (.inl ⟨he, by rw [hm], by rw [hm]; exact h.2.symm⟩)⟩
    · rename_i k s1 hm
      simp only [bind_eq_ok, pure_ok, Except.ok.injEq, Prod.mk.injEq] at h
      obtain ⟨s2, h1, h2, h3⟩ := h
      subst h3
      obtain ⟨m, a0, hd⟩ := drawMailboxes_cases c s
      rw [hd] at hm
      simp only [Prod.mk.injEq] at hm
      obtain ⟨hm1, rfl⟩ := hm
      obtain ⟨h4, acc, a, _, h5⟩ := submitTail_cases h1
      exact ⟨h2.symm, .inr (.inr ⟨he, by rw [hd]; simp [hm1], h4, acc, a, h5⟩)⟩

theorem ctxProc_ok {c : Config} {s : State} (h : s.ctxTail < nTx) : ∃ r t, ctxProc c s = .ok (r, t) := by
  unfold ctxProc
  split
  · exact ⟨_, _, rfl⟩
  · split
    · exact ⟨_, _, rfl⟩
    · rename_i k s1 hm
      obtain ⟨m, a0, hd⟩ := drawMailboxes_cases c s
      rw [hd] at hm
      simp only [Prod.mk.injEq] at hm
      obtain ⟨_, rfl⟩ := hm
      obtain ⟨t, ht⟩ := submitTail_ok (c := c) (s := { s with answers := a0 }) h
      exact ⟨.ok, t, by simp [ht]⟩

/-! ### Family CRX -/

theorem crxPend_cases (c : Config) (s : State) :
    (s.busState = .off ∧ crxPend c s = (false, s)) ∨
    (s.busState = .on ∧ crxPend c s = drawNonempty c s) := by
  unfold crxPend; split <;> simp_all

theorem crxPend_state (c : Config) (s : State) : ∃ b a, crxPend c s = (b, { s with answers := a }) := by
  rcases crxPend_cases c s with ⟨_, h⟩ | ⟨_, h⟩
  · exact ⟨_, s.answers, h⟩
  · rw [h]; exact drawNonempty_cases c s

theorem crxRecv_cases (c : Config) (s : State) :
    ∃ f a, drawPop c s = (f, { s with answers := a }) ∧
      crxRecv c s = ((match f with | some f => .okFrame f.val | none => .hwError), { s with answers := a }) := by
  obtain ⟨f, a, h⟩ := drawPop_cases c s
  refine ⟨f, a, h, ?_⟩
  unfold crxRecv
  cases f <;> simp [h]

/-! ### Family UTX -/

/-- The state after a transmission that started (spec/45_usbtx.md R216 lines 4 to 6). -/
def utxStarted (bytes : List Byte) (s : State) : State :=
  { s with
    utxMem := s.utxMem.writeAll 0 bytes
    utxLen := bytes.length
    utxBusy := true
    log := .usbStartTx bytes :: s.log }

theorem utxSend_cases (c : Config) (bytes : List Byte) (s : State) :
    (s.utxBusy = true ∧ utxSend c bytes s = (.busy, s.raise c .usbTxBusy)) ∨
    (s.utxBusy = false ∧ c.txBuf < bytes.length ∧ utxSend c bytes s = (.tooLong, s)) ∨
    (s.utxBusy = false ∧ bytes.length ≤ c.txBuf ∧ utxSend c bytes s = (.ok, utxStarted bytes s)) := by
  cases hb : s.utxBusy with
  | true => exact .inl ⟨rfl, by simp [utxSend, hb]⟩
  | false =>
    by_cases hl : c.txBuf < bytes.length
    · exact .inr (.inl ⟨rfl, hl, by simp [utxSend, hb, hl]⟩)
    · exact .inr (.inr ⟨rfl, by omega,
        by simp [utxSend, hb, hl, utxStarted, State.emit, inWidth_clog2 (show bytes.length < c.txBuf + 1 by omega)]⟩)

/-! ### Family URX -/

/-- The state after the endpoint wrote a chunk into a slot (spec/44_usbrx.md R192 line 1). -/
def chunkWritten (c : Config) (slot : Nat) (bytes : List Byte) (s : State) : State :=
  { s with urxMem := s.urxMem.writeAll (urxAddr c slot 0) bytes }

/-- The state after a chunk met a full ring (R192 lines 4 and 5). -/
def chunkLost (c : Config) (slot : Nat) (bytes : List Byte) (s : State) : State :=
  usbArm s.urxHead ((chunkWritten c slot bytes s).raise c .usbRxBufferFull)

/-- The state after a captured chunk (R192 lines 7 to 9). -/
def chunkCaptured (c : Config) (slot : Nat) (bytes : List Byte) (s : State) : State :=
  usbArm (ringNext c.nRx s.urxHead)
    { chunkWritten c slot bytes s with
      urxLen := s.urxLen.write s.urxHead bytes.length
      urxHead := ringNext c.nRx s.urxHead }

theorem urxChunk_cases {c : Config} {a : Nat} {bytes : List Byte} {s t : State} {r : Result}
    (h : urxChunk c a bytes s = .ok (r, t)) :
    a < c.nRx ∧ bytes.length ≤ c.app ∧ r = .ok ∧
    ((ringFull c.nRx s.urxHead s.urxTail = true ∧ t = chunkLost c a bytes s) ∨
     (ringFull c.nRx s.urxHead s.urxTail = false ∧ s.urxHead < c.nRx ∧ t = chunkCaptured c a bytes s)) := by
  simp only [urxChunk, writeChunk, bind_eq_ok, checkRange_eq_ok, pure_ok, Except.ok.injEq] at h
  obtain ⟨s1, ⟨_, h1, _, h2, h3⟩, h4⟩ := h
  subst h3
  refine ⟨h1, by omega, ?_⟩
  split at h4
  · rename_i hf
    simp only [Except.ok.injEq, Prod.mk.injEq] at h4
    exact ⟨h4.1.symm, .inl ⟨hf, h4.2.symm⟩⟩
  · rename_i hf
    simp only [captureChunk, bind_eq_ok, checkRange_eq_ok, pure_ok, Except.ok.injEq, Prod.mk.injEq] at h4
    obtain ⟨s2, ⟨_, h5, h6⟩, h7, h8⟩ := h4
    subst h6
    exact ⟨h7.symm, .inr ⟨by simpa using hf, h5, by simpa [chunkCaptured, chunkWritten] using h8.symm⟩⟩

theorem urxChunk_lost {c : Config} {a : Nat} {bytes : List Byte} {s : State} (ha : a < c.nRx)
    (hb : bytes.length ≤ c.app) (hf : ringFull c.nRx s.urxHead s.urxTail = true) :
    urxChunk c a bytes s = .ok (.ok, chunkLost c a bytes s) := by
  simp [urxChunk, writeChunk, checkRange_ok (show a + 1 ≤ c.nRx from ha),
    checkRange_ok (show 0 + bytes.length ≤ c.app by omega), hf, chunkLost, chunkWritten]

theorem urxChunk_captured {c : Config} {a : Nat} {bytes : List Byte} {s : State} (ha : a < c.nRx)
    (hb : bytes.length ≤ c.app) (hf : ringFull c.nRx s.urxHead s.urxTail = false) (hh : s.urxHead < c.nRx) :
    urxChunk c a bytes s = .ok (.ok, chunkCaptured c a bytes s) := by
  simp [urxChunk, writeChunk, checkRange_ok (show a + 1 ≤ c.nRx from ha),
    checkRange_ok (show 0 + bytes.length ≤ c.app by omega), hf, captureChunk,
    checkRange_ok (show s.urxHead + 1 ≤ c.nRx from hh), chunkCaptured, chunkWritten]

theorem lineBytes_ok {c : Config} {s : State} (h : s.lineIdx ≤ c.mtu) : lineBytes c s = .ok (lineOf c s) := by
  simp [lineBytes, checkRange_ok (show 0 + s.lineIdx ≤ c.mtu by omega)]

theorem lineBytes_eq_ok {c : Config} {s : State} {l : List Byte} (h : lineBytes c s = .ok l) :
    s.lineIdx ≤ c.mtu ∧ l = lineOf c s := by
  simp only [lineBytes, bind_eq_ok, checkRange_eq_ok, pure_ok, Except.ok.injEq] at h
  obtain ⟨_, h1, h2⟩ := h
  exact ⟨by omega, h2.symm⟩

/-- The state after an appended byte (spec/44_usbrx.md R202). -/
def byteAppended (b : Byte) (s : State) : State :=
  { s with lineMem := s.lineMem.write s.lineIdx b, lineIdx := s.lineIdx + 1 }

theorem appendByte_ok {c : Config} {b : Byte} {s : State} (h : s.lineIdx < c.mtu) :
    appendByte c b s = .ok (byteAppended b s) := by
  simp [appendByte, checkRange_ok (show s.lineIdx + 1 ≤ c.mtu from h), byteAppended,
    inWidth_clog2 (show s.lineIdx + 1 < c.mtu + 1 by omega)]

theorem appendByte_eq_ok {c : Config} {b : Byte} {s t : State} (h : appendByte c b s = .ok t) :
    s.lineIdx < c.mtu ∧ t = byteAppended b s := by
  simp only [appendByte, bind_eq_ok, checkRange_eq_ok] at h
  obtain ⟨_, h1, h2⟩ := h
  have h3 := appendByte_ok (b := b) (show s.lineIdx < c.mtu from h1)
  simp only [appendByte, checkRange_ok h1, bind_ok, h2, Except.ok.injEq] at h3
  exact ⟨h1, h3⟩

theorem tailLen_ok {c : Config} {s : State} (h : s.urxTail < c.nRx) : tailLen c s = .ok (tailLenOf c s) := by
  simp [tailLen, checkRange_ok (show s.urxTail + 1 ≤ c.nRx from h)]

theorem tailLen_eq_ok {c : Config} {s : State} {n : Nat} (h : tailLen c s = .ok n) :
    s.urxTail < c.nRx ∧ n = tailLenOf c s := by
  simp only [tailLen, bind_eq_ok, checkRange_eq_ok, pure_ok, Except.ok.injEq] at h
  obtain ⟨_, h1, h2⟩ := h
  exact ⟨h1, h2.symm⟩

theorem tailByte_ok {c : Config} {s : State} (h : s.urxTail < c.nRx) (hp : s.urxPos < c.app) :
    tailByte c s = .ok (tailByteOf c s) := by
  simp [tailByte, checkRange_ok (show s.urxTail + 1 ≤ c.nRx from h),
    checkRange_ok (show s.urxPos + 1 ≤ c.app from hp)]

theorem tailByte_eq_ok {c : Config} {s : State} {b : Byte} (h : tailByte c s = .ok b) :
    s.urxTail < c.nRx ∧ s.urxPos < c.app ∧ b = tailByteOf c s := by
  simp only [tailByte, bind_eq_ok, checkRange_eq_ok, pure_ok, Except.ok.injEq] at h
  obtain ⟨_, h1, _, h2, h3⟩ := h
  exact ⟨h1, h2, h3.symm⟩

/-- The advance of the tail (spec/44_usbrx.md R203). -/
theorem advanceTail_eq (c : Config) (s : State) :
    advanceTail c s = { s with urxTail := ringNext c.nRx s.urxTail, urxScan := false } := by simp [advanceTail]

theorem drainBegin_cases (s : State) :
    (ringEmpty s.urxHead s.urxTail = true ∧ drainBegin s = (none, s)) ∨
    (ringEmpty s.urxHead s.urxTail = false ∧ drainBegin s = (some .test, { s with urxScan := true, urxPos := 0 })) := by
  unfold drainBegin
  cases h : ringEmpty s.urxHead s.urxTail with
  | true => exact .inl ⟨rfl, if_pos rfl⟩
  | false => exact .inr ⟨rfl, by simp⟩

/-- Everything a line of URX.DRAIN can do (spec/44_usbrx.md R198 lines 3 to 13). -/
theorem drainLine_cases {c : Config} {l : DrainLine} {s t : State} {d : Option DrainLine}
    (h : drainLine c l s = .ok (d, t)) :
    match l with
    | .test => s.urxTail < c.nRx ∧ d = some (if s.urxPos < tailLenOf c s then .read else .advance) ∧ t = s
    | .read => s.urxTail < c.nRx ∧ s.urxPos < c.app ∧ d = some (.branch (tailByteOf c s)) ∧ t = s
    | .branch b =>
      (b = term ∧ d = some .parse ∨ b ≠ term ∧ s.lineIdx = c.mtu ∧ d = some .overflow ∨
        b ≠ term ∧ s.lineIdx ≠ c.mtu ∧ d = some (.append b)) ∧ t = s
    | .parse => s.lineIdx ≤ c.mtu ∧ d = some (afterParse (c.parse (lineOf c s)).1 (c.parse (lineOf c s)).2) ∧
        t = s.emit (.parse (lineOf c s))
    | .run cmd rest ok => runCmd c cmd s = .ok t ∧ d = some (afterParse rest ok)
    | .reply ok => d = some .clear ∧ t = (utxSend c [if ok then ack else nak] s).2
    | .clear => d = some .next ∧ t = { s with lineIdx := 0 }
    | .overflow => d = some .next ∧ t = dropLine c s
    | .append b => s.lineIdx < c.mtu ∧ d = some .next ∧ t = byteAppended b s
    | .next => d = some .test ∧ t = { s with urxPos := s.urxPos + 1 }
    | .advance => d = some .ret ∧ t = advanceTail c s
    | .ret => d = none ∧ t = s := by
  cases l with
  | test =>
    simp only [drainLine, bind_eq_ok, pure_ok, Except.ok.injEq, Prod.mk.injEq] at h
    obtain ⟨n, h1, h2, h3⟩ := h
    obtain ⟨h4, rfl⟩ := tailLen_eq_ok h1
    exact ⟨h4, h2.symm, h3.symm⟩
  | read =>
    simp only [drainLine, bind_eq_ok, pure_ok, Except.ok.injEq, Prod.mk.injEq] at h
    obtain ⟨n, h1, h2, h3⟩ := h
    obtain ⟨h4, h5, rfl⟩ := tailByte_eq_ok h1
    exact ⟨h4, h5, h2.symm, h3.symm⟩
  | branch b =>
    simp only [drainLine, Except.ok.injEq, Prod.mk.injEq] at h
    refine ⟨?_, h.2.symm⟩
    by_cases hb : b = term
    · exact .inl ⟨hb, by rw [← h.1]; simp [hb]⟩
    · by_cases hi : s.lineIdx = c.mtu
      · exact .inr (.inl ⟨hb, hi, by rw [← h.1]; simp [hb, hi]⟩)
      · exact .inr (.inr ⟨hb, hi, by rw [← h.1]; simp [hb, hi]⟩)
  | parse =>
    simp only [drainLine, bind_eq_ok, pure_ok, Except.ok.injEq, Prod.mk.injEq] at h
    obtain ⟨n, h1, h2, h3⟩ := h
    obtain ⟨h4, rfl⟩ := lineBytes_eq_ok h1
    exact ⟨h4, h2.symm, h3.symm⟩
  | run cmd rest ok =>
    simp only [drainLine, bind_eq_ok, pure_ok, Except.ok.injEq, Prod.mk.injEq] at h
    obtain ⟨s1, h1, h2, h3⟩ := h
    subst h3
    exact ⟨h1, h2.symm⟩
  | append b =>
    simp only [drainLine, bind_eq_ok, pure_ok, Except.ok.injEq, Prod.mk.injEq] at h
    obtain ⟨s1, h1, h2, h3⟩ := h
    obtain ⟨h4, rfl⟩ := appendByte_eq_ok h1
    exact ⟨h4, h2.symm, h3.symm⟩
  | reply ok => simpa [drainLine, eq_comm] using h
  | clear => simpa [drainLine, eq_comm] using h
  | overflow => simpa [drainLine, eq_comm] using h
  | next => simpa [drainLine, eq_comm] using h
  | advance => simpa [drainLine, eq_comm] using h
  | ret => simpa [drainLine, eq_comm] using h

/-- Everything a micro-step of URX.DRAIN can do. -/
theorem execUrxDrain_next {s t : State} (h : execUrxDrain s = .next t) :
    ∃ d s', (s.pos = .rest ∧ drainBegin s = (d, s') ∨
        ∃ l, s.pos = .drain l ∧ drainLine Config.impl l s = .ok (d, s')) ∧
      ((d = none ∧ t = ({ s' with pos := .rest } : State).emit (.result .fgp .ok)) ∨
        ∃ l, d = some l ∧ t = { s' with pos := .drain l }) := by
  unfold execUrxDrain at h
  split at h
  · rename_i hp
    rcases proceed_next h with ⟨s', h1, h2⟩ | ⟨l, s', h1, h2⟩
    · exact ⟨none, s', .inl ⟨hp, Except.ok.inj h1⟩, .inl ⟨rfl, h2⟩⟩
    · exact ⟨some l, s', .inl ⟨hp, Except.ok.inj h1⟩, .inr ⟨l, rfl, h2⟩⟩
  · rename_i l hp
    rcases proceed_next h with ⟨s', h1, h2⟩ | ⟨l', s', h1, h2⟩
    · exact ⟨none, s', .inr ⟨l, hp, h1⟩, .inl ⟨rfl, h2⟩⟩
    · exact ⟨some l', s', .inr ⟨l, hp, h1⟩, .inr ⟨l', rfl, h2⟩⟩
  · cases h

/-! ### Family LOOP -/

/-- Everything the first line of an iteration can do (spec/46_loop.md R231 line 1). -/
theorem loopBegin_cases {c : Config} {s t : State} {d : Option LoopLine} (h : loopBegin c s = .ok (d, t)) :
    d = some .toCanRx ∧ ctxProc c s = .ok (.ok, t) := by
  simp only [loopBegin, bind_eq_ok, pure_ok, Except.ok.injEq, Prod.mk.injEq] at h
  obtain ⟨⟨r, s1⟩, h1, h2, h3⟩ := h
  subst h3
  obtain ⟨rfl, _⟩ := ctxProc_cases h1
  exact ⟨h2.symm, h1⟩

/-- Everything a line of LOOP.ITER can do (spec/46_loop.md R231 lines 2 to 12). -/
theorem loopLine_cases {c : Config} {l : LoopLine} {s t : State} {d : Option LoopLine}
    (h : loopLine c l s = .ok (d, t)) :
    match l with
    | .toCanRx => d = some .pend ∧ t = { s with fgPhase := .pCanRx }
    | .pend => d = some (.pended (crxPend c s).1) ∧ t = (crxPend c s).2
    | .pended p => d = some (if p then .recv else .toUsbRx) ∧ t = s
    | .recv => d = some (.received (crxRecv c s).1) ∧ t = (crxRecv c s).2
    | .received r => ((∃ f, r = .okFrame f ∧ d = some (.format f)) ∨ d = some .toUsbRx) ∧ t = s
    | .format f => d = some (.send (c.format f)) ∧ t = s.emit (.format f)
    | .send bytes => d = some .toUsbRx ∧ t = (utxSend c bytes s).2
    | .toUsbRx => d = some (.drain none) ∧ t = { s with fgPhase := .pUsbRx }
    | .drain none => d = some (afterDrain (drainBegin s).1) ∧ t = (drainBegin s).2
    | .drain (some x) => ∃ d', drainLine c x s = .ok (d', t) ∧ d = some (afterDrain d')
    | .toTx => d = some .ret ∧ t = { s with fgPhase := .pTx }
    | .ret => d = none ∧ t = s := by
  cases l with
  | drain x =>
    cases x with
    | none => simpa [loopLine, eq_comm] using h
    | some x =>
      simp only [loopLine, bind_eq_ok, pure_ok, Except.ok.injEq, Prod.mk.injEq] at h
      obtain ⟨⟨d', s1⟩, h1, h2, h3⟩ := h
      subst h3
      exact ⟨d', h1, h2.symm⟩
  | received r =>
    cases r with
    | okFrame f =>
      simp only [loopLine, Except.ok.injEq, Prod.mk.injEq] at h
      exact ⟨.inl ⟨f, rfl, h.1.symm⟩, h.2.symm⟩
    | _ =>
      simp only [loopLine, Except.ok.injEq, Prod.mk.injEq] at h
      exact ⟨.inr h.1.symm, h.2.symm⟩
  | toCanRx => simpa [loopLine, eq_comm] using h
  | pend => simpa [loopLine, eq_comm] using h
  | pended p => simpa [loopLine, eq_comm] using h
  | recv => simpa [loopLine, eq_comm] using h
  | format f => simpa [loopLine, eq_comm] using h
  | send bytes => simpa [loopLine, eq_comm] using h
  | toUsbRx => simpa [loopLine, eq_comm] using h
  | toTx => simpa [loopLine, eq_comm] using h
  | ret => simpa [loopLine, eq_comm] using h

/-- Everything a micro-step of LOOP.ITER can do. -/
theorem execLoopIter_next {s t : State} (h : execLoopIter s = .next t) :
    ∃ d s', (s.pos = .rest ∧ loopBegin Config.impl s = .ok (d, s') ∨
        ∃ l, s.pos = .loop l ∧ loopLine Config.impl l s = .ok (d, s')) ∧
      ((d = none ∧ t = ({ s' with pos := .rest } : State).emit (.result .fgp .ok)) ∨
        ∃ l, d = some l ∧ t = { s' with pos := .loop l }) := by
  unfold execLoopIter at h
  split at h
  · rename_i hp
    rcases proceed_next h with ⟨s', h1, h2⟩ | ⟨l, s', h1, h2⟩
    · exact ⟨none, s', .inl ⟨hp, h1⟩, .inl ⟨rfl, h2⟩⟩
    · exact ⟨some l, s', .inl ⟨hp, h1⟩, .inr ⟨l, rfl, h2⟩⟩
  · rename_i l hp
    rcases proceed_next h with ⟨s', h1, h2⟩ | ⟨l', s', h1, h2⟩
    · exact ⟨none, s', .inr ⟨l, hp, h1⟩, .inl ⟨rfl, h2⟩⟩
    · exact ⟨some l', s', .inr ⟨l, hp, h1⟩, .inr ⟨l', rfl, h2⟩⟩
  · cases h

end Sys2Proof.Machine
end

