-- ==== Sys2Proof/Laws/Frame.lean ====
section
/-! SUPPORT. What each operation of the foreground leaves alone: the state after it is the state before it but for the
fields named (spec/20_memory.md R70, R79; spec/60_exceptions.md R245). -/

namespace Sys2Proof.Machine

variable {c : Config}

/-- A frame enters the transmit queue or is lost: the queue's producer side and one counter. -/
theorem ctxEnq_frame {f : CanFrame} {s t : State} {r : Result} (h : ctxEnq c f s = .ok (r, t)) :
    t = { s with
      ctxHead := t.ctxHead, ctxHdr := t.ctxHdr, ctxData := t.ctxData
      evt := { s.evt with canQueueFull := t.evt.canQueueFull } } := by
  rcases ctxEnq_cases h with ⟨_, _, rfl⟩ | ⟨_, _, _, _, rfl⟩ <;> rfl

/-- A frame leaves the transmit queue or stays: the queue's consumer side, one counter, the answers and the log. -/
theorem ctxProc_frame {s t : State} {r : Result} (h : ctxProc c s = .ok (r, t)) :
    t = { s with
      ctxTail := t.ctxTail, answers := t.answers, log := t.log
      evt := { s.evt with canTxHardwareReject := t.evt.canTxHardwareReject } } := by
  obtain ⟨_, ⟨_, rfl⟩ | ⟨_, _, rfl⟩ | ⟨_, _, _, acc, a, rfl⟩⟩ := ctxProc_cases h
  · rfl
  · obtain ⟨m, a, hd⟩ := drawMailboxes_cases c s
    rw [hd]
  · cases acc <;> rfl

/-- The gate is offered bytes: the gate, one counter and the log. -/
theorem utxSend_frame (c : Config) (bytes : List Byte) (s : State) :
    (utxSend c bytes s).2 = { s with
      utxBusy := (utxSend c bytes s).2.utxBusy, utxLen := (utxSend c bytes s).2.utxLen
      utxMem := (utxSend c bytes s).2.utxMem, log := (utxSend c bytes s).2.log
      evt := { s.evt with usbTxBusy := (utxSend c bytes s).2.evt.usbTxBusy } } := by
  rcases utxSend_cases c bytes s with ⟨_, e⟩ | ⟨_, _, e⟩ | ⟨_, _, e⟩ <;> rw [e] <;> rfl

/-- A busy gate stays as it is (spec/45_usbtx.md R218). -/
theorem utxSend_busy {bytes : List Byte} {s : State} (h : s.utxBusy = true) :
    utxSend c bytes s = (.busy, s.raise c .usbTxBusy) := by
  rcases utxSend_cases c bytes s with ⟨_, e⟩ | ⟨h', _⟩ | ⟨h', _⟩
  · exact e
  · simp [h] at h'
  · simp [h] at h'

/-- An operation of the parser: the queue's producer side, the bus controller, one counter and the log. -/
theorem runCmd_frame {cmd : Cmd} {s t : State} (h : runCmd c cmd s = .ok t) :
    t = { s with
      ctxHead := t.ctxHead, ctxHdr := t.ctxHdr, ctxData := t.ctxData
      busState := t.busState, busPresc := t.busPresc, busSilent := t.busSilent, busArtx := t.busArtx
      log := t.log, evt := { s.evt with canQueueFull := t.evt.canQueueFull } } := by
  cases cmd with
  | enq f =>
    simp only [runCmd, bind_eq_ok, pure_ok, Except.ok.injEq] at h
    obtain ⟨⟨r, s1⟩, h1, rfl⟩ := h
    rcases ctxEnq_cases h1 with ⟨_, _, rfl⟩ | ⟨_, _, _, _, rfl⟩ <;> rfl
  | en => simp only [runCmd, Except.ok.injEq] at h; subst h; unfold busEn; split <;> rfl
  | dis => simp only [runCmd, Except.ok.injEq] at h; subst h; unfold busDis; split <;> rfl
  | rate r => simp only [runCmd, Except.ok.injEq] at h; subst h; unfold busRate; split <;> rfl
  | silent b => simp only [runCmd, Except.ok.injEq] at h; subst h; unfold busSilent; split <;> rfl
  | artx a => simp only [runCmd, Except.ok.injEq] at h; subst h; unfold busArtx; split <;> rfl

theorem drainBegin_frame (s : State) :
    (drainBegin s).2 = { s with urxScan := (drainBegin s).2.urxScan, urxPos := (drainBegin s).2.urxPos } := by
  rcases drainBegin_cases s with ⟨_, e⟩ | ⟨_, e⟩ <;> rw [e]

/-- A line of URX.DRAIN: what the parser's operations touch, the gate, the line, the ring's tail, the scan position, three
counters and the log. -/
theorem drainLine_frame {l : DrainLine} {s t : State} {d : Option DrainLine} (h : drainLine c l s = .ok (d, t)) :
    t = { s with
      ctxHead := t.ctxHead, ctxHdr := t.ctxHdr, ctxData := t.ctxData
      busState := t.busState, busPresc := t.busPresc, busSilent := t.busSilent, busArtx := t.busArtx
      utxBusy := t.utxBusy, utxLen := t.utxLen, utxMem := t.utxMem, lineIdx := t.lineIdx, lineMem := t.lineMem
      urxTail := t.urxTail, urxScan := t.urxScan, urxPos := t.urxPos, log := t.log
      evt := { s.evt with
        canQueueFull := t.evt.canQueueFull, usbTxBusy := t.evt.usbTxBusy
        usbLineOverflow := t.evt.usbLineOverflow } } := by
  have h1 := drainLine_cases h
  cases l with
  | test => obtain ⟨_, _, rfl⟩ := h1; rfl
  | read => obtain ⟨_, _, _, rfl⟩ := h1; rfl
  | branch b => obtain ⟨_, rfl⟩ := h1; rfl
  | parse => obtain ⟨_, _, rfl⟩ := h1; rfl
  | run cmd rest ok => rw [runCmd_frame h1.1]
  | reply ok => obtain ⟨_, rfl⟩ := h1; rw [utxSend_frame]
  | clear => obtain ⟨_, rfl⟩ := h1; rfl
  | overflow => obtain ⟨_, rfl⟩ := h1; rfl
  | append b => obtain ⟨_, _, rfl⟩ := h1; rfl
  | next => obtain ⟨_, rfl⟩ := h1; rfl
  | advance => obtain ⟨_, rfl⟩ := h1; rfl
  | ret => obtain ⟨_, rfl⟩ := h1; rfl

/-- A line of LOOP.ITER: what its three parts touch, and the phase. -/
theorem loopLine_frame {l : LoopLine} {s t : State} {d : Option LoopLine} (h : loopLine c l s = .ok (d, t)) :
    t = { s with
      ctxHead := t.ctxHead, ctxTail := t.ctxTail, ctxHdr := t.ctxHdr, ctxData := t.ctxData
      busState := t.busState, busPresc := t.busPresc, busSilent := t.busSilent, busArtx := t.busArtx
      utxBusy := t.utxBusy, utxLen := t.utxLen, utxMem := t.utxMem, lineIdx := t.lineIdx, lineMem := t.lineMem
      urxTail := t.urxTail, urxScan := t.urxScan, urxPos := t.urxPos, fgPhase := t.fgPhase
      answers := t.answers, log := t.log
      evt := { s.evt with
        canQueueFull := t.evt.canQueueFull, canTxHardwareReject := t.evt.canTxHardwareReject
        usbTxBusy := t.evt.usbTxBusy, usbLineOverflow := t.evt.usbLineOverflow } } := by
  have h1 := loopLine_cases h
  cases l with
  | toCanRx => obtain ⟨_, rfl⟩ := h1; rfl
  | pend =>
    obtain ⟨_, rfl⟩ := h1
    obtain ⟨b, a, e⟩ := crxPend_state c s
    rw [e]
  | pended p => obtain ⟨_, rfl⟩ := h1; rfl
  | recv =>
    obtain ⟨_, rfl⟩ := h1
    obtain ⟨f, a, _, e⟩ := crxRecv_cases c s
    rw [e]
  | received r => obtain ⟨_, rfl⟩ := h1; rfl
  | format f => obtain ⟨_, rfl⟩ := h1; rfl
  | send bytes => obtain ⟨_, rfl⟩ := h1; rw [utxSend_frame]
  | toUsbRx => obtain ⟨_, rfl⟩ := h1; rfl
  | drain x =>
    cases x with
    | none => obtain ⟨_, rfl⟩ := h1; rw [drainBegin_frame]
    | some x => obtain ⟨d', h2, _⟩ := h1; rw [drainLine_frame h2]
  | toTx => obtain ⟨_, rfl⟩ := h1; rfl
  | ret => obtain ⟨_, rfl⟩ := h1; rfl

end Sys2Proof.Machine
end

