-- ==== Sys2Proof/Laws/Pass.lean ====
section
/-! SUPPORT. The pass of one byte as a whole (spec/44_usbrx.md R198 lines 5 to 10): what it can do, and what it leaves alone. -/

namespace Sys2Proof.Machine

variable {c : Config}

theorem runCmds_frame {cmds : List Cmd} {s t : State} (h : runCmds c cmds s = .ok t) :
    t = { s with
      ctxHead := t.ctxHead, ctxHdr := t.ctxHdr, ctxData := t.ctxData
      busState := t.busState, busPresc := t.busPresc, busSilent := t.busSilent, busArtx := t.busArtx
      log := t.log, evt := { s.evt with canQueueFull := t.evt.canQueueFull } } := by
  induction cmds generalizing s with
  | nil => simp only [runCmds, Except.ok.injEq] at h; subst h; rfl
  | cons cmd cmds ih =>
    simp only [runCmds, bind_eq_ok] at h
    obtain ⟨s1, h1, h2⟩ := h
    rw [ih h2, runCmd_frame h1]

theorem scanTerminator_cases {s t : State} (h : scanTerminator c s = .ok t) :
    s.lineIdx ≤ c.mtu ∧ ∃ s1, runCmds c (c.parse (lineOf c s)).1 (s.emit (.parse (lineOf c s))) = .ok s1 ∧
      t = { (utxSend c [replyOf c (lineOf c s)] s1).2 with lineIdx := 0 } := by
  simp only [scanTerminator, bind_eq_ok, pure_ok, Except.ok.injEq] at h
  obtain ⟨l, h1, s1, h2, h3⟩ := h
  obtain ⟨h4, rfl⟩ := lineBytes_eq_ok h1
  exact ⟨h4, s1, h2, h3.symm⟩

theorem scanByte_cases {b : Byte} {s t : State} (h : scanByte c b s = .ok t) :
    (b = term ∧ scanTerminator c s = .ok t) ∨
    (b ≠ term ∧ s.lineIdx = c.mtu ∧ t = dropLine c s) ∨
    (b ≠ term ∧ s.lineIdx < c.mtu ∧ t = byteAppended b s) := by
  unfold scanByte at h
  split at h
  · rename_i hb
    exact .inl ⟨by simpa using hb, h⟩
  · rename_i hb
    split at h
    · rename_i hl
      simp only [Except.ok.injEq] at h
      exact .inr (.inl ⟨by simpa using hb, by simpa using hl, h.symm⟩)
    · obtain ⟨h1, h2⟩ := appendByte_eq_ok h
      exact .inr (.inr ⟨by simpa using hb, h1, h2⟩)

theorem scanByte_append {b : Byte} {s : State} (hb : b ≠ term) (h : s.lineIdx < c.mtu) :
    scanByte c b s = .ok (byteAppended b s) := by
  simp [scanByte, hb, show s.lineIdx ≠ c.mtu by omega, appendByte_ok h]

theorem scanByte_overflow {b : Byte} {s : State} (hb : b ≠ term) (h : s.lineIdx = c.mtu) :
    scanByte c b s = .ok (dropLine c s) := by
  simp [scanByte, hb, h]

theorem scanByte_term {s : State} : scanByte c term s = scanTerminator c s := by
  simp [scanByte]

/-- A scanned byte: what the parser's operations touch, the gate, the line, three counters and the log. -/
theorem scanByte_frame {b : Byte} {s t : State} (h : scanByte c b s = .ok t) :
    t = { s with
      ctxHead := t.ctxHead, ctxHdr := t.ctxHdr, ctxData := t.ctxData
      busState := t.busState, busPresc := t.busPresc, busSilent := t.busSilent, busArtx := t.busArtx
      utxBusy := t.utxBusy, utxLen := t.utxLen, utxMem := t.utxMem, lineIdx := t.lineIdx, lineMem := t.lineMem
      log := t.log
      evt := { s.evt with
        canQueueFull := t.evt.canQueueFull, usbTxBusy := t.evt.usbTxBusy
        usbLineOverflow := t.evt.usbLineOverflow } } := by
  rcases scanByte_cases h with ⟨_, h1⟩ | ⟨_, _, rfl⟩ | ⟨_, _, rfl⟩
  · obtain ⟨_, s1, h2, rfl⟩ := scanTerminator_cases h1
    rw [utxSend_frame, runCmds_frame h2]; rfl
  · rfl
  · rfl

/-! ### Many micro-steps of one operation -/

@[simp] theorem execN_zero (i : Instr) (s : State) : execN i 0 s = .next s := rfl

theorem execN_succ {i : Instr} {s t : State} {n : Nat} (h : exec i s = .next t) : execN i (n + 1) s = execN i n t := by
  simp [execN, h]

theorem execN_add {i : Instr} {s t : State} {n m : Nat} (h : execN i n s = .next t) :
    execN i (n + m) s = execN i m t := by
  induction n generalizing s with
  | zero =>
    rw [execN_zero] at h
    cases h
    rw [Nat.zero_add]
  | succ n ih =>
    rw [Nat.add_right_comm, execN]
    rw [execN] at h
    split at h <;> simp_all

/-! ### What plays no part in the parser's operations -/

/-- The second state differs from the first at most in the scan, the line and the log. -/
def Aside (s s' : State) : Prop :=
  ∃ p ut us up li lm lg, s' = { s with
    pos := p, urxTail := ut, urxScan := us, urxPos := up, lineIdx := li, lineMem := lm, log := lg }

theorem ctxEnq_aside {c : Config} {f : CanFrame} {r : Result} {s s' t : State} (h : Aside s s')
    (hr : ctxEnq c f s = .ok (r, t)) : ∃ t', ctxEnq c f s' = .ok (r, t') ∧ Aside t t' := by
  obtain ⟨p, ut, us, up, li, lm, lg, rfl⟩ := h
  rcases ctxEnq_cases hr with ⟨h1, rfl, rfl⟩ | ⟨h1, h2, h3, rfl, rfl⟩
  · exact ⟨_, ctxEnq_full f h1, p, ut, us, up, li, lm, lg, rfl⟩
  · exact ⟨_, ctxEnq_ok h1 h2 h3, p, ut, us, up, li, lm, lg, rfl⟩

theorem runCmd_aside {c : Config} {cmd : Cmd} {s s' t : State} (h : Aside s s') (hr : runCmd c cmd s = .ok t) :
    ∃ t', runCmd c cmd s' = .ok t' ∧ Aside t t' := by
  cases cmd with
  | enq f =>
    simp only [runCmd, bind_eq_ok, pure_ok, Except.ok.injEq] at hr
    obtain ⟨⟨r, s1⟩, h1, rfl⟩ := hr
    obtain ⟨t', h2, h3⟩ := ctxEnq_aside h h1
    exact ⟨t', by simp [runCmd, h2], h3⟩
  | en =>
    obtain ⟨p, ut, us, up, li, lm, lg, rfl⟩ := h
    simp only [runCmd, Except.ok.injEq, busEn] at hr ⊢
    subst hr
    refine ⟨_, rfl, ?_⟩; split <;> exact ⟨p, ut, us, up, li, lm, _, rfl⟩
  | dis =>
    obtain ⟨p, ut, us, up, li, lm, lg, rfl⟩ := h
    simp only [runCmd, Except.ok.injEq, busDis] at hr ⊢
    subst hr
    refine ⟨_, rfl, ?_⟩; split <;> exact ⟨p, ut, us, up, li, lm, _, rfl⟩
  | rate r =>
    obtain ⟨p, ut, us, up, li, lm, lg, rfl⟩ := h
    simp only [runCmd, Except.ok.injEq, busRate] at hr ⊢
    subst hr
    refine ⟨_, rfl, ?_⟩; split <;> exact ⟨p, ut, us, up, li, lm, _, rfl⟩
  | silent b =>
    obtain ⟨p, ut, us, up, li, lm, lg, rfl⟩ := h
    simp only [runCmd, Except.ok.injEq, busSilent] at hr ⊢
    subst hr
    refine ⟨_, rfl, ?_⟩; split <;> exact ⟨p, ut, us, up, li, lm, _, rfl⟩
  | artx a =>
    obtain ⟨p, ut, us, up, li, lm, lg, rfl⟩ := h
    simp only [runCmd, Except.ok.injEq, busArtx] at hr ⊢
    subst hr
    refine ⟨_, rfl, ?_⟩; split <;> exact ⟨p, ut, us, up, li, lm, _, rfl⟩

theorem runCmds_aside {c : Config} {cmds : List Cmd} {s s' t : State} (h : Aside s s')
    (hr : runCmds c cmds s = .ok t) : ∃ t', runCmds c cmds s' = .ok t' ∧ Aside t t' := by
  induction cmds generalizing s s' with
  | nil => simp only [runCmds, Except.ok.injEq] at hr; exact ⟨s', rfl, hr ▸ h⟩
  | cons cmd cmds ih =>
    simp only [runCmds, bind_eq_ok] at hr
    obtain ⟨s1, h1, h2⟩ := hr
    obtain ⟨s1', h3, h4⟩ := runCmd_aside h h1
    obtain ⟨t', h5, h6⟩ := ih h4 h2
    exact ⟨t', by simp [runCmds, h3, h5], h6⟩

theorem utxSend_aside {c : Config} (bytes : List Byte) {s s' : State} (h : Aside s s') :
    Aside (utxSend c bytes s).2 (utxSend c bytes s').2 := by
  obtain ⟨p, ut, us, up, li, lm, lg, rfl⟩ := h
  unfold utxSend
  dsimp only
  split
  · exact ⟨p, ut, us, up, li, lm, lg, rfl⟩
  · split
    · exact ⟨p, ut, us, up, li, lm, lg, rfl⟩
    · exact ⟨p, ut, us, up, li, lm, _, rfl⟩

/-- Where the foreground stands plays no part in what a line does. -/
theorem drainLine_withPos (c : Config) (l : DrainLine) (s : State) (p : Pos) :
    drainLine c l { s with pos := p } = (drainLine c l s).map fun x => (x.1, { x.2 with pos := p }) := by
  cases l with
  | run cmd rest ok =>
    have h1 : runCmd c cmd { s with pos := p } = (runCmd c cmd s).map fun t => { t with pos := p } := by
      cases cmd with
      | enq f =>
        simp only [runCmd, ctxEnq, storeFrame, checkRange]
        split <;> [rfl; (split <;> [(split <;> rfl); rfl])]
      | en => simp only [runCmd, busEn]; split <;> rfl
      | dis => simp only [runCmd, busDis]; split <;> rfl
      | rate r => simp only [runCmd, busRate]; split <;> rfl
      | silent b => simp only [runCmd, busSilent]; split <;> rfl
      | artx a => simp only [runCmd, busArtx]; split <;> rfl
    simp only [drainLine, h1]; cases runCmd c cmd s <;> rfl
  | reply ok =>
    simp only [drainLine, utxSend]
    split <;> [rfl; (split <;> rfl)]
  | test => simp only [drainLine, tailLen, checkRange]; split <;> rfl
  | read =>
    simp only [drainLine, tailByte, checkRange]
    split <;> [(split <;> rfl); rfl]
  | parse => simp only [drainLine, lineBytes, checkRange]; split <;> rfl
  | append b => simp only [drainLine, appendByte, checkRange]; split <;> rfl
  | _ => rfl

end Sys2Proof.Machine
end

