-- ==== Sys2Proof/Laws/Invariant.lean ====
section
/-! SUPPORT. Each shared operation keeps the invariant and, from a state that meets it, answers one: the access it makes
stays inside its memory. -/

namespace Sys2Proof.Machine

variable {c : Config}

/-! ### The parts of the invariant -/

theorem QOk.push {q : Ring} (h : QOk c q) {item : List Byte} (hs : item.length = c.itemSize) (hf : ringFull c.ringN q.head q.tail = false) :
    QOk c { q with slot := q.slot.write q.head item, head := ringNext c.ringN q.head } where
  head_lt := ringNext_lt (Nat.lt_of_le_of_lt (Nat.zero_le _) h.head_lt)
  tail_lt := h.tail_lt
  live i hi hl := by
    rw [ringLive_push h.head_lt h.tail_lt hi hf] at hl
    by_cases hih : i = q.head
    · exact ⟨item, by simp [hih], hs⟩
    · obtain ⟨v, h1, h2⟩ := h.live i hi (hl.resolve_left hih)
      exact ⟨v, by rw [Memory.read_write_other _ _ hih]; exact h1, h2⟩
  slotWf := Memory.wf_write h.slotWf _ _

theorem QOk.advance {q : Ring} (h : QOk c q) (he : ringEmpty q.head q.tail = false) :
    QOk c { q with tail := ringNext c.ringN q.tail } where
  head_lt := h.head_lt
  tail_lt := ringNext_lt (Nat.lt_of_le_of_lt (Nat.zero_le _) h.tail_lt)
  live i hi hl := h.live i hi (ringLive_of_advance h.head_lt h.tail_lt hi he hl)
  slotWf := h.slotWf

theorem CtxOk.push {head tail : Nat} {hdr : Memory FrameHeader} {data : Memory Byte} (h : CtxOk head tail hdr data)
    {f : CanFrame} (hw : f.wf = true) (hf : ringFull nTx head tail = false) :
    CtxOk (ringNext nTx head) tail (hdr.write head f.header) (data.writeAll (ctxAddr head) f.data) where
  head_lt := ringNext_lt (by decide)
  tail_lt := h.tail_lt
  live i hi hl := by
    simp only [CanFrame.wf, Bool.and_eq_true, decide_eq_true_eq] at hw
    rw [ringLive_push h.head_lt h.tail_lt hi hf] at hl
    by_cases hih : i = head
    · subst hih
      refine ⟨f.header, by simp, hw.1, fun j hj => ?_⟩
      rw [Memory.read_writeAll_inside _ _ _ _ (by omega)]; rfl
    · obtain ⟨g, h1, h2, h3⟩ := h.live i hi (hl.resolve_left hih)
      exact ⟨g, by rw [Memory.read_write_other _ _ hih]; exact h1, h2,
        fun j hj => Memory.isSome_read_writeAll _ _ _ (h3 j hj)⟩
  hdrWf := Memory.wf_write h.hdrWf _ _
  dataWf := Memory.wf_writeAll h.dataWf _ _

theorem CtxOk.advance {head tail : Nat} {hdr : Memory FrameHeader} {data : Memory Byte} (h : CtxOk head tail hdr data)
    (he : ringEmpty head tail = false) : CtxOk head (ringNext nTx tail) hdr data where
  head_lt := h.head_lt
  tail_lt := ringNext_lt (by decide)
  live i hi hl := h.live i hi (ringLive_of_advance h.head_lt h.tail_lt hi he hl)
  hdrWf := h.hdrWf
  dataWf := h.dataWf

/-! The receive ring and the scan of it -/

variable {head tail : Nat} {mem : Memory Byte} {len : Memory Nat} {armed : Option Nat}

theorem UrxOk.write (h : UrxOk c head tail mem len armed) (a : Nat) (bytes : List Byte) :
    UrxOk c head tail (mem.writeAll a bytes) len armed where
  head_lt := h.head_lt
  tail_lt := h.tail_lt
  live i hi hl := by
    obtain ⟨l, h1, h2, h3⟩ := h.live i hi hl
    exact ⟨l, h1, h2, fun j hj => Memory.isSome_read_writeAll _ _ _ (h3 j hj)⟩
  armed_head := h.armed_head
  unarmed := h.unarmed
  memWf := Memory.wf_writeAll h.memWf _ _
  lenWf := h.lenWf

theorem UrxOk.rearm (h : UrxOk c head tail mem len armed) : UrxOk c head tail mem len (some head) where
  head_lt := h.head_lt
  tail_lt := h.tail_lt
  live := h.live
  armed_head a ha := by simpa using ha.symm
  unarmed ha := by simp at ha
  memWf := h.memWf
  lenWf := h.lenWf

theorem UrxOk.capture (h : UrxOk c head tail mem len armed) {bytes : List Byte} (hb : bytes.length ≤ c.app)
    (hf : ringFull c.nRx head tail = false) :
    UrxOk c (ringNext c.nRx head) tail (mem.writeAll (urxAddr c head 0) bytes) (len.write head bytes.length)
      (some (ringNext c.nRx head)) where
  head_lt := ringNext_lt (Nat.lt_of_le_of_lt (Nat.zero_le _) h.head_lt)
  tail_lt := h.tail_lt
  live i hi hl := by
    rw [ringLive_push h.head_lt h.tail_lt hi hf] at hl
    by_cases hih : i = head
    · subst hih
      refine ⟨bytes.length, by simp, hb, fun j hj => ?_⟩
      rw [show urxAddr c i j = urxAddr c i 0 + j by simp [urxAddr], Memory.read_writeAll_inside _ _ _ _ hj]; rfl
    · obtain ⟨l, h1, h2, h3⟩ := h.live i hi (hl.resolve_left hih)
      exact ⟨l, by rw [Memory.read_write_other _ _ hih]; exact h1, h2,
        fun j hj => Memory.isSome_read_writeAll _ _ _ (h3 j hj)⟩
  armed_head a ha := by simpa using ha.symm
  unarmed ha := by simp at ha
  memWf := Memory.wf_writeAll h.memWf _ _
  lenWf := Memory.wf_write h.lenWf _ _

theorem UrxOk.advance (h : UrxOk c head tail mem len armed) (he : ringEmpty head tail = false) :
    UrxOk c head (ringNext c.nRx tail) mem len armed where
  head_lt := h.head_lt
  tail_lt := ringNext_lt (Nat.lt_of_le_of_lt (Nat.zero_le _) h.tail_lt)
  live i hi hl := h.live i hi (ringLive_of_advance h.head_lt h.tail_lt hi he hl)
  armed_head := h.armed_head
  unarmed ha := by
    obtain ⟨rfl, rfl⟩ := h.unarmed ha
    simp [ringEmpty] at he
  memWf := h.memWf
  lenWf := h.lenWf

variable {scan : Bool} {upos idx : Nat} {phase : Phase} {pos : Pos}

/-- A line of the drain that scans means that the scan is open. -/
theorem ScanOk.open (h : ScanOk c head tail len scan upos phase pos idx) {l : DrainLine} (hl : pos.drainLine = some l)
    (hs : l.scanning = true) : scan = true := by simp [h.scan_eq, Pos.scanning, hl, hs]

/-- The capture of a chunk does not disturb the scan of another slot (spec/20_memory.md R78). -/
theorem ScanOk.capture (h : ScanOk c head tail len scan upos phase pos idx) {n : Nat}
    (hf : ringFull c.nRx head tail = false) :
    ScanOk c (ringNext c.nRx head) tail (len.write head n) scan upos phase pos idx := by
  have hr : scan = true → (len.write head n).read tail = len.read tail := fun hs =>
    Memory.read_write_other _ _ (h.nonempty hs)
  have hb : pos.inByte = true → scan = true := by
    rw [h.scan_eq, Pos.inByte, Pos.scanning]
    cases pos.drainLine with
    | none => simp
    | some l => cases l <;> simp [DrainLine.inByte, DrainLine.scanning]
  exact {
    scan_eq := h.scan_eq
    phase_eq := h.phase_eq
    nonempty := fun _ e => by simp [ringFull, e] at hf
    pos_le := fun hs l hl => h.pos_le hs l (hr hs ▸ hl)
    pos_lt := fun hs l hl => h.pos_lt hs l (hr (hb hs) ▸ hl)
    done := fun hs l hl => h.done hs l (hr (h.open hs rfl) ▸ hl)
    room := h.room }

/-- From one line of the scan to another, in a pass and out of it. -/
theorem ScanOk.goto (h : ScanOk c head tail len scan upos phase pos idx) {l l' : DrainLine} {p : Pos} {upos' idx' : Nat}
    (hl : pos.drainLine = some l) (hp : p.drainLine = some l') (hph : p.phase = pos.phase) (hs : l.scanning = true)
    (hs' : l'.scanning = true) (hle : ∀ n, len.read tail = some n → upos' ≤ n)
    (hlt : l'.inByte = true → ∀ n, len.read tail = some n → upos' < n)
    (hd : l' = .advance → ∀ n, len.read tail = some n → n ≤ upos') (hr : ∀ b, l' = .append b → b ≠ term ∧ idx' < c.mtu) :
    ScanOk c head tail len scan upos' phase p idx' where
  scan_eq := by rw [h.open hl hs]; simp [Pos.scanning, hp, hs']
  phase_eq := h.phase_eq.trans hph.symm
  nonempty := h.nonempty
  pos_le _ := hle
  pos_lt hb := hlt (by simpa [Pos.inByte, hp] using hb)
  done hb := hd (by simpa [hp] using hb)
  room b hb := hr b (by simpa [hp] using hb)

/-- A position with no drain in progress, the scan being closed. -/
theorem ScanOk.idle {p : Pos} (hp : p.drainLine = none) :
    ScanOk c head tail len false upos p.phase p idx where
  scan_eq := by simp [Pos.scanning, hp]
  phase_eq := rfl
  nonempty hs := by simp at hs
  pos_le hs := by simp at hs
  pos_lt hs := by simp [Pos.inByte, hp] at hs
  done hs := by simp [hp] at hs
  room b hs := by simp [hp] at hs

/-- The scan of a live tail slot, just opened. -/
theorem ScanOk.opened {p : Pos} (he : ringEmpty head tail = false) (hp : p.drainLine = some .test) :
    ScanOk c head tail len true 0 p.phase p idx where
  scan_eq := by simp [Pos.scanning, hp, DrainLine.scanning]
  phase_eq := rfl
  nonempty _ e := by simp [ringEmpty, e] at he
  pos_le _ l _ := Nat.zero_le l
  pos_lt hb := by simp [Pos.inByte, hp, DrainLine.inByte] at hb
  done hb := by simp [hp] at hb
  room b hb := by simp [hp] at hb

/-- After the tail advance the scan is closed. -/
theorem ScanOk.closed {p : Pos} (hp : p.drainLine = some .ret) : ScanOk c head tail len false upos p.phase p idx where
  scan_eq := by simp [Pos.scanning, hp, DrainLine.scanning]
  phase_eq := rfl
  nonempty hs := by simp at hs
  pos_le hs := by simp at hs
  pos_lt hb := by simp [Pos.inByte, hp, DrainLine.inByte] at hb
  done hb := by simp [hp] at hb
  room b hb := by simp [hp] at hb

theorem afterParse_inj {cmds cmds' : List Cmd} {ok ok' : Bool} (h : afterParse cmds ok = afterParse cmds' ok') :
    cmds = cmds' ∧ ok = ok' := by
  cases cmds <;> cases cmds' <;> simp_all [afterParse]

/-- Is a line one between the call of the parser and the reply? -/
def DrainLine.afterParser : DrainLine → Bool
  | .run _ _ _ => true
  | .reply _ => true
  | _ => false

theorem afterParse_afterParser (cmds : List Cmd) (ok : Bool) : (afterParse cmds ok).afterParser = true := by
  cases cmds <;> rfl

theorem afterParse_scanning (cmds : List Cmd) (ok : Bool) : (afterParse cmds ok).scanning = true := by
  cases cmds <;> rfl

theorem afterParse_ne_append (cmds : List Cmd) (ok : Bool) (b : Byte) : afterParse cmds ok ≠ .append b := by
  cases cmds <;> simp [afterParse]

theorem afterParse_ne_advance (cmds : List Cmd) (ok : Bool) : afterParse cmds ok ≠ .advance := by
  cases cmds <;> simp [afterParse]

theorem CmdsOk.none {p : Pos} {last : Option (List Byte)} (h : ∀ l, p.drainLine = some l → l.afterParser = false) :
    CmdsOk c p last := fun cmds ok hp => by
  have := h _ hp
  simp [afterParse_afterParser] at this

theorem LineOk.append {idx : Nat} (h : LineOk c idx mem) {b : Byte} (hb : b ≠ term) (hi : idx < c.mtu) :
    LineOk c (idx + 1) (mem.write idx b) where
  idx_le := hi
  written k hk := by
    rw [Memory.read_write]
    split
    · exact ⟨b, rfl, hb⟩
    · exact h.written k (by omega)
  memWf := Memory.wf_write h.memWf _ _

theorem LineOk.restart {idx : Nat} (h : LineOk c idx mem) : LineOk c 0 mem where
  idx_le := Nat.zero_le _
  written k hk := by omega
  memWf := h.memWf

theorem UtxOk.start {busy : Bool} {n : Nat} (h : UtxOk c busy n mem) {bytes : List Byte} (hb : bytes.length ≤ c.txBuf) :
    UtxOk c true bytes.length (mem.writeAll 0 bytes) where
  len_le := hb
  written _ k hk := by
    have := Memory.read_writeAll_inside mem 0 bytes k hk
    rw [Nat.zero_add] at this
    rw [this]; rfl
  memWf := Memory.wf_writeAll h.memWf _ _

theorem UtxOk.done {busy : Bool} {n : Nat} (h : UtxOk c busy n mem) : UtxOk c false n mem where
  len_le := h.len_le
  written hb := by simp at hb
  memWf := h.memWf

/-! ### Updates that touch no part -/

/-- An observation other than a call of the parser. -/
theorem State.Inv.emit {s : State} (h : s.Inv c) {o : Obs} (ho : parsedLines (o :: s.log) = parsedLines s.log) :
    (s.emit o).Inv c :=
  ⟨h.q, h.ctx, h.urx, h.scan, ho.symm ▸ h.cmds, h.line, h.utx, h.evt⟩

theorem State.Inv.raise {s : State} (h : s.Inv c) (e : Event) : (s.raise c e).Inv c :=
  ⟨h.q, h.ctx, h.urx, h.scan, h.cmds, h.line, h.utx, fun d => by
    simp only [State.raise_evt, Counters.get_set]
    split
    · exact Nat.mod_lt _ (Nat.two_pow_pos _)
    · exact h.evt d⟩

/-- The foreground goes on at another line. -/
theorem State.Inv.goto {s : State} (h : s.Inv c) (p : Pos)
    (hs : ScanOk c s.urxHead s.urxTail s.urxLen s.urxScan s.urxPos s.fgPhase p s.lineIdx)
    (hc : CmdsOk c p (parsedLines s.log).head?) : ({ s with pos := p } : State).Inv c :=
  ⟨h.q, h.ctx, h.urx, hs, hc, h.line, h.utx, h.evt⟩

theorem State.Inv.withAnswers {s : State} (h : s.Inv c) (a : Answers) : ({ s with answers := a } : State).Inv c :=
  ⟨h.q, h.ctx, h.urx, h.scan, h.cmds, h.line, h.utx, h.evt⟩

theorem State.Inv.withInbox {s : State} (h : s.Inv c) (l : List Turn) : ({ s with inbox := l } : State).Inv c :=
  ⟨h.q, h.ctx, h.urx, h.scan, h.cmds, h.line, h.utx, h.evt⟩

/-! ### Family RB -/

theorem rbPush_inv {s : State} (h : s.Inv c) {item : List Byte} (hs : item.length = c.itemSize) :
    ∃ r t, rbPush c item s = .ok (r, t) ∧ t.Inv c := by
  cases hf : ringFull c.ringN s.q.head s.q.tail with
  | true => exact ⟨_, _, rbPush_full item hf, h⟩
  | false =>
    exact ⟨_, _, rbPush_ok item hf h.q.head_lt, ⟨h.q.push hs hf, h.ctx, h.urx, h.scan, h.cmds, h.line, h.utx, h.evt⟩⟩

theorem rbAdvance_inv {s : State} (h : s.Inv c) (he : ringEmpty s.q.head s.q.tail = false) :
    (rbAdvance c s).Inv c :=
  rbAdvance_eq c s ▸ ⟨h.q.advance he, h.ctx, h.urx, h.scan, h.cmds, h.line, h.utx, h.evt⟩

theorem rbPeek_inv {s : State} (h : s.Inv c) : ∃ r, rbPeek c s = .ok (r, s) := by
  simp [rbPeek, rbTailItem_ok h.q.tail_lt]

theorem rbPop_inv {s : State} (h : s.Inv c) : ∃ r t, rbPop c s = .ok (r, t) ∧ t.Inv c := by
  cases he : ringEmpty s.q.head s.q.tail with
  | true => exact ⟨.empty, s, by simp [rbPop, he], h⟩
  | false =>
    exact ⟨.okItem (s.q.slot.readOr (c.freeItem s.resets) s.q.tail), rbAdvance c s,
      by simp [rbPop, he, rbTailItem_ok h.q.tail_lt], rbAdvance_inv h he⟩

/-! ### Family CTX -/

theorem ctxEnq_inv {s : State} (h : s.Inv c) {f : CanFrame} (hw : f.wf = true) :
    ∃ r t, ctxEnq c f s = .ok (r, t) ∧ t.Inv c := by
  cases hf : ringFull nTx s.ctxHead s.ctxTail with
  | true => exact ⟨_, _, ctxEnq_full f hf, h.raise _⟩
  | false =>
    have hl : f.data.length ≤ 8 := by
      simp only [CanFrame.wf, FrameHeader.wf, Bool.and_eq_true, decide_eq_true_eq] at hw; omega
    exact ⟨_, _, ctxEnq_ok hf h.ctx.head_lt hl, ⟨h.q, h.ctx.push hw hf, h.urx, h.scan, h.cmds, h.line, h.utx, h.evt⟩⟩

theorem ctxSubmitted_inv {s : State} (h : s.Inv c) (acc : Bool) (a : Answers)
    (he : ringEmpty s.ctxHead s.ctxTail = false) : (ctxSubmitted c acc a s).Inv c := by
  have h1 : ({ s with
      answers := a
      log := .canSubmit (slotFrame c s.ctxTail s) acc :: s.log
      ctxTail := ringNext nTx s.ctxTail } : State).Inv c :=
    ⟨h.q, h.ctx.advance he, h.urx, h.scan, h.cmds, h.line, h.utx, h.evt⟩
  unfold ctxSubmitted
  cases acc with
  | true => exact h1
  | false => exact h1.raise _

theorem ctxProc_inv {s : State} (h : s.Inv c) : ∃ r t, ctxProc c s = .ok (r, t) ∧ t.Inv c := by
  obtain ⟨r, t, ht⟩ := ctxProc_ok (c := c) h.ctx.tail_lt
  refine ⟨r, t, ht, ?_⟩
  obtain ⟨_, ⟨_, rfl⟩ | ⟨_, _, rfl⟩ | ⟨he, _, _, acc, a, rfl⟩⟩ := ctxProc_cases ht
  · exact h
  · obtain ⟨m, a, hd⟩ := drawMailboxes_cases c s
    rw [hd]; exact h.withAnswers a
  · exact ctxSubmitted_inv h acc a he

/-! ### Family BUS -/

theorem busEn_inv {s : State} (h : s.Inv c) : (busEn s).Inv c := by
  unfold busEn; split
  · exact h
  · exact ⟨h.q, h.ctx, h.urx, h.scan, h.cmds, h.line, h.utx, h.evt⟩

theorem busDis_inv {s : State} (h : s.Inv c) : (busDis s).Inv c := by
  unfold busDis; split
  · exact h
  · exact ⟨h.q, h.ctx, h.urx, h.scan, h.cmds, h.line, h.utx, h.evt⟩

theorem busRate_inv {s : State} (h : s.Inv c) (r : Rate) : (busRate c r s).Inv c := by
  unfold busRate; split
  · exact h
  · exact ⟨h.q, h.ctx, h.urx, h.scan, h.cmds, h.line, h.utx, h.evt⟩

theorem busSilent_inv {s : State} (h : s.Inv c) (b : Bool) : (busSilent b s).Inv c := by
  unfold busSilent; split
  · exact h
  · exact ⟨h.q, h.ctx, h.urx, h.scan, h.cmds, h.line, h.utx, h.evt⟩

theorem busArtx_inv {s : State} (h : s.Inv c) (a : Bool) : (busArtx a s).Inv c := by
  unfold busArtx; split
  · exact h
  · exact ⟨h.q, h.ctx, h.urx, h.scan, h.cmds, h.line, h.utx, h.evt⟩

/-! ### Families CRX and UTX -/

theorem crxPend_inv {s : State} (h : s.Inv c) : (crxPend c s).2.Inv c := by
  obtain ⟨b, a, hc⟩ := crxPend_state c s
  rw [hc]; exact h.withAnswers a

theorem crxRecv_inv {s : State} (h : s.Inv c) : (crxRecv c s).2.Inv c := by
  obtain ⟨f, a, _, hc⟩ := crxRecv_cases c s
  rw [hc]; exact h.withAnswers a

theorem utxSend_inv {s : State} (h : s.Inv c) (bytes : List Byte) : (utxSend c bytes s).2.Inv c := by
  rcases utxSend_cases c bytes s with ⟨_, e⟩ | ⟨_, _, e⟩ | ⟨_, hl, e⟩
  · rw [e]; exact h.raise _
  · rw [e]; exact h
  · rw [e]; exact ⟨h.q, h.ctx, h.urx, h.scan, h.cmds, h.line, h.utx.start hl, h.evt⟩

/-! ### Family URX -/

theorem urxChunk_inv {s : State} (h : s.Inv c) {a : Nat} (ha : s.urxArmed = some a) {bytes : List Byte}
    (hb : bytes.length ≤ c.app) : ∃ r t, urxChunk c a bytes s = .ok (r, t) ∧ t.Inv c := by
  have hah := h.urx.armed_head a ha
  subst hah
  cases hf : ringFull c.nRx s.urxHead s.urxTail with
  | true =>
    refine ⟨_, _, urxChunk_lost h.urx.head_lt hb hf, ?_⟩
    have h1 : (chunkWritten c s.urxHead bytes s).Inv c :=
      ⟨h.q, h.ctx, h.urx.write _ _, h.scan, h.cmds, h.line, h.utx, h.evt⟩
    have h2 := h1.raise .usbRxBufferFull
    exact ⟨h2.q, h2.ctx, h2.urx.rearm, h2.scan, h2.cmds, h2.line, h2.utx, h2.evt⟩
  | false =>
    refine ⟨_, _, urxChunk_captured h.urx.head_lt hb hf h.urx.head_lt, ?_⟩
    exact ⟨h.q, h.ctx, h.urx.capture hb hf, h.scan.capture hf, h.cmds, h.line, h.utx, h.evt⟩

theorem runCmd_inv {s : State} (h : s.Inv c) (cmd : Cmd) : ∃ t, runCmd c cmd s = .ok t ∧ t.Inv c := by
  cases cmd with
  | enq f =>
    obtain ⟨r, t, h1, h2⟩ := ctxEnq_inv h f.property
    exact ⟨t, by simp [runCmd, h1], h2⟩
  | en => exact ⟨_, rfl, busEn_inv h⟩
  | dis => exact ⟨_, rfl, busDis_inv h⟩
  | rate r => exact ⟨_, rfl, busRate_inv h r⟩
  | silent b => exact ⟨_, rfl, busSilent_inv h b⟩
  | artx a => exact ⟨_, rfl, busArtx_inv h a⟩

theorem runCmd_pos {s t : State} {cmd : Cmd} (h : runCmd c cmd s = .ok t) : t.pos = s.pos := by
  rw [runCmd_frame h]

theorem utxSend_pos (c : Config) (bytes : List Byte) (s : State) : (utxSend c bytes s).2.pos = s.pos := by
  rw [utxSend_frame]

/-! ### The drain -/

theorem tailLen_live {s : State} (h : s.Inv c) (hs : s.urxScan = true) :
    ∃ l, s.urxLen.read s.urxTail = some l ∧ l ≤ c.app ∧ tailLenOf c s = l ∧ s.urxPos ≤ l := by
  have he : ringEmpty s.urxHead s.urxTail = false := by
    simpa [ringEmpty] using fun e => h.scan.nonempty hs e.symm
  obtain ⟨l, h1, h2, _⟩ := h.urx.live _ h.urx.tail_lt (ringLive_tail h.urx.head_lt h.urx.tail_lt he)
  exact ⟨l, h1, h2, by simp [tailLenOf, Memory.readOr, h1], h.scan.pos_le hs l h1⟩

/-- The first micro-step of a drain, from a position with none in progress to one at the line it leads to. -/
theorem drainBegin_inv {s : State} (h : s.Inv c) (hn : s.pos.drainLine = none) {p : Pos}
    (hp : p.drainLine = (drainBegin s).1) (hph : p.phase = s.pos.phase) :
    ({ (drainBegin s).2 with pos := p } : State).Inv c := by
  rcases drainBegin_cases s with ⟨_, e⟩ | ⟨he, e⟩
  · rw [e] at hp ⊢
    have hs : s.urxScan = false := by simp [h.scan.scan_eq, Pos.scanning, hn]
    refine h.goto p ?_ (CmdsOk.none (by simp [hp]))
    rw [hs, h.scan.phase_eq, ← hph]
    exact ScanOk.idle hp
  · rw [e] at hp ⊢
    have h1 : ScanOk c s.urxHead s.urxTail s.urxLen true 0 s.fgPhase p s.lineIdx :=
      (h.scan.phase_eq.trans hph.symm) ▸ ScanOk.opened he hp
    exact ⟨h.q, h.ctx, h.urx, h1, CmdsOk.none (by simp [hp, DrainLine.afterParser]), h.line, h.utx, h.evt⟩

/-- A line of a drain runs, and the invariant holds at any position that stands at the line it leads to. -/
theorem drainLine_inv {s : State} (h : s.Inv c) {l : DrainLine} (hl : s.pos.drainLine = some l) :
    ∃ d t, drainLine c l s = .ok (d, t) ∧
      ∀ p : Pos, p.drainLine = d → p.phase = s.pos.phase → ({ t with pos := p } : State).Inv c := by
  by_cases hs : l.scanning = true
  swap
  · cases l <;> simp [DrainLine.scanning] at hs
    refine ⟨none, s, rfl, fun p hp hph => h.goto p ?_ (CmdsOk.none (by simp [hp]))⟩
    have hs : s.urxScan = false := by simp [h.scan.scan_eq, Pos.scanning, hl, DrainLine.scanning]
    rw [hs, h.scan.phase_eq, ← hph]
    exact ScanOk.idle hp
  have ho := h.scan.open hl hs
  obtain ⟨n, h1, h2, h3, h4⟩ := tailLen_live h ho
  have hlt : l.inByte = true → s.urxPos < n := fun hb => h.scan.pos_lt (by simp [Pos.inByte, hl, hb]) n h1
  have hle : ∀ n, s.urxLen.read s.urxTail = some n → s.urxPos ≤ n := h.scan.pos_le ho
  have hlt' : l.inByte = true → ∀ n, s.urxLen.read s.urxTail = some n → s.urxPos < n := fun hb =>
    h.scan.pos_lt (by simp [Pos.inByte, hl, hb])
  cases l with
  | test =>
    refine ⟨_, s, by rw [drainLine, tailLen_ok h.urx.tail_lt]; rfl, fun p hp hph => ?_⟩
    rw [h3] at hp
    by_cases hc : s.urxPos < n
    · rw [if_pos hc] at hp
      exact h.goto p (h.scan.goto hl hp hph rfl rfl hle (fun _ m hm => by rw [h1] at hm; simp at hm; omega) (by simp)
        (by simp)) (CmdsOk.none (by simp [hp, DrainLine.afterParser]))
    · rw [if_neg hc] at hp
      exact h.goto p (h.scan.goto hl hp hph rfl rfl hle (by simp [DrainLine.inByte])
        (fun _ m hm => by rw [h1] at hm; simp at hm; omega) (by simp))
        (CmdsOk.none (by simp [hp, DrainLine.afterParser]))
  | read =>
    refine ⟨_, s, by
      rw [drainLine, tailByte_ok h.urx.tail_lt (show s.urxPos < c.app by have := hlt rfl; omega)]; rfl,
      fun p hp hph => ?_⟩
    exact h.goto p (h.scan.goto hl hp hph rfl rfl hle (fun _ => hlt' rfl) (by simp) (by simp))
      (CmdsOk.none (by simp [hp, DrainLine.afterParser]))
  | branch b =>
    refine ⟨_, s, rfl, fun p hp hph => ?_⟩
    by_cases hb : b = term
    · simp only [hb, beq_self_eq_true, if_true] at hp
      exact h.goto p (h.scan.goto hl hp hph rfl rfl hle (fun _ => hlt' rfl) (by simp) (by simp))
        (CmdsOk.none (by simp [hp, DrainLine.afterParser]))
    · by_cases hi : s.lineIdx = c.mtu
      · simp [hb, hi] at hp
        exact h.goto p (h.scan.goto hl hp hph rfl rfl hle (fun _ => hlt' rfl) (by simp) (by simp))
          (CmdsOk.none (by simp [hp, DrainLine.afterParser]))
      · simp [hb, hi] at hp
        exact h.goto p (h.scan.goto hl hp hph rfl rfl hle (fun _ => hlt' rfl) (by simp)
          (fun b' e => by simp at e; exact ⟨e ▸ hb, Nat.lt_of_le_of_ne h.line.idx_le hi⟩)) (CmdsOk.none (by simp [hp, DrainLine.afterParser]))
  | parse =>
    refine ⟨_, _, by rw [drainLine, lineBytes_ok h.line.idx_le]; rfl, fun p hp hph => ?_⟩
    refine ⟨h.q, h.ctx, h.urx, h.scan.goto hl hp hph rfl (afterParse_scanning _ _) hle (fun _ => hlt' rfl)
      (fun e => absurd e (afterParse_ne_advance _ _)) (fun b e => absurd e (afterParse_ne_append _ _ b)),
      fun cmds ok e => ?_, h.line, h.utx, h.evt⟩
    have e' : p.drainLine = some (afterParse cmds ok) := e
    rw [hp, Option.some.injEq] at e'
    obtain ⟨rfl, rfl⟩ := afterParse_inj e'
    exact ⟨lineOf c s, rfl, by simpa [lineOf] using h.line.idx_le, List.suffix_refl _, rfl⟩
  | run cmd rest ok =>
    obtain ⟨t, h5, h6⟩ := runCmd_inv h cmd
    have h7 := runCmd_pos h5
    refine ⟨_, t, by rw [drainLine, h5]; rfl, fun p hp hph => ?_⟩
    have hl' : t.pos.drainLine = some (.run cmd rest ok) := by rw [h7, hl]
    have ho' := h6.scan.open hl' rfl
    refine h6.goto p (h6.scan.goto hl' hp (by rw [hph, h7]) rfl (afterParse_scanning _ _) (h6.scan.pos_le ho')
      (fun _ => h6.scan.pos_lt (by simp [Pos.inByte, hl', DrainLine.inByte]))
      (fun e => absurd e (afterParse_ne_advance _ _)) (fun b e => absurd e (afterParse_ne_append _ _ b))) fun cmds ok' e => ?_
    have e' : p.drainLine = some (afterParse cmds ok') := e
    rw [hp, Option.some.injEq] at e'
    obtain ⟨rfl, rfl⟩ := afterParse_inj e'
    obtain ⟨line, h8, h8', h9, h10⟩ := h6.cmds (cmd :: rest) ok hl'
    exact ⟨line, h8, h8', (List.suffix_cons _ _).trans h9, h10⟩
  | reply ok =>
    have h6 := utxSend_inv h [if ok then ack else nak]
    have h7 := utxSend_pos c [if ok then ack else nak] s
    refine ⟨_, _, rfl, fun p hp hph => ?_⟩
    have hl' := h7 ▸ hl
    have ho' := h6.scan.open hl' rfl
    exact h6.goto p (h6.scan.goto hl' hp (by rw [hph, h7]) rfl rfl (h6.scan.pos_le ho')
      (fun _ => h6.scan.pos_lt (by simp [Pos.inByte, hl', DrainLine.inByte])) (by simp) (by simp))
      (CmdsOk.none (by simp [hp, DrainLine.afterParser]))
  | clear =>
    refine ⟨_, _, rfl, fun p hp hph => ?_⟩
    exact ⟨h.q, h.ctx, h.urx, h.scan.goto hl hp hph rfl rfl hle (fun _ => hlt' rfl) (by simp) (by simp),
      CmdsOk.none (by simp [hp, DrainLine.afterParser]), h.line.restart, h.utx, h.evt⟩
  | overflow =>
    refine ⟨_, _, rfl, fun p hp hph => ?_⟩
    exact ⟨h.q, h.ctx, h.urx, h.scan.goto hl hp hph rfl rfl hle (fun _ => hlt' rfl) (by simp) (by simp),
      CmdsOk.none (by simp [hp, DrainLine.afterParser]), h.line.restart, h.utx, (h.raise .usbLineOverflow).evt⟩
  | append b =>
    obtain ⟨hb, hi⟩ := h.scan.room b hl
    refine ⟨_, _, by rw [drainLine, appendByte_ok hi]; rfl, fun p hp hph => ?_⟩
    exact ⟨h.q, h.ctx, h.urx, h.scan.goto hl hp hph rfl rfl hle (fun _ => hlt' rfl) (by simp) (by simp),
      CmdsOk.none (by simp [hp, DrainLine.afterParser]), h.line.append hb hi, h.utx, h.evt⟩
  | next =>
    refine ⟨_, _, rfl, fun p hp hph => ?_⟩
    exact ⟨h.q, h.ctx, h.urx, h.scan.goto hl hp hph rfl rfl (fun m hm => hlt' rfl m hm) (by simp [DrainLine.inByte])
      (by simp) (by simp), CmdsOk.none (by simp [hp, DrainLine.afterParser]), h.line, h.utx, h.evt⟩
  | advance =>
    have he : ringEmpty s.urxHead s.urxTail = false := by
      simpa [ringEmpty] using fun e => h.scan.nonempty ho e.symm
    refine ⟨_, _, rfl, fun p hp hph => ?_⟩
    rw [advanceTail_eq]
    have h1 : ScanOk c s.urxHead (ringNext c.nRx s.urxTail) s.urxLen false s.urxPos s.fgPhase p s.lineIdx :=
      (h.scan.phase_eq.trans hph.symm) ▸ ScanOk.closed hp
    exact ⟨h.q, h.ctx, h.urx.advance he, h1, CmdsOk.none (by simp [hp, DrainLine.afterParser]), h.line, h.utx, h.evt⟩
  | ret => simp [DrainLine.scanning] at hs

/-! ### The loop -/

/-- From one position without a drain to another, the phase being that of the line that comes next. -/
theorem State.Inv.gotoIdle {s : State} (h : s.Inv c) (hn : s.pos.drainLine = none) {p : Pos} (hp : p.drainLine = none) :
    ({ s with pos := p, fgPhase := p.phase } : State).Inv c := by
  have hs : s.urxScan = false := by simp [h.scan.scan_eq, Pos.scanning, hn]
  have h1 : ScanOk c s.urxHead s.urxTail s.urxLen s.urxScan s.urxPos p.phase p s.lineIdx := hs ▸ ScanOk.idle hp
  exact ⟨h.q, h.ctx, h.urx, h1, CmdsOk.none (by simp [hp]), h.line, h.utx, h.evt⟩

theorem State.Inv.phase_eq {s : State} (h : s.Inv c) : s.fgPhase = s.pos.phase := h.scan.phase_eq

/-- The same where the phase stays. -/
theorem State.Inv.gotoSame {s : State} (h : s.Inv c) (hn : s.pos.drainLine = none) {p : Pos} (hp : p.drainLine = none)
    (hph : p.phase = s.pos.phase) : ({ s with pos := p } : State).Inv c := by
  have h1 := h.gotoIdle hn hp
  rw [hph, ← h.phase_eq] at h1
  exact h1

theorem crxPend_pos (c : Config) (s : State) : (crxPend c s).2.pos = s.pos := by
  obtain ⟨b, a, e⟩ := crxPend_state c s
  rw [e]

theorem crxRecv_pos (c : Config) (s : State) : (crxRecv c s).2.pos = s.pos := by
  obtain ⟨f, a, _, e⟩ := crxRecv_cases c s
  rw [e]

theorem ctxProc_pos {s t : State} {r : Result} (h : ctxProc c s = .ok (r, t)) : t.pos = s.pos := by
  rw [ctxProc_frame h]

/-- A line of an iteration runs and keeps the invariant; with the last one the foreground is at rest. -/
theorem loopLine_inv {s : State} (h : s.Inv c) {l : LoopLine} (hl : s.pos = .loop l) :
    ∃ d t, loopLine c l s = .ok (d, t) ∧
      ({ t with pos := match d with | some l' => .loop l' | none => .rest } : State).Inv c := by
  cases l with
  | toCanRx => exact ⟨_, _, rfl, h.gotoIdle (p := .loop .pend) (by rw [hl]; rfl) rfl⟩
  | pend =>
    exact ⟨_, _, rfl, (crxPend_inv h).gotoSame (by rw [crxPend_pos, hl]; rfl) rfl (by rw [crxPend_pos, hl]; rfl)⟩
  | pended p => cases p <;> exact ⟨_, _, rfl, h.gotoSame (by rw [hl]; rfl) rfl (by rw [hl]; rfl)⟩
  | recv =>
    exact ⟨_, _, rfl, (crxRecv_inv h).gotoSame (by rw [crxRecv_pos, hl]; rfl) rfl (by rw [crxRecv_pos, hl]; rfl)⟩
  | received r => cases r <;> exact ⟨_, _, rfl, h.gotoSame (by rw [hl]; rfl) rfl (by rw [hl]; rfl)⟩
  | format f => exact ⟨_, _, rfl, (h.emit (o := .format f) rfl).gotoSame (by rw [State.emit_pos, hl]; rfl) rfl (by rw [State.emit_pos, hl]; rfl)⟩
  | send bytes =>
    exact ⟨_, _, rfl, (utxSend_inv h bytes).gotoSame (by rw [utxSend_pos, hl]; rfl) rfl (by rw [utxSend_pos, hl]; rfl)⟩
  | toUsbRx => exact ⟨_, _, rfl, h.gotoIdle (p := .loop (.drain none)) (by rw [hl]; rfl) rfl⟩
  | drain x =>
    cases x with
    | none =>
      refine ⟨_, _, rfl, drainBegin_inv h (by rw [hl]; rfl) ?_ ?_⟩
      · cases (drainBegin s).1 <;> rfl
      · rw [hl]; cases (drainBegin s).1 <;> rfl
    | some x =>
      obtain ⟨d, t, h1, h2⟩ := drainLine_inv h (l := x) (by rw [hl]; rfl)
      refine ⟨some (afterDrain d), t, by simp [loopLine, h1], h2 _ ?_ ?_⟩
      · cases d <;> rfl
      · rw [hl]; cases d <;> rfl
  | toTx => exact ⟨_, _, rfl, h.gotoIdle (p := .loop .ret) (by rw [hl]; rfl) rfl⟩
  | ret => exact ⟨_, _, rfl, h.gotoSame (by rw [hl]; rfl) rfl (by rw [hl]; rfl)⟩

/-! ### The pass of one byte as a whole -/

theorem runCmds_inv {s : State} (h : s.Inv c) (cmds : List Cmd) : ∃ t, runCmds c cmds s = .ok t ∧ t.Inv c := by
  induction cmds generalizing s with
  | nil => exact ⟨s, rfl, h⟩
  | cons cmd cmds ih =>
    obtain ⟨s1, h1, h2⟩ := runCmd_inv h cmd
    obtain ⟨t, h3, h4⟩ := ih h2
    exact ⟨t, by simp [runCmds, h1, h3], h4⟩

/-! ### The two operations that take several micro-steps -/

/-- A micro-step of URX.DRAIN runs and keeps the invariant, unless a LOOP.ITER is outstanding. -/
theorem execUrxDrain_inv {s : State} (h : s.Inv Config.impl) (hp : ∀ l, s.pos ≠ .loop l) :
    ∃ t, execUrxDrain s = .next t ∧ t.Inv Config.impl := by
  unfold execUrxDrain
  cases hq : s.pos with
  | rest =>
    have h1 := fun p => drainBegin_inv (p := p) h (by rw [hq]; rfl)
    rw [hq] at h1
    cases hd : drainBegin s with
    | mk d t =>
      rw [hd] at h1
      cases d with
      | none => exact ⟨_, rfl, (h1 .rest rfl rfl).emit rfl⟩
      | some l => exact ⟨_, rfl, h1 (.drain l) rfl rfl⟩
  | drain l =>
    obtain ⟨d, t, h1, h2⟩ := drainLine_inv h (l := l) (by rw [hq]; rfl)
    rw [hq] at h2
    show ∃ t, proceed .drain (drainLine Config.impl l s) = .next t ∧ _
    rw [h1]
    cases d with
    | none => exact ⟨_, rfl, (h2 .rest rfl rfl).emit rfl⟩
    | some l => exact ⟨_, rfl, h2 (.drain l) rfl rfl⟩
  | loop l => exact absurd hq (hp l)

/-- A micro-step of LOOP.ITER runs and keeps the invariant, unless a URX.DRAIN is outstanding. -/
theorem execLoopIter_inv {s : State} (h : s.Inv Config.impl) (hp : ∀ l, s.pos ≠ .drain l) :
    ∃ t, execLoopIter s = .next t ∧ t.Inv Config.impl := by
  unfold execLoopIter
  cases hq : s.pos with
  | rest =>
    obtain ⟨r, t, h1, h2⟩ := ctxProc_inv h
    have h3 := ctxProc_pos h1
    exact ⟨_, by simp [loopBegin, h1]; rfl, h2.gotoSame (by rw [h3, hq]; rfl) rfl (by rw [h3, hq]; rfl)⟩
  | loop l =>
    obtain ⟨d, t, h1, h2⟩ := loopLine_inv h hq
    show ∃ t, proceed .loop (loopLine Config.impl l s) = .next t ∧ _
    rw [h1]
    cases d with
    | none => exact ⟨_, rfl, h2.emit rfl⟩
    | some l => exact ⟨_, rfl, h2⟩
  | drain l => exact absurd hq (hp l)

end Sys2Proof.Machine
end

