-- ==== Sys2Proof/Laws/PerInstr.lean ====
section
/-! SUPPORT. Statements about the instructions as syntax, one lemma for each constructor of `Instr`. -/

namespace Sys2Proof.Laws

/-- The header of a request selects exactly the row of its operation, whatever the operands (spec/30_encoding.md R102). -/
def HeaderSelects.Statement (i : Instr) : Prop :=
  ∃ r ∈ rows, selectRow i.header = .ok r ∧ r.op = i.opcode

theorem HeaderSelects.rbPush (item : List Byte) : HeaderSelects.Statement (.rbPush item) :=
  ⟨⟨.rbPush, 0x0000, 0xFFFF⟩, by decide, (by decide : selectRow 0x0000 = .ok ⟨.rbPush, 0x0000, 0xFFFF⟩), rfl⟩

theorem HeaderSelects.rbPend : HeaderSelects.Statement .rbPend :=
  ⟨⟨.rbPend, 0x0100, 0xFFFF⟩, by decide, rfl, rfl⟩

theorem HeaderSelects.rbPeek : HeaderSelects.Statement .rbPeek :=
  ⟨⟨.rbPeek, 0x0200, 0xFFFF⟩, by decide, rfl, rfl⟩

theorem HeaderSelects.rbAdv : HeaderSelects.Statement .rbAdv :=
  ⟨⟨.rbAdv, 0x0300, 0xFFFF⟩, by decide, rfl, rfl⟩

theorem HeaderSelects.rbPop : HeaderSelects.Statement .rbPop :=
  ⟨⟨.rbPop, 0x0400, 0xFFFF⟩, by decide, rfl, rfl⟩

theorem HeaderSelects.ctxEnq (frame : FrameRecord) : HeaderSelects.Statement (.ctxEnq frame) :=
  ⟨⟨.ctxEnq, 0x1000, 0xFFFF⟩, by decide, (by decide : selectRow 0x1000 = .ok ⟨.ctxEnq, 0x1000, 0xFFFF⟩), rfl⟩

theorem HeaderSelects.ctxProc : HeaderSelects.Statement .ctxProc :=
  ⟨⟨.ctxProc, 0x1100, 0xFFFF⟩, by decide, rfl, rfl⟩

theorem HeaderSelects.busEn : HeaderSelects.Statement .busEn :=
  ⟨⟨.busEn, 0x2000, 0xFFFF⟩, by decide, rfl, rfl⟩

theorem HeaderSelects.busDis : HeaderSelects.Statement .busDis :=
  ⟨⟨.busDis, 0x2100, 0xFFFF⟩, by decide, rfl, rfl⟩

theorem HeaderSelects.busRate (r : BitVec 4) : HeaderSelects.Statement (.busRate r) := by
  have h : ∀ r : BitVec 4, selectRow (0x220#12 ++ r) = .ok ⟨.busRate, 0x2200, 0xFFF0⟩ := by decide
  exact ⟨⟨.busRate, 0x2200, 0xFFF0⟩, by decide, h r, rfl⟩

theorem HeaderSelects.busSilent (b : Bool) : HeaderSelects.Statement (.busSilent b) := by
  cases b <;> exact ⟨⟨.busSilent, 0x2300, 0xFFFE⟩, by decide, rfl, rfl⟩

theorem HeaderSelects.busArtx (a : Bool) : HeaderSelects.Statement (.busArtx a) := by
  cases a <;> exact ⟨⟨.busArtx, 0x2400, 0xFFFE⟩, by decide, rfl, rfl⟩

theorem HeaderSelects.crxPend : HeaderSelects.Statement .crxPend :=
  ⟨⟨.crxPend, 0x3000, 0xFFFF⟩, by decide, rfl, rfl⟩

theorem HeaderSelects.crxRecv : HeaderSelects.Statement .crxRecv :=
  ⟨⟨.crxRecv, 0x3100, 0xFFFF⟩, by decide, rfl, rfl⟩

theorem HeaderSelects.crxOvf : HeaderSelects.Statement .crxOvf :=
  ⟨⟨.crxOvf, 0x3200, 0xFFFF⟩, by decide, rfl, rfl⟩

theorem HeaderSelects.urxChunk (bytes : List Byte) : HeaderSelects.Statement (.urxChunk bytes) :=
  ⟨⟨.urxChunk, 0x4000, 0xFFFF⟩, by decide, (by decide : selectRow 0x4000 = .ok ⟨.urxChunk, 0x4000, 0xFFFF⟩), rfl⟩

theorem HeaderSelects.urxDrain : HeaderSelects.Statement .urxDrain :=
  ⟨⟨.urxDrain, 0x4100, 0xFFFF⟩, by decide, rfl, rfl⟩

theorem HeaderSelects.utxSend (bytes : List Byte) : HeaderSelects.Statement (.utxSend bytes) :=
  ⟨⟨.utxSend, 0x5000, 0xFFFF⟩, by decide, (by decide : selectRow 0x5000 = .ok ⟨.utxSend, 0x5000, 0xFFFF⟩), rfl⟩

theorem HeaderSelects.utxDone : HeaderSelects.Statement .utxDone :=
  ⟨⟨.utxDone, 0x5100, 0xFFFF⟩, by decide, rfl, rfl⟩

theorem HeaderSelects.loopIter : HeaderSelects.Statement .loopIter :=
  ⟨⟨.loopIter, 0x6000, 0xFFFF⟩, by decide, rfl, rfl⟩

end Sys2Proof.Laws
end

