-- ==== Sys2Proof/Machine/Trace.lean ====
section
/-! DEFINITION. The textual notation of a trace (spec/30_encoding.md R112): one step per line,
`agent: MNEMONIC operands -> result`, then the environment's answers used inside the step. A text is a list of
characters. Nothing of the machine rests on it. -/

namespace Sys2Proof.Machine

/-- A text. -/
abbrev Text := List Char

/-- The agent that presents requests on a port (spec/00_scope.md R7), and `P` or `C` for the two ends of a ring. -/
def traceAgent : Port → Text
  | .p => ['P']
  | .c => ['C']
  | .fgp => ['F', 'G']
  | .irqp => ['I', 'R', 'Q']
  | .envp => ['U', 'S', 'B', 'D', 'E', 'V']

/-- One hexadecimal digit. -/
def hexDigit (n : Nat) : Char := if n < 10 then Char.ofNat (48 + n) else Char.ofNat (55 + n)

/-- The hexadecimal digits of a number, at least one and at most `fuel + 1`, after those in `acc`. -/
def hexDigits : Nat → Nat → Text → Text
  | 0, n, acc => hexDigit (n % 16) :: acc
  | fuel + 1, n, acc => if n < 16 then hexDigit n :: acc else hexDigits fuel (n / 16) (hexDigit (n % 16) :: acc)

/-- A number in hexadecimal, as `0x123`. -/
def traceHex (n : Nat) : Text := '0' :: 'x' :: hexDigits 8 n []

/-- A byte in hexadecimal, always two digits. -/
def traceByte (b : Byte) : Text := ['0', 'x', hexDigit (b.toNat / 16), hexDigit (b.toNat % 16)]

/-- Texts with a separator between them. -/
def joinWith (sep : Text) : List Text → Text
  | [] => []
  | [t] => t
  | t :: u :: r => t ++ sep ++ joinWith sep (u :: r)

/-- A list of bytes, as `[0x74, 0x31]`. -/
def traceList (sep : Text) (bs : List Byte) : Text := '[' :: (joinWith sep (bs.map traceByte) ++ [']'])

/-- A byte inside a quoted string, if it can stand there: printable ASCII, `\r` for 0x0D, `\a` for 0x07. -/
def quotedByte (b : Byte) : Option Text :=
  if b = term then some ['\\', 'r']
  else if b = nak then some ['\\', 'a']
  else if 32 ≤ b.toNat ∧ b.toNat ≤ 126 ∧ b.toNat ≠ 34 ∧ b.toNat ≠ 92 then some [Char.ofNat b.toNat]
  else none

/-- A byte string: quoted where every byte can stand in quotes, else a list. -/
def traceBytes (bs : List Byte) : Text :=
  match bs.mapM quotedByte with
  | some ts => '"' :: (ts.flatten ++ ['"'])
  | none => traceList [',', ' '] bs

/-- A flag. -/
def traceFlag (b : Bool) : Text := if b then ['1'] else ['0']

/-- A boolean answer or result. -/
def traceBool (b : Bool) : Text := if b then "true".toList else "false".toList

/-- A frame, with its valid payload bytes only; 123 and 125 are the codes of the two braces. -/
def traceFrame (f : CanFrame) : Text :=
  Char.ofNat 123 :: ("id=".toList ++ traceHex f.header.id.toNat ++ ", ext=".toList ++ traceFlag f.header.ext ++
    ", rtr=".toList ++ traceFlag f.header.rtr ++ ", dlc=".toList ++ [hexDigit f.header.dlc.toNat] ++
    ", data=".toList ++ traceList [','] f.data ++ [Char.ofNat 125])

/-- The name of a rate code, or the code where it names no rate (R103). -/
def traceRate (r : BitVec 4) : Text :=
  match r.toNat with
  | 0 => "RATE_10K".toList
  | 1 => "RATE_20K".toList
  | 2 => "RATE_50K".toList
  | 3 => "RATE_100K".toList
  | 4 => "RATE_125K".toList
  | 5 => "RATE_250K".toList
  | 6 => "RATE_500K".toList
  | 7 => "RATE_750K".toList
  | 8 => "RATE_1000K".toList
  | n => traceHex n

/-- An item of the stand-alone ring: a single byte as a number (spec/95_test_vectors.md P1), else a list. -/
def traceItem : List Byte → Text
  | [b] => traceByte b
  | bs => traceList [',', ' '] bs

/-- The operands of a request. -/
def traceOperands : Instr → List Text
  | .rbPush item => [traceItem item]
  | .ctxEnq f => [traceFrame ⟨f.header, f.data.toList.take f.header.dlc.toNat⟩]
  | .busRate r => [traceRate r]
  | .busSilent s => [traceFlag s]
  | .busArtx a => [traceFlag a]
  | .urxChunk bs => [traceBytes bs]
  | .utxSend bs => [traceBytes bs]
  | .rbPend => []
  | .rbPeek => []
  | .rbAdv => []
  | .rbPop => []
  | .ctxProc => []
  | .busEn => []
  | .busDis => []
  | .crxPend => []
  | .crxRecv => []
  | .crxOvf => []
  | .urxDrain => []
  | .utxDone => []
  | .loopIter => []

/-- A result with what it carries (R108). -/
def traceResult : Result → Text
  | .ok => "OK".toList
  | .okBool b => "OK ".toList ++ traceBool b
  | .okItem item => "OK ".toList ++ traceItem item
  | .okFrame f => "OK ".toList ++ traceFrame f
  | .full => "FULL".toList
  | .busy => "BUSY".toList
  | .tooLong => "TOOLONG".toList
  | .hwError => "HWERROR".toList
  | .empty => "EMPTY".toList

/-- One line of a trace; `answers` are the environment's, as pairs of a name and a value. -/
def traceLine (i : Instr) (r : Result) (answers : List (Text × Text)) : Text :=
  traceAgent i.port ++ ": ".toList ++ joinWith [' '] (i.opcode.mnemonic.toList :: traceOperands i) ++ " -> ".toList ++
    traceResult r ++
    match answers with
    | [] => []
    | _ => " with ".toList ++ joinWith [',', ' '] (answers.map fun p => p.1 ++ '=' :: p.2)

end Sys2Proof.Machine
end

