-- ==== Sys2Proof/Tests/Slice0.lean ====
section
/-! SUPPORT. The model's own tests: one word of each operation decoded, the refusals, one step of each operation on the
vectors of spec/95_test_vectors.md, and for every statement with hypotheses a state that meets them. -/

namespace Sys2Proof.Tests

open Sys2Proof.Machine

/-! ### The example implementation of spec/95_test_vectors.md, and small states -/

/-- The example parameters: `N = 4`, items of one byte, `N_RX = 4`, the sizes 8, `CNT_W = 32`, `SILENT_RESET = 0`, `ARTX_RESET = 1`; the stub
parser accepts every line and issues nothing, the stub formatter is that of section 3.7. -/
def ex : Config where
  ringExtra := 2
  itemSize := 1
  nRxExtra := 2
  appExtra := 7
  mtuExtra := 7
  txBufExtra := 7
  cntW := 32
  silentReset := false
  artxReset := true
  prescalerOf r := 100 + (rateCode r).toNat
  parse _ := ([], true)
  format _ := [0x74, 0x0D]
  drawMailboxes _ := 0
  drawAccept _ := false
  drawNonempty _ := false
  drawPop _ := none
  freeByte _ _ _ := 0xEE
  freeHeader _ _ := ⟨0, false, false, 15⟩
  freeLen _ _ := 99
  freeItem _ _ := [0xEE]
  freeFullFlag _ := false

/-- The reset state of the example implementation. -/
def s0 : State := State.initial ex [] Answers.none 0 []

/-- The state an operation that runs leaves. -/
def after {α : Type} (s : State) : Except Fault (α × State) → State
  | .ok (_, t) => t
  | .error _ => s

/-- What an operation that runs answers. -/
def answerOf {α : Type} : Except Fault (α × State) → Option α
  | .ok (r, _) => some r
  | .error _ => none

/-- `n` micro-steps of a URX.DRAIN in the example implementation. -/
def drain : Nat → State → State
  | 0, s => s
  | n + 1, s =>
    match s.pos with
    | .rest => drain n { (drainBegin s).2 with pos := ((drainBegin s).1.map .drain).getD .rest }
    | .drain l =>
      match drainLine ex l s with
      | .ok (d, t) => drain n { t with pos := (d.map .drain).getD .rest }
      | .error _ => s
    | .loop _ => s

/-- `n` micro-steps of a LOOP.ITER in the example implementation. -/
def iterate : Nat → State → State
  | 0, s => s
  | n + 1, s =>
    match (match s.pos with | .loop l => loopLine ex l s | _ => loopBegin ex s) with
    | .ok (d, t) => iterate n { t with pos := (d.map .loop).getD .rest }
    | .error _ => s

/-- The frame `id = 0x123, dlc = 2, data = AA BB` of vector E20. -/
def recE20 : FrameRecord := ⟨⟨0x123, false, false, 2⟩, #v[0xAA, 0xBB, 0, 0, 0, 0, 0, 0]⟩

/-- The frame `F(k)` of section 3.2. -/
def frameF (k : Byte) : CanFrame := ⟨⟨0x001, false, false, 1⟩, [k]⟩

/-! ### Well-formed requests: each check refuses an ill-formed one -/

theorem test_wf_refuses_dlc_nine : (Instr.ctxEnq ⟨⟨0x100, false, false, 9⟩, recE20.data⟩).wf 1 = false := by decide
theorem test_wf_refuses_long_standard_id : (Instr.ctxEnq ⟨⟨0x800, false, false, 0⟩, recE20.data⟩).wf 1 = false := by decide
theorem test_wf_admits_long_extended_id : (Instr.ctxEnq ⟨⟨0x800, true, false, 8⟩, recE20.data⟩).wf 1 = true := by decide
theorem test_wf_refuses_rate_nine : (Instr.busRate 9).wf 1 = false ∧ (Instr.busRate 8).wf 1 = true := by decide
theorem test_wf_refuses_item_of_another_size : (Instr.rbPush [1, 2]).wf 1 = false ∧ (Instr.rbPush []).wf 1 = false ∧
    (Instr.rbPush [1]).wf 1 = true := by decide
theorem test_wf_refuses_short_payload : CanFrame.wf ⟨⟨0x100, false, false, 2⟩, [1]⟩ = false := by decide
theorem test_wf_refuses_length_of_seventeen_bits :
    (Instr.urxChunk (List.replicate (2 ^ 16) 0)).wf 1 = false ∧ (Instr.utxSend (List.replicate (2 ^ 16) 0)).wf 1 = false := by
  simp only [Instr.wf, List.length_replicate]; decide

/-! ### Decoding: one request of each operation, its bytes written out from spec/30_encoding.md R97 to R102 -/

theorem test_decode_rb : decode 1 [0x00, 0x00, 0xA1] = .ok (.rbPush [0xA1], []) ∧ decode 1 [0x00, 0x01] = .ok (.rbPend, []) ∧
    decode 1 [0x00, 0x02] = .ok (.rbPeek, []) ∧ decode 1 [0x00, 0x03] = .ok (.rbAdv, []) ∧
    decode 1 [0x00, 0x04] = .ok (.rbPop, []) := by decide
theorem test_decode_ctx :
    decode 1 [0x00, 0x10, 0x23, 0x01, 0x00, 0x00, 0x02, 0xAA, 0xBB, 0, 0, 0, 0, 0, 0] = .ok (.ctxEnq recE20, []) ∧
    decode 1 [0x00, 0x11] = .ok (.ctxProc, []) := by decide
theorem test_decode_frame_e21 :
    decodeFrame [0xF0, 0xDE, 0xBC, 0x7A, 0, 0, 0, 0, 0, 0, 0, 0, 0] =
      .ok (⟨⟨0x1ABCDEF0, true, true, 0⟩, #v[0, 0, 0, 0, 0, 0, 0, 0]⟩, []) := by decide
theorem test_decode_frame_e22 :
    decodeFrame [0xFF, 0x07, 0, 0, 0x08, 1, 2, 3, 4, 5, 6, 7, 8] =
      .ok (⟨⟨0x7FF, false, false, 8⟩, #v[1, 2, 3, 4, 5, 6, 7, 8]⟩, []) := by decide
theorem test_decode_bus : decode 1 [0x00, 0x20] = .ok (.busEn, []) ∧ decode 1 [0x00, 0x21] = .ok (.busDis, []) ∧
    decode 1 [0x06, 0x22] = .ok (.busRate 6, []) ∧ decode 1 [0x01, 0x23] = .ok (.busSilent true, []) ∧
    decode 1 [0x00, 0x24] = .ok (.busArtx false, []) := by decide
theorem test_decode_crx : decode 1 [0x00, 0x30] = .ok (.crxPend, []) ∧ decode 1 [0x00, 0x31] = .ok (.crxRecv, []) ∧
    decode 1 [0x00, 0x32] = .ok (.crxOvf, []) := by decide
theorem test_decode_urx :
    decode 1 [0x00, 0x40, 0x06, 0x00, 0x74, 0x31, 0x30, 0x30, 0x30, 0x0D] =
      .ok (.urxChunk [0x74, 0x31, 0x30, 0x30, 0x30, 0x0D], []) ∧
    decode 1 [0x00, 0x40, 0x00, 0x00] = .ok (.urxChunk [], []) ∧ decode 1 [0x00, 0x41] = .ok (.urxDrain, []) := by decide
theorem test_decode_utx : decode 1 [0x00, 0x50, 0x01, 0x00, 0x0D] = .ok (.utxSend [0x0D], []) ∧
    decode 1 [0x00, 0x51] = .ok (.utxDone, []) ∧ decode 1 [0x00, 0x60] = .ok (.loopIter, []) := by decide
/-- Vectors E13 to E16: a reserved family, an unlisted function, a bit set outside the operand bits. -/
theorem test_decode_refuses_reserved : decode 1 [0x00, 0x70] = .error .reservedFamily ∧
    decode 1 [0x00, 0x05] = .error .reservedFunction ∧ decode 1 [0x01, 0x11] = .error .reservedArg ∧
    decode 1 [0x02, 0x23] = .error .reservedArg := by decide
theorem test_decode_refuses_frame_bits :
    decodeFrame [0, 0, 0, 0x80, 0, 0, 0, 0, 0, 0, 0, 0, 0] = .error .reservedFrameBits ∧
    decodeFrame [0, 0, 0, 0, 0x10, 0, 0, 0, 0, 0, 0, 0, 0] = .error .reservedFrameBits := by decide
theorem test_decode_refuses_truncated : decode 1 [0x00] = .error .truncated ∧
    decode 2 [0x00, 0x00, 0xA1] = .error .truncated ∧ decode 1 [0x00, 0x00, 0xA1, 0xB2] = .ok (.rbPush [0xA1], [0xB2]) ∧
    decode 1 [0x00, 0x50, 0x02, 0x00, 0x0D] = .error .truncated ∧ decode 1 [0x00, 0x10, 0x23] = .error .truncated := by decide
theorem test_table_word : decodeTableWord 16 0x2301 = some (.busSilent true) ∧ decodeTableWord 16 0x7000 = none := by
  decide
/-- The one row whose length the kernel cannot evaluate, the size of `T` being open: its item is zeros, as many as it takes. -/
theorem test_table_item : decodeTableWord 16 0 = some (.rbPush (List.replicate Config.impl.itemSize 0)) := by
  have h : tableBytes 16 0 = 0 :: 0 :: List.replicate (13 + Config.impl.itemSize) 0 := by
    rw [← List.replicate_append_replicate]; rfl
  have hs : selectRow (word16 0 0) = .ok ⟨.rbPush, 0x0000, 0xFFFF⟩ := by decide
  rw [decodeTableWord, h, decode, hs]
  have hl : Config.impl.itemSize ≤ 13 + Config.impl.itemSize := Nat.le_add_left _ _
  simp [decodeOp, decodeItem, hl]
/-- `IDX_W(N)`: 5 bits for 28 slots, at least 1, and no more than the range takes (R9). -/
theorem test_index_width : idxW 28 = 5 ∧ idxW 4 = 2 ∧ idxW 2 = 1 ∧ idxW 5 = 3 ∧ idxW 1 = 1 ∧ clog2 (8 + 1) = 4 ∧
    advanceIndex 28 27 = 0 ∧ advanceIndex 28 26 = 27 := by decide
theorem test_codes : resultCode .full = 1 ∧ resultCode .empty = 5 ∧ eventCode .usbLineOverflow = 5 ∧
    phaseCode .pUsbRx = 2 ∧ busStateCode .on = 1 ∧ rateOf 8 = some .rate1000K := by decide

/-! ### Family RB -/

/-- Vectors RB4 and RB5: a full ring; the wrap of the head. -/
theorem test_rb_push :
    answerOf (rbPush ex [0xD4] { s0 with q := ⟨3, 0, []⟩ }) = some .full ∧
    (after s0 (rbPush ex [0xD4] { s0 with q := ⟨3, 1, []⟩ })).q = ⟨0, 1, [(3, [0xD4])]⟩ := by decide
/-- Vectors RB6 and RB7. -/
theorem test_rb_pend : (rbPend { s0 with q := ⟨2, 2, []⟩ }).1 = .okBool false ∧
    (rbPend { s0 with q := ⟨0, 3, []⟩ }).1 = .okBool true := by decide
/-- Vector RB8: the peek, and the wrap of the tail. -/
theorem test_rb_peek_adv : answerOf (rbPeek ex { s0 with q := ⟨1, 3, [(3, [0x55])]⟩ }) = some (.okItem [0x55]) ∧
    (rbAdvance ex { s0 with q := ⟨1, 3, [(3, [0x55])]⟩ }).q.tail = 0 := by decide
/-- Vector RB9: first in, first out, then empty. -/
theorem test_rb_pop : answerOf (rbPop ex { s0 with q := ⟨3, 0, [(0, [0xA1]), (1, [0xB2])]⟩ }) = some (.okItem [0xA1]) ∧
    answerOf (rbPop ex { s0 with q := ⟨3, 3, []⟩ }) = some .empty := by decide
/-- Vectors RB10 and RB11. -/
theorem test_rb_empty_is_refused : exec .rbPeek State.reset = .refused .emptyRing ∧
    exec .rbAdv State.reset = .refused .emptyRing := ⟨rfl, rfl⟩
/-- An item one byte longer than `T`. -/
theorem test_rb_push_other_size :
    exec (.rbPush (List.replicate (Config.impl.itemSize + 1) 0)) State.reset = .refused .badLength := by
  simp [exec, execRbPush]

/-! ### Family CTX -/

/-- Vectors CT1 and CT4: only the bytes that the frame has are written. -/
theorem test_ctx_enq_writes :
    (let t := after s0 (ctxEnq ex (frameOf recE20) { s0 with ctxHead := 27, ctxTail := 27, ctxData := [(218, 3)] })
     (t.ctxHead, t.ctxHdr, t.ctxData) = (0, [(27, recE20.header)], [(216, 0xAA), (217, 0xBB), (218, 3)])) := by decide
/-- Vector CT3. -/
theorem test_ctx_enq_full :
    (let t := after s0 (ctxEnq ex (frameF 9) { s0 with ctxHead := 2, ctxTail := 3 })
     (t.evt.canQueueFull, t.ctxHead, t.ctxTail, t.ctxHdr) = (1, 2, 3, [])) := by decide
/-- Vector CT8: a rejected frame is gone and counted; what was submitted is `F(1)` without stale bytes. -/
theorem test_ctx_proc_reject :
    (let t := after s0 (ctxProc ex { s0 with
       ctxHead := 7, ctxTail := 6, ctxHdr := [(6, (frameF 1).header)], ctxData := [(48, 1), (49, 2)]
       answers := ⟨[3], [false], [], [], 0⟩ })
     (t.ctxTail, t.evt.canTxHardwareReject, t.log) = (7, 1, [.canSubmit (frameF 1) false])) := by decide
/-- Vector CT6: with no free mailbox nothing is submitted. -/
theorem test_ctx_proc_no_mailbox :
    (let t := after s0 (ctxProc ex { s0 with ctxHead := 7, ctxTail := 6, answers := ⟨[0], [true], [], [], 0⟩ })
     (t.ctxTail, t.log, t.answers.accepts) = (6, [], [true])) := by decide

/-! ### Family BUS -/

/-- Vector BU3: the three calls, in order. -/
theorem test_bus_en : (busEn { s0 with busPresc := 106, busSilent := true }).log =
    [.canStart, .canFilterPassAll, .canConfig 106 true true] ∧ (busEn s0).busState = .on := by decide
/-- Vectors BU8 and BU9. -/
theorem test_bus_dis : (busDis { s0 with busState := .on }).log = [.canReset] ∧ busDis s0 = s0 := by decide
/-- Vectors BU1 and BU5. -/
theorem test_bus_rate : (busRate ex .rate500K s0).busPresc = 106 ∧
    (busRate ex .rate1000K { s0 with busState := .on }).busPresc = 104 := by decide
/-- Vectors BU6 and BU7, and the same while `Off`. -/
theorem test_bus_silent_artx : (busSilent true { s0 with busState := .on }).busSilent = false ∧
    (busArtx false { s0 with busState := .on }).busArtx = true ∧ (busSilent true s0).busSilent = true ∧
    (busArtx false s0).busArtx = false := by decide
/-- Vector E12. -/
theorem test_bus_rate_reserved : exec (.busRate 9) State.reset = .refused .reservedRate := rfl

/-! ### Family CRX -/

/-- Vectors CR1 and CR3. -/
theorem test_crx_pend : (crxPend ex { s0 with answers := ⟨[], [], [true], [], 0⟩ }).1 = false ∧
    (crxPend ex { s0 with busState := .on, answers := ⟨[], [], [true], [], 0⟩ }).1 = true := by decide
/-- Vectors CR4 and CR5. -/
theorem test_crx_recv :
    (crxRecv ex { s0 with answers := ⟨[], [], [], [some ⟨frameF 7, by decide⟩], 0⟩ }).1 = .okFrame (frameF 7) ∧
    (crxRecv ex { s0 with answers := ⟨[], [], [], [none], 0⟩ }).1 = .hwError := by decide
/-- Vectors CR6 and CR7: the counter wraps at `2^CNT_W`. -/
theorem test_crx_ovf : (crxOvf ex { s0 with evt := ⟨0, 0, 4, 0, 0, 0⟩ }).evt = ⟨0, 0, 5, 0, 0, 0⟩ ∧
    (crxOvf { ex with cntW := 2 } { s0 with evt := ⟨0, 0, 3, 0, 0, 0⟩ }).evt.canRxFifoOverflow = 0 := by decide

/-! ### Family URX -/

/-- Vector UR2: a full ring; the chunk's bytes lie in the armed slot, nothing is recorded. -/
theorem test_urx_chunk_full :
    (let t := after s0 (urxChunk ex 3 [0x78, 0x79] { s0 with urxHead := 3, urxTail := 0, urxArmed := some 3 })
     (t.urxMem, t.urxLen, t.urxHead, t.urxArmed, t.evt.usbRxBufferFull, t.log) =
       ([(24, 0x78), (25, 0x79)], [], 3, some 3, 1, [.usbArm 3])) := by decide
/-- Vector UR3: the wrap of the head. -/
theorem test_urx_chunk_captured :
    (let t := after s0 (urxChunk ex 3 [0x7A] { s0 with urxHead := 3, urxTail := 1, urxArmed := some 3 })
     (t.urxMem, t.urxLen, t.urxHead, t.urxArmed) = ([(24, 0x7A)], [(3, 1)], 0, some 0)) := by decide
/-- Vector UR19. -/
theorem test_urx_chunk_before_boot : exec (.urxChunk []) State.reset = .refused .notArmed := rfl
/-- Vector UR13: two terminators in one chunk; the second reply meets a busy gate. One micro-step opens the scan, seven scan
each byte, three end the drain. -/
theorem test_urx_drain_two_replies :
    (let t := drain 18 { s0 with urxHead := 1, urxArmed := some 1, urxLen := [(0, 2)], urxMem := [(0, 0x0D), (1, 0x0D)] }
     (t.pos, t.urxTail, t.urxScan, t.lineIdx, t.evt.usbTxBusy, t.log) =
       (.rest, 1, false, 0, 1, [.parse [], .usbStartTx [0x0D], .parse []])) := by decide
/-- One line cut over two chunks reaches the parser whole, once (vector UR7). -/
theorem test_urx_drain_line_over_two_chunks :
    (let t := drain 27 { s0 with
       urxHead := 2, urxArmed := some 2, urxLen := [(0, 2), (1, 1)], urxMem := [(0, 0x74), (1, 0x31), (8, 0x0D)] }
     (t.pos, t.urxTail, t.lineIdx, t.log) =
       (.rest, 2, 0, [.usbStartTx [0x0D], .parse [0x74, 0x31]])) := by decide
/-- Vector UR14, with the UTX.DONE between the parsing of the second line and its reply. -/
theorem test_urx_drain_reply_after_completion :
    (let s := drain 12 { s0 with urxHead := 1, urxArmed := some 1, urxLen := [(0, 2)], urxMem := [(0, 0x0D), (1, 0x0D)] }
     let t := drain 6 { s with utxBusy := false }
     (s.pos, s.utxBusy, t.pos, t.evt.usbTxBusy, t.log) = (.drain (.reply true), true, .rest, 0,
       [.usbStartTx [0x0D], .parse [], .usbStartTx [0x0D], .parse []])) := by decide
/-- Vector UR8: `SLCAN_MTU + 1` bytes overflow once; no call of the parser, nothing sent. -/
theorem test_urx_scan_overflow :
    (let t := after s0 ((scanAll { ex with mtuExtra := 3 } [0x31, 0x32, 0x33, 0x34, 0x35] s0).map fun t => ((), t))
     (t.lineIdx, t.evt.usbLineOverflow, t.log, t.lineMem) =
       (0, 1, [], [(0, 0x31), (1, 0x32), (2, 0x33), (3, 0x34)])) := by decide

/-! ### Family UTX -/

/-- Vectors UT2 and UT3. -/
theorem test_utx_send_turned_away :
    (utxSend ex (List.replicate 9 0) s0).1 = .tooLong ∧
    (let r := utxSend ex [0x63] { s0 with utxBusy := true, utxLen := 2 }
     (r.1, r.2.evt.usbTxBusy, r.2.utxLen) = (.busy, 1, 2)) := by decide
/-- Vector UT8: bytes beyond the new ones keep their values. -/
theorem test_utx_send_ok :
    (let t := (utxSend ex [0x0D] { s0 with utxMem := [(0, 1), (1, 2)] }).2
     (t.utxMem, t.utxLen, t.utxBusy, t.log) = ([(0, 0x0D), (1, 2)], 1, true, [.usbStartTx [0x0D]])) := by decide
/-- Vectors UT5 and UT6. -/
theorem test_utx_done : exec .utxDone State.reset = .refused .noTransmission ∧
    exec .utxDone { State.reset with utxBusy := true } = .next (State.reset.emit (.result .envp .ok)) := ⟨rfl, rfl⟩

/-! ### LOOP.ITER -/

/-- Vector LO2: part 2 takes the gate with the formatted frame, in its lines 3 to 8. -/
theorem test_loop_part_two :
    (let t := iterate 8 { s0 with busState := .on, answers := ⟨[], [], [true], [some ⟨frameF 7, by decide⟩], 0⟩ }
     (t.pos, t.utxMem, t.utxBusy, t.log) =
       (.loop .toUsbRx, [(0, 0x74), (1, 0x0D)], true, [.usbStartTx [0x74, 0x0D], .format (frameF 7)])) := by decide
/-- Vector LO1: with nothing to do the phase goes round, and nothing else changes. -/
theorem test_loop_phases :
    (iterate 2 s0).fgPhase = .pCanRx ∧ (iterate 5 s0).fgPhase = .pUsbRx ∧ (iterate 7 s0).fgPhase = .pTx ∧
    iterate 8 s0 = s0 := by decide

/-! ### The ports and the step -/

/-- Vector E17: a header on a port that does not accept it. -/
theorem test_wrong_port : present .fgp [0x00, 0x40, 0x00, 0x00] State.reset = .refused .wrongPort := rfl
theorem test_overlong_request : present .fgp [0x00, 0x20, 0x00] State.reset = .refused .badLength := rfl
/-- The boot arm is the foreground's first step after reset, and does nothing else. -/
theorem test_boot : step State.reset = .next { State.reset with urxArmed := some 0, log := [.usbArm 0] } := rfl
/-- An opcode-table word is what the next step runs. -/
theorem test_fetch_word : step (State.reset.withFetchWord 16 0x2000) = exec .busEn State.reset := rfl

/-! ### Traces (spec/30_encoding.md R112) -/

theorem test_trace_answers :
    traceLine .ctxProc .ok [("free_mailboxes".toList, ['1']), ("accept".toList, traceBool true)] =
      "FG: CTX.PROC -> OK with free_mailboxes=1, accept=true".toList := by decide
theorem test_trace_chunk : traceLine (.urxChunk [0x74, 0x31, 0x0D]) .ok [] = "IRQ: URX.CHUNK \"t1\\r\" -> OK".toList := by
  decide

/-! ### States that meet the hypotheses of the statements

Each theorem `witness_<Name>` shows, for the statement `Obligations.<Name>`, a state and operands that meet its hypotheses
together, clause by clause and at the bounds of each clause. -/

/-- An item of the size of `T`. -/
def item : List Byte := List.replicate Config.impl.itemSize 7

theorem item_size : item.length = Config.impl.itemSize := List.length_replicate

/-- A state with an item in the stand-alone ring, a frame queued, and a chunk of one terminator captured; the foreground is at
`p`, the scan, where one is open, at the chunk's first byte. -/
def live (p : Pos) : State :=
  { State.reset with
    q := ⟨1, 0, [(0, item)]⟩
    ctxHead := 1, ctxHdr := [(0, ⟨0x123, false, false, 1⟩)], ctxData := [(0, 0xAA)]
    urxHead := 1, urxMem := [(0, 0x0D)], urxLen := [(0, 1)], urxArmed := some 1
    urxScan := p.scanning, fgPhase := p.phase, pos := p }

/-- A position at no line that follows the parser's answer, appends, or follows the last byte. -/
def plain (p : Pos) : Bool := p.drainLine.all fun l => match l with
  | .run _ _ _ => false
  | .reply _ => false
  | .append _ => false
  | .advance => false
  | _ => true

theorem ringLive_one {n i : Nat} (hn : 2 ≤ n) (hi : i < n) (h : ringLive n 1 0 i = true) : i = 0 := by
  rw [ringLive_iff, ringCount_eq hi (by omega), ringCount_eq (by omega) (by omega)] at h
  simpa using h

theorem two_le_ringN (c : Config) : 2 ≤ c.ringN := Nat.le_add_left _ _
theorem two_le_nRx (c : Config) : 2 ≤ c.nRx := Nat.le_add_left _ _
theorem one_le_app (c : Config) : 1 ≤ c.app := Nat.le_add_left _ _
theorem one_le_mtu (c : Config) : 1 ≤ c.mtu := Nat.le_add_left _ _

theorem full_at_end {n : Nat} (hn : 2 ≤ n) : ringFull n (n - 1) 0 = true := by
  simp [ringFull, ringNext_eq (show n - 1 < n by omega), show n - 1 + 1 = n by omega]
theorem not_full_at_start {n : Nat} (hn : 2 ≤ n) : ringFull n 0 0 = false := by
  simp [ringFull, ringNext_eq (show 0 < n by omega), show (1 : Nat) ≠ n by omega]

/-- The state `live` meets the invariant, whatever the foreground is at. -/
theorem live_inv (p : Pos) (hp : plain p = true) : (live p).Inv Config.impl where
  q := {
    head_lt := two_le_ringN Config.impl
    tail_lt := show 0 < Config.impl.ringN from Nat.lt_of_lt_of_le (by decide) (two_le_ringN Config.impl)
    live := fun i hi h => by
      have h0 := ringLive_one (two_le_ringN Config.impl) hi h
      subst h0
      exact ⟨item, rfl, item_size⟩
    slotWf := rfl }
  ctx := {
    head_lt := show 1 < nTx from by decide
    tail_lt := show 0 < nTx from by decide
    live := fun i hi h => by
      have h0 := ringLive_one (by decide) hi h
      subst h0
      exact ⟨_, rfl, by decide, fun j hj => by
        have h1 : j = 0 := Nat.lt_one_iff.mp hj
        subst h1; rfl⟩
    hdrWf := rfl
    dataWf := rfl }
  urx := {
    head_lt := two_le_nRx Config.impl
    tail_lt := show 0 < Config.impl.nRx from Nat.lt_of_lt_of_le (by decide) (two_le_nRx Config.impl)
    live := fun i hi h => by
      have h0 := ringLive_one (two_le_nRx Config.impl) hi h
      subst h0
      exact ⟨1, rfl, one_le_app Config.impl, fun j hj => by
        have h1 : j = 0 := by omega
        subst h1
        simp [live, urxAddr, Memory.read]⟩
    armed_head := fun a h => (Option.some.inj h).symm
    unarmed := fun h => by simp [live] at h
    memWf := rfl
    lenWf := rfl }
  scan := {
    scan_eq := rfl
    phase_eq := rfl
    nonempty := fun _ h => by simp [live, State.reset, State.initial] at h
    pos_le := fun _ l _ => Nat.zero_le l
    pos_lt := fun _ l h => by
      have h1 : (1 : Nat) = l := Option.some.inj h
      subst h1; exact Nat.zero_lt_one
    done := fun h => by
      have h1 : p.drainLine = some .advance := h
      simp [plain, h1] at hp
    room := fun b h => by
      have h1 : p.drainLine = some (.append b) := h
      simp [plain, h1] at hp }
  cmds := CmdsOk.none fun l h => by
    have h1 : p.drainLine = some l := h
    cases l <;> first | rfl | simp [plain, h1] at hp
  line := { idx_le := Nat.zero_le _, written := fun k h => absurd h (Nat.not_lt_zero k), memWf := rfl }
  utx := { len_le := Nat.zero_le _, written := fun h => by simp [live, State.reset, State.initial] at h, memWf := rfl }
  evt := fun e => by cases e <;> exact Nat.two_pow_pos _

theorem live_rest_inv : (live .rest).Inv Config.impl := live_inv _ rfl
theorem live_test_inv : (live (.drain .test)).Inv Config.impl := live_inv _ rfl

/-- `live` with its chunk scanned to the end, before the tail advance. -/
def liveDone : State := { live (.drain .test) with urxPos := 1, pos := .drain .advance }

theorem liveDone_inv : liveDone.Inv Config.impl :=
  ⟨live_test_inv.q, live_test_inv.ctx, live_test_inv.urx, {
    scan_eq := rfl
    phase_eq := rfl
    nonempty := live_test_inv.scan.nonempty
    pos_le := fun _ l h => by
      have h1 : (1 : Nat) = l := Option.some.inj h
      subst h1; exact Nat.le_refl 1
    pos_lt := fun h => by simp [liveDone, Pos.inByte, Pos.drainLine, DrainLine.inByte] at h
    done := fun _ l h => by
      have h1 : (1 : Nat) = l := Option.some.inj h
      subst h1; exact Nat.le_refl 1
    room := fun b h => by simp [liveDone, Pos.drainLine] at h },
    CmdsOk.none fun l h => by cases h; rfl, live_test_inv.line, live_test_inv.utx, live_test_inv.evt⟩

theorem live_drain_runs (p : Pos) (hp : plain p = true) (hl : ∀ l, p ≠ .loop l) :
    ∃ t, exec .urxDrain (live p) = .next t := by
  obtain ⟨t, h, _⟩ := execUrxDrain_inv (live_inv p hp) hl
  exact ⟨t, h⟩
theorem live_rest_drain_runs : ∃ t, exec .urxDrain (live .rest) = .next t :=
  live_drain_runs _ rfl fun _ h => by cases h
theorem live_test_drain_runs : ∃ t, exec .urxDrain (live (.drain .test)) = .next t :=
  live_drain_runs _ rfl fun _ h => by cases h
theorem liveDone_drain_runs : ∃ t, exec .urxDrain liveDone = .next t := ⟨_, rfl⟩
theorem live_chunk_runs (p : Pos) (hp : plain p = true) : ∃ t, exec (.urxChunk []) (live p) = .next t := by
  obtain ⟨r, t, h, _⟩ := urxChunk_inv (bytes := []) (live_inv p hp) rfl (Nat.zero_le _)
  have hl : ¬ Config.impl.app < ([] : List Byte).length := by simp
  exact ⟨_, by rw [exec, execUrxChunk, if_neg hl]; show finish .irqp (urxChunk Config.impl 1 [] (live p)) = _; rw [h]; rfl⟩
theorem live_ring_runs : (∃ t, exec (.rbPush item) (live .rest) = .next t) ∧ (∃ t, exec .rbPop (live .rest) = .next t) ∧
    (∃ t, exec .rbPeek (live .rest) = .next t) ∧ ∃ t, exec .rbAdv (live .rest) = .next t := by
  obtain ⟨r, t, h, _⟩ := rbPush_inv live_rest_inv item_size
  obtain ⟨r', t', h', _⟩ := rbPop_inv live_rest_inv
  obtain ⟨r'', h''⟩ := rbPeek_inv live_rest_inv
  have he : ringEmpty (live .rest).q.head (live .rest).q.tail = false := rfl
  exact ⟨⟨_, by rw [exec, execRbPush, if_pos item_size, h]; rfl⟩, ⟨_, by rw [exec, execRbPop, h']; rfl⟩,
    ⟨_, by rw [exec, execRbPeek, he, h'']; rfl⟩, ⟨_, by rw [exec, execRbAdv, he]; rfl⟩⟩
theorem live_queue_runs : (∃ t, exec (.ctxEnq recE20) (live .rest) = .next t) ∧
    ∃ t, exec .ctxProc (live .rest) = .next t := by
  obtain ⟨r, t, h, _⟩ := ctxEnq_inv live_rest_inv (f := frameOf recE20) (by decide)
  obtain ⟨r', t', h', _⟩ := ctxProc_inv live_rest_inv
  have hw : recE20.wf = true := by decide
  exact ⟨⟨_, by rw [exec, execCtxEnq, hw, h]; rfl⟩, ⟨_, by rw [exec, execCtxProc, h']; rfl⟩⟩

/-- Some number bounds the operations that the parser issues for a line: there are finitely many lines. -/
theorem parse_bound : ∃ B, ∀ line, line.length ≤ Config.impl.mtu → (Config.impl.parse line).1.length ≤ B := by
  obtain ⟨B, h⟩ := ((List.finite_length_le Byte Config.impl.mtu).image
    fun line => (Config.impl.parse line).1.length).bddAbove
  exact ⟨B, fun line hl => h ⟨line, hl, rfl⟩⟩

theorem witness_DecodeOfEncodeIsTheRequest : (Instr.ctxEnq recE20).wf 3 = true ∧ (Instr.busRate 8).wf 3 = true ∧
    (Instr.rbPush [1, 2, 3]).wf 3 = true ∧ (Instr.utxSend (List.replicate (2 ^ 16 - 1) 0)).wf 3 = true := by
  refine ⟨by decide, by decide, by decide, ?_⟩
  simp only [Instr.wf, List.length_replicate]; decide
theorem witness_EncodeOfDecodeIsTheBytes : decode 1 [0x06, 0x22, 0x55] = .ok (.busRate 6, [0x55]) ∧
    decode 1 [0x00, 0x00, 0x55] = .ok (.rbPush [0x55], []) := by decide
theorem witness_OpcodeRowsDoNotOverlap : (⟨.busRate, 0x2200, 0xFFF0⟩ : Row) ∈ rows ∧
    (⟨.busRate, 0x2200, 0xFFF0⟩ : Row).selects 0x220F = true := by decide
theorem witness_ReservedHeadersAreRefused : 7 ≤ (famOf 0x7000).toNat ∧
    (∀ r ∈ rows, ¬ (famOf r.value = famOf 0x0500 ∧ fnOf r.value = fnOf 0x0500)) ∧
    (∃ r ∈ rows, famOf r.value = famOf 0x2302 ∧ fnOf r.value = fnOf 0x2302 ∧ (0x2302 : Header) &&& r.mask ≠ r.value) ∧
    9 ≤ (9 : BitVec 4).toNat ∧ 9 ≤ (15 : BitVec 4).toNat ∧ outstanding State.reset = none := by
  refine ⟨by decide, by decide, by decide, by decide, by decide, rfl⟩
/-- First in line on `FGP` with nothing outstanding, and on `IRQP` in the middle of a scan. -/
theorem witness_StepRunsTheDecodedRequest :
    (decode Config.impl.itemSize [0x00, 0x60] = .ok (.loopIter, []) ∧ Instr.loopIter.port = .fgp ∧
      outstanding { State.reset with inbox := [.request .fgp [0x00, 0x60]] } = none) ∧
    (decode Config.impl.itemSize [0x00, 0x32] = .ok (.crxOvf, []) ∧ Instr.crxOvf.port = .irqp) := by
  exact ⟨⟨rfl, rfl, rfl⟩, rfl, rfl⟩
theorem witness_ForegroundTakesItsTurn : State.reset.inbox = [] ∧ ({ State.reset with inbox := [.fg] } : State).inbox = .fg :: [] ∧
    outstanding (live (.drain .test)) = some .urxDrain ∧ (outstanding State.reset = none ∧ State.reset.urxArmed = none) ∧
    (outstanding (live .rest) = none ∧ (live .rest).urxArmed = some 1) := ⟨rfl, rfl, rfl, ⟨rfl, rfl⟩, rfl, rfl⟩
theorem witness_PortDisciplineIsEnforced :
    (decode Config.impl.itemSize [0x00, 0x40, 0, 0] = .ok (.urxChunk [], []) ∧ (Instr.urxChunk []).port ≠ .fgp) ∧
    (decode Config.impl.itemSize [0x00, 0x60] = .ok (.loopIter, []) ∧ Instr.loopIter.port = .fgp ∧
      (outstanding (live (.drain .test))).isSome = true) ∧
    outstanding (live (.loop .pend)) = some .loopIter ∧ outstanding (live .rest) = none := by
  refine ⟨by decide, by decide, rfl, rfl⟩
theorem witness_ResetDiscardsTheBlocksState : ({ live (.drain .test) with inbox := [.reset] } : State).inbox = .reset :: [] := rfl
theorem witness_StepKeepsTheInvariant : ∃ s t : State, s.Inv Config.impl ∧ step s = .next t :=
  ⟨{ live (.drain .test) with inbox := [.request .irqp [0x00, 0x32]] }, _, (live_test_inv).withInbox _, rfl⟩
theorem witness_EveryReachableStateIsSound :
    Host.Core.run Sys2Proof.core 2 (State.initial Config.impl [.fg, .request .irqp [0x00, 0x32]] Answers.none 0 []) =
      .next (({ State.initial Config.impl [] Answers.none 0 [.usbArm 0] with urxArmed := some 0 } : State).raise Config.impl
        .canRxFifoOverflow |>.emit (.result .irqp .ok)) := rfl
theorem witness_NoStepLeavesItsMemories : (live (.drain .test)).Inv Config.impl := live_test_inv
theorem witness_LoopNeverHalts : (live (.drain .test)).Inv Config.impl ∧ (live (.drain .test)).inbox = [] := ⟨live_test_inv, rfl⟩
theorem witness_ReadsAfterWrites : (3 : Nat) ≠ 4 ∧ 1 < [(0xAA : Byte), 0xBB].length ∧
    (3 < 4 ∨ 4 + [(0xAA : Byte), 0xBB].length ≤ 3) ∧ (6 < 4 ∨ 4 + [(0xAA : Byte), 0xBB].length ≤ 6) := by decide
theorem witness_StepKeepsMemoriesCanonical : ∃ s t : State, s.memoriesWf = true ∧ step s = .next t :=
  ⟨{ live (.drain .test) with inbox := [.request .irqp [0x00, 0x32]] }, _, rfl, rfl⟩
theorem witness_RaiseCountsOneEvent : Event.usbTxBusy ≠ Event.usbLineOverflow := by decide
theorem witness_PushWritesSlotThenHead :
    (List.replicate (Config.impl.itemSize + 1) (0 : Byte)).length ≠ Config.impl.itemSize ∧
    item.length = Config.impl.itemSize ∧
    ringFull Config.impl.ringN (Config.impl.ringN - 1) 0 = true ∧
    (ringFull Config.impl.ringN State.reset.q.head State.reset.q.tail = false ∧ State.reset.q.head < Config.impl.ringN) :=
  ⟨by simp, item_size, full_at_end (two_le_ringN _), not_full_at_start (two_le_ringN _), Nat.lt_of_lt_of_le (by decide) (two_le_ringN Config.impl)⟩
theorem witness_ConsumerInspectsReadsReleases : ringEmpty State.reset.q.head State.reset.q.tail = true ∧
    (ringEmpty (live .rest).q.head (live .rest).q.tail = false ∧ (live .rest).q.tail < Config.impl.ringN) :=
  ⟨rfl, rfl, (live_rest_inv).q.tail_lt⟩
theorem witness_RingKeepsItsDiscipline : (live .rest).Inv Config.impl ∧ (∃ t, exec (.rbPush item) (live .rest) = .next t) ∧
    (∃ t, exec .rbPop (live .rest) = .next t) ∧ ∃ t, exec .rbAdv (live .rest) = .next t :=
  ⟨live_rest_inv, live_ring_runs.1, live_ring_runs.2.1, live_ring_runs.2.2.2⟩
theorem witness_ExactlyTheFreeSlotsAreFilled : s0.q.head < ex.ringN ∧ s0.q.tail < ex.ringN ∧
    ringCount ex.ringN s0.q.head s0.q.tail + [[1], [2], [(3 : Byte)]].length = ex.ringN - 1 := by decide
theorem witness_RingIsFirstInFirstOut : (live .rest).Inv Config.impl ∧
    (∃ t, exec (.rbPush item) (live .rest) = .next t) ∧ (∃ t, exec .rbPop (live .rest) = .next t) ∧
    (∃ t, exec .rbPeek (live .rest) = .next t) ∧ ∃ t, exec .rbAdv (live .rest) = .next t :=
  ⟨live_rest_inv, live_ring_runs⟩
theorem witness_EnqueueWritesSlotThenHead : (⟨⟨0x800, false, false, 0⟩, recE20.data⟩ : FrameRecord).wf = false ∧
    (⟨⟨0, false, false, 9⟩, recE20.data⟩ : FrameRecord).wf = false ∧
    (recE20.wf = true ∧ ringFull 28 27 0 = true) ∧ (recE20.wf = true ∧ ringFull 28 27 1 = false ∧ 27 < 28) := by decide
theorem witness_ProcessSubmitsTheOldestOnce : ringEmpty State.reset.ctxHead State.reset.ctxTail = true ∧
    (ringEmpty (live .rest).ctxHead (live .rest).ctxTail = false ∧
      (drawMailboxes Config.impl { live .rest with answers := ⟨[0], [], [], [], 0⟩ }).1 = 0) ∧
    ((drawMailboxes Config.impl { live .rest with answers := ⟨[1], [], [], [], 0⟩ }).1 ≠ 0 ∧ (live .rest).ctxTail < 28) := by
  refine ⟨rfl, ⟨rfl, rfl⟩, by decide, by decide⟩
theorem witness_TwentySevenFramesFit : s0.ctxHead < 28 ∧ s0.ctxTail = s0.ctxHead ∧
    (List.replicate 27 (frameF 1)).length = 27 ∧ ∀ g ∈ List.replicate 27 (frameF 1), g.wf = true := by decide
theorem witness_TransmitQueueIsFirstInFirstOut : (live .rest).Inv Config.impl ∧
    (∃ t, exec (.ctxEnq recE20) (live .rest) = .next t) ∧ ∃ t, exec .ctxProc (live .rest) = .next t :=
  ⟨live_rest_inv, live_queue_runs⟩
theorem witness_EnableConfiguresFiltersStarts : State.reset.busState = .off ∧
    ({ State.reset with busState := .on } : State).busState = .on := ⟨rfl, rfl⟩
theorem witness_DisableResetsThePeripheral : ({ State.reset with busState := .on } : State).busState = .on ∧
    State.reset.busState = .off := ⟨rfl, rfl⟩
theorem witness_EnableAndDisableAreIdempotent : (∃ t, exec .busEn State.reset = .next t) ∧
    ∃ t, exec .busDis { State.reset with busState := .on } = .next t := ⟨⟨_, rfl⟩, _, rfl⟩
theorem witness_SettingsAreWrittenWhileOff : State.reset.busState = .off ∧ rateOf 0 = some .rate10K ∧
    rateOf 8 = some .rate1000K := ⟨rfl, by decide, by decide⟩
theorem witness_SettingsAreIgnoredWhileOn : ({ State.reset with busState := .on } : State).busState = .on ∧
    rateOf 8 = some .rate1000K := ⟨rfl, by decide⟩
theorem witness_SettingsAreFrozenWhileOn :
    (∃ (s t : State) (new : List Obs), step s = .next t ∧ s.inbox.head? ≠ some .reset ∧ t.log = new ++ s.log ∧
      .canReset ∉ new ∧ s.busState = .on) ∧
    ∃ t, Host.Core.run Sys2Proof.core 1 (State.initial Config.impl [.request .fgp [0x00, 0x20]] Answers.none 0 []) = .next t ∧
      t.busState = .on :=
  ⟨⟨{ State.reset with busState := .on, inbox := [.request .irqp [0x00, 0x32]] }, _, [.result .irqp .ok], rfl, by decide, rfl,
    by decide, rfl⟩, _, rfl, rfl⟩
/-- An operation that leaves the bus alone; a micro-step of a drain that moves it; and, the parser of the implementation being
unknown, that wherever it issues an operation for the empty line, a state that meets the invariant stands before it. -/
theorem witness_OnlyTheControllerMovesTheBus : (∃ t, exec .crxOvf State.reset = .next t ∧ Instr.crxOvf ≠ .busEn ∧
      Instr.crxOvf ≠ .busDis ∧ Instr.crxOvf ≠ .urxDrain ∧ Instr.crxOvf ≠ .loopIter ∧ ∀ r, Instr.crxOvf ≠ .busRate r) ∧
    (∃ t, exec .urxDrain { State.reset with pos := .drain (.run .en [] true) } = .next t ∧ t.busState ≠ .off) ∧
    ∀ cmd rest, (Config.impl.parse []).1 = cmd :: rest →
      ∃ s : State, s.Inv Config.impl ∧ s.pos.drainLine = some (.run cmd rest (Config.impl.parse []).2) := by
  refine ⟨⟨_, rfl, by decide, by decide, by decide, by decide, fun _ h => by cases h⟩, ⟨_, rfl, by decide⟩,
    fun cmd rest h => ?_⟩
  obtain ⟨d, t, h1, h2⟩ := drainLine_inv (live_inv (.drain .parse) rfl) (l := .parse) rfl
  obtain ⟨_, h3, _⟩ := drainLine_cases h1
  have h4 : lineOf Config.impl (live (.drain .parse)) = [] := rfl
  rw [h4, h] at h3
  exact ⟨_, h2 (.drain (.run cmd rest (Config.impl.parse []).2)) h3.symm rfl, rfl⟩
theorem witness_ReceivePathAnswersForThePeripheral : State.reset.busState = .off ∧
    ({ State.reset with busState := .on } : State).busState = .on ∧
    (drawPop Config.impl { State.reset with answers := ⟨[], [], [], [some ⟨frameF 7, by decide⟩], 0⟩ }).1 =
      some ⟨frameF 7, by decide⟩ ∧
    (drawPop Config.impl { State.reset with answers := ⟨[], [], [], [none], 0⟩ }).1 = none := ⟨rfl, rfl, rfl, rfl⟩
theorem witness_FifoOverflowIsOnlyCounted : (∃ t, exec .busEn State.reset = .next t) ∧ Instr.busEn ≠ .crxOvf ∧
    exec .utxDone State.reset = .refused .noTransmission := ⟨⟨_, rfl⟩, by decide, rfl⟩
/-- Too long by one byte; before the boot arm; a full ring; a chunk of exactly `APP_RX_DATA_SIZE` bytes that finds room. -/
theorem witness_ChunkIsCapturedOrLostWhole :
    Config.impl.app < (List.replicate (Config.impl.app + 1) (0 : Byte)).length ∧
    State.reset.urxArmed = none ∧
    (Config.impl.nRx - 1 < Config.impl.nRx ∧ ringFull Config.impl.nRx (Config.impl.nRx - 1) 0 = true) ∧
    ((List.replicate Config.impl.app (0 : Byte)).length ≤ Config.impl.app ∧ 0 < Config.impl.nRx ∧
      ringFull Config.impl.nRx 0 0 = false) := by
  have h := two_le_nRx Config.impl
  refine ⟨by simp, rfl, ⟨by omega, full_at_end h⟩, by simp, by omega, not_full_at_start h⟩
/-- A chunk, and a drain at rest, in the middle of a scan and at the tail advance. -/
theorem witness_ReceiveRingIsFirstInFirstOut : ((live (.drain .test)).Inv Config.impl ∧
      (∃ t, exec (.urxChunk []) (live (.drain .test)) = .next t) ∧ ∃ t, exec .urxDrain (live (.drain .test)) = .next t) ∧
    ((live .rest).Inv Config.impl ∧ ∃ t, exec .urxDrain (live .rest) = .next t) ∧
    (liveDone.Inv Config.impl ∧ liveDone.pos = .drain .advance ∧ ∃ t, exec .urxDrain liveDone = .next t) :=
  ⟨⟨live_test_inv, live_chunk_runs _ rfl, live_test_drain_runs⟩, ⟨live_rest_inv, live_rest_drain_runs⟩,
    liveDone_inv, rfl, liveDone_drain_runs⟩
theorem witness_ReceiveRingHoldsOneChunkLessThanSlots :
    (let s : State := { s0 with urxHead := 3, urxTail := 3, urxArmed := some 3 }
     s.urxHead < ex.nRx ∧ s.urxTail = s.urxHead ∧ s.urxArmed = some s.urxHead) ∧
    [[1], [2], [(3 : Byte)]].length = ex.nRx - 1 ∧
    ∀ x ∈ [[1], [2], [(3 : Byte)]] ++ [[], List.replicate 8 (0 : Byte)], x.length ≤ ex.app := by decide
theorem witness_DrainOpensTheTailSlot : ((live .rest).pos = .rest ∧
    ringEmpty (live .rest).urxHead (live .rest).urxTail = false) ∧
    (State.reset.pos = .rest ∧ ringEmpty State.reset.urxHead State.reset.urxTail = true) := ⟨⟨rfl, rfl⟩, rfl, rfl⟩
/-- `live`, the foreground at `p`, with a byte 0x0A before it. -/
def liveFeed (p : Pos) : State := { live p with urxMem := [(0, 0x0A)] }
theorem liveFeed_byte (p : Pos) : tailByteOf Config.impl (liveFeed p) = 0x0A := by
  simp [tailByteOf, Memory.readOr, Memory.read, urxAddr, liveFeed, live, State.reset, State.initial]
theorem liveFeed_inv : (liveFeed (.drain .test)).Inv Config.impl := by
  have h := (live_test_inv.urx.write 0 [0x0A])
  exact ⟨live_test_inv.q, live_test_inv.ctx, h, live_test_inv.scan, live_test_inv.cmds, live_test_inv.line,
    live_test_inv.utx, live_test_inv.evt⟩
/-- A line that is full: `SLCAN_MTU` bytes 0x41. -/
def fullLine : State :=
  { liveFeed (.drain .test) with
    lineIdx := Config.impl.mtu, lineMem := Memory.writeAll [] 0 (List.replicate Config.impl.mtu 0x41) }
theorem fullLine_inv : fullLine.Inv Config.impl :=
  ⟨liveFeed_inv.q, liveFeed_inv.ctx, liveFeed_inv.urx,
    { liveFeed_inv.scan with room := fun b h => by cases h },
    liveFeed_inv.cmds, {
      idx_le := Nat.le_refl _
      written := fun k hk => ⟨0x41, by
        have h := Memory.read_writeAll_inside [] 0 (List.replicate Config.impl.mtu (0x41 : Byte)) k
          (by rw [List.length_replicate]; exact hk)
        simpa [fullLine] using h, by decide⟩
      memWf := Memory.wf_writeAll rfl _ _ }, liveFeed_inv.utx, liveFeed_inv.evt⟩
/-- Each line; then the pass of a byte 0x0A before an empty line and before a full one. -/
theorem witness_ScannedByteIsAppendedOrOverflows :
    ((liveFeed (.drain .test)).pos = .drain .test ∧ (liveFeed (.drain .test)).urxTail < Config.impl.nRx) ∧
    ((liveFeed (.drain .read)).pos = .drain .read ∧ (liveFeed (.drain .read)).urxPos < Config.impl.app) ∧
    ((live (.drain (.branch 0x0D))).pos = .drain (.branch 0x0D) ∧ (0x0A : Byte) ≠ 0x0D ∧
      fullLine.lineIdx = Config.impl.mtu ∧ State.reset.lineIdx ≠ Config.impl.mtu) ∧
    (live (.drain (.append 0x0A))).lineIdx < Config.impl.mtu ∧
    (live (.drain .overflow)).pos = .drain .overflow ∧ (live (.drain .next)).pos = .drain .next ∧
    (∀ s ∈ [liveFeed (.drain .test), fullLine], s.Inv Config.impl ∧ s.pos = .drain .test ∧
      s.urxPos < tailLenOf Config.impl s ∧ tailByteOf Config.impl s ≠ 0x0D) ∧
    (liveFeed (.drain .test)).lineIdx < Config.impl.mtu ∧ fullLine.lineIdx = Config.impl.mtu := by
  have hm := one_le_mtu Config.impl
  refine ⟨⟨rfl, live_test_inv.urx.tail_lt⟩, ⟨rfl, one_le_app Config.impl⟩, ⟨rfl, by decide, rfl, ?_⟩, hm, rfl, rfl, ?_, hm, rfl⟩
  · show 0 ≠ Config.impl.mtu
    omega
  · intro s hs
    simp only [List.mem_cons, List.not_mem_nil, or_false] at hs
    have hb := liveFeed_byte (.drain .test)
    have hc : (0x0A : Byte) ≠ 0x0D := by decide
    rcases hs with rfl | rfl
    · exact ⟨liveFeed_inv, rfl, Nat.zero_lt_one, by rw [hb]; exact hc⟩
    · exact ⟨fullLine_inv, rfl, Nat.zero_lt_one, by
        show tailByteOf Config.impl (liveFeed (.drain .test)) ≠ 0x0D
        rw [hb]; exact hc⟩
/-- For the last clause of `ScannedByteIsAppendedOrOverflows`: a micro-step that stores into the line buffer. -/
theorem witness_LineIsStoredTo :
    ∃ t, exec .urxDrain (live (.drain (.append 0x0A))) = .next t ∧ t.lineMem ≠ (live (.drain (.append 0x0A))).lineMem := by
  have h : appendByte Config.impl 0x0A (live (.drain (.append 0x0A))) = _ := appendByte_ok (one_le_mtu Config.impl)
  exact ⟨_, by rw [exec]; show proceed .drain (drainLine Config.impl (.append 0x0A) (live (.drain (.append 0x0A)))) = _; rw [drainLine, h]; rfl,
    by simp [byteAppended, live, State.reset, State.initial, Memory.write]⟩
/-- Each line; each operation that a parser may issue; then the pass of a terminator. -/
theorem witness_TerminatorParsesThenReplies :
    ((live (.drain .parse)).Inv Config.impl ∧ (live (.drain .parse)).pos = .drain .parse) ∧
    ((live (.drain (.run .en [.dis] true))).pos = .drain (.run .en [.dis] true) ∧
      (live (.drain (.run .en [.dis] true))).ctxHead < 28) ∧
    (live (.drain (.reply false))).pos = .drain (.reply false) ∧ (live (.drain .clear)).pos = .drain .clear ∧
    ((∃ t, runCmd Config.impl (.enq ⟨frameOf recE20, by decide⟩) (live .rest) = .ok t) ∧ recE20.wf = true) ∧
    (∃ t, runCmd Config.impl .en State.reset = .ok t) ∧ (∃ t, runCmd Config.impl .dis State.reset = .ok t) ∧
    (∃ t, runCmd Config.impl (.rate .rate10K) State.reset = .ok t) ∧
    (∃ t, runCmd Config.impl (.silent true) State.reset = .ok t) ∧
    (∃ t, runCmd Config.impl (.artx true) State.reset = .ok t) ∧
    ((live (.drain .test)).Inv Config.impl ∧ (live (.drain .test)).pos = .drain .test ∧
      (live (.drain .test)).urxPos < tailLenOf Config.impl (live (.drain .test)) ∧
      tailByteOf Config.impl (live (.drain .test)) = 0x0D) := by
  obtain ⟨t, h, _⟩ := runCmd_inv live_rest_inv (.enq ⟨frameOf recE20, by decide⟩)
  refine ⟨⟨live_inv _ rfl, rfl⟩, ⟨rfl, by decide⟩, rfl, rfl, ⟨⟨t, h⟩, by decide⟩, ⟨_, rfl⟩, ⟨_, rfl⟩, ⟨_, rfl⟩, ⟨_, rfl⟩,
    ⟨_, rfl⟩, live_test_inv, rfl, Nat.zero_lt_one, ?_⟩
  simp [tailByteOf, Memory.readOr, Memory.read, urxAddr, live, State.reset, State.initial]
/-- The scan of slot 0 at its end, the ring full behind it: the head is the last slot, whose next one is slot 0. -/
theorem witness_DrainEndsWithTheTailAdvance :
    ((∃ t, exec .urxDrain (live .rest) = .next t) ∧ (live .rest).pos ≠ .drain .advance) ∧
    (let s : State := { live (.drain .test) with urxPos := 1 }
     s.pos = .drain .test ∧ s.urxTail < Config.impl.nRx ∧ tailLenOf Config.impl s ≤ s.urxPos) ∧
    (let last := Config.impl.nRx - 1
     let s : State := { liveDone with urxHead := last, urxArmed := some last }
     s.pos = .drain .advance ∧ s.urxTail < Config.impl.nRx ∧
       s.urxHead < Config.impl.nRx ∧ s.urxTail ≠ s.urxHead ∧ ringNext Config.impl.nRx s.urxHead = s.urxTail ∧
       s.urxArmed = some last ∧ last < Config.impl.nRx ∧
       (List.replicate Config.impl.app (0 : Byte)).length ≤ Config.impl.app) := by
  have h := two_le_nRx Config.impl
  refine ⟨⟨live_rest_drain_runs, by simp [live]⟩, ⟨rfl, live_test_inv.urx.tail_lt, Nat.le_refl 1⟩, rfl,
    live_test_inv.urx.tail_lt, show Config.impl.nRx - 1 < _ by omega,
    show 0 ≠ Config.impl.nRx - 1 by omega, ?_, rfl, show Config.impl.nRx - 1 < _ by omega, by simp⟩
  show ringNext Config.impl.nRx (Config.impl.nRx - 1) = 0
  rw [ringNext_eq (by omega), if_pos (by omega)]
/-- A bound for the parser; a drain before its first byte, and one at the tail advance. -/
theorem witness_DrainFinishesInBoundedSteps :
    (∃ B, ∀ line, line.length ≤ Config.impl.mtu → (Config.impl.parse line).1.length ≤ B) ∧
    ((live (.drain .test)).Inv Config.impl ∧ (live (.drain .test)).inbox = [] ∧
      (live (.drain .test)).pos = .drain .test) ∧
    (liveDone.Inv Config.impl ∧ liveDone.inbox = [] ∧ liveDone.pos = .drain .advance) :=
  ⟨parse_bound, ⟨live_test_inv, rfl, rfl⟩, liveDone_inv, rfl, rfl⟩
/-- The chunks of a state in which slot 0 alone is captured, of one byte. -/
theorem urxChunks_one {s : State} {b : Byte} (h1 : s.urxHead = 1) (h2 : s.urxTail = 0) (h3 : s.urxLen = [(0, 1)])
    (h4 : s.urxMem = [(0, b)]) : urxChunks Config.impl s = [[b]] ∧ slotBytes Config.impl 0 s = [b] := by
  have h := two_le_nRx Config.impl
  have hb : slotBytes Config.impl 0 s = [b] := by
    simp [slotBytes, h3, h4, Memory.readAll, Memory.readOr, Memory.read, urxAddr]
  have hc : ringSlots Config.impl.nRx 1 0 = [0] := by
    rw [ringSlots, ringCount_eq (show 1 < Config.impl.nRx from h) (show 0 < Config.impl.nRx by omega)]
    simp
  exact ⟨by simp [urxChunks, h1, h2, hc, hb], hb⟩
/-- Nineteen bytes; the one byte 0x0A of a slot, in its scan and captured before it. -/
theorem witness_OverlongLinesOverflowOncePerBufferful :
    (s0.lineIdx = 0 ∧ s0.evt.get .usbLineOverflow < 2 ^ ex.cntW ∧ ∀ b ∈ List.replicate 19 (0x41 : Byte), b ≠ term) ∧
    ((liveFeed (.drain .test)).Inv Config.impl ∧ (liveFeed (.drain .test)).pos = .drain .test ∧
      (liveFeed (.drain .test)).lineIdx = 0 ∧
      (liveFeed (.drain .test)).urxPos + 1 ≤ tailLenOf Config.impl (liveFeed (.drain .test)) ∧
      ∀ b ∈ ((slotBytes Config.impl (liveFeed (.drain .test)).urxTail (liveFeed (.drain .test))).drop
        (liveFeed (.drain .test)).urxPos).take 1, b ≠ 0x0D) ∧
    ((liveFeed .rest).Inv Config.impl ∧ (liveFeed .rest).pos = .rest ∧ (liveFeed .rest).lineIdx = 0 ∧
      ∀ b ∈ (urxChunks Config.impl (liveFeed .rest)).flatten, b ≠ 0x0D) := by
  refine ⟨by decide, ⟨liveFeed_inv, rfl, rfl, by decide, fun b hb => ?_⟩, ⟨live_rest_inv.q, live_rest_inv.ctx,
    live_rest_inv.urx.write 0 [0x0A], live_rest_inv.scan, live_rest_inv.cmds, live_rest_inv.line, live_rest_inv.utx,
    live_rest_inv.evt⟩, rfl, rfl, fun b hb => ?_⟩
  · have h := List.mem_of_mem_drop (List.mem_of_mem_take hb)
    rw [show (liveFeed (.drain .test)).urxTail = 0 from rfl, (urxChunks_one (b := 0x0A) rfl rfl rfl rfl).2] at h
    rw [List.mem_singleton.mp h]
    decide
  · rw [(urxChunks_one (b := 0x0A) rfl rfl rfl rfl).1] at hb
    rw [show b = 0x0A by simpa using hb]
    decide
/-- A line of exactly `SLCAN_MTU` bytes; the captured chunks of `live` are the empty line and its terminator. -/
theorem witness_LineReachesTheParserWhole : ((live (.drain .test)).Inv Config.impl ∧ (live (.drain .test)).lineIdx = 0 ∧
      (List.replicate Config.impl.mtu (0x41 : Byte)).length ≤ Config.impl.mtu ∧
      ∀ b ∈ List.replicate Config.impl.mtu (0x41 : Byte), b ≠ term) ∧
    ((live .rest).Inv Config.impl ∧ (live .rest).pos = .rest ∧ (live .rest).lineIdx = 0 ∧
      (urxChunks Config.impl (live .rest)).flatten = [] ++ [term]) := by
  refine ⟨⟨live_test_inv, rfl, by simp, fun b hb => ?_⟩, live_rest_inv, rfl, rfl, ?_⟩
  · rw [List.eq_of_mem_replicate hb]; decide
  · rw [(urxChunks_one (b := 0x0D) rfl rfl rfl rfl).1]
    rfl
/-- In the middle of a scan, of a URX.DRAIN and of a LOOP.ITER. -/
theorem witness_ChunkCommutesWithTheScan :
    ((live (.drain .test)).Inv Config.impl ∧ (live (.drain .test)).pos.drainLine = some .test ∧
      (∃ t, exec (.urxChunk []) (live (.drain .test)) = .next t) ∧
      ∃ u, exec .urxDrain (live (.drain .test)) = .next u) ∧
    (let s := live (.loop (.drain (some .test)))
     s.Inv Config.impl ∧ s.pos.drainLine = some .test ∧ (∃ t, exec (.urxChunk []) s = .next t) ∧
      ∃ u, exec .loopIter s = .next u) := by
  obtain ⟨u, h, _⟩ := execLoopIter_inv (live_inv (.loop (.drain (some .test))) rfl) fun _ e => by cases e
  exact ⟨⟨live_test_inv, rfl, live_chunk_runs _ rfl, live_test_drain_runs⟩, live_inv _ rfl, rfl, live_chunk_runs _ rfl, u, h⟩
theorem witness_InterruptsAndCompletionCommute :
    (∃ t, exec .crxOvf { live (.drain .test) with utxBusy := true } = .next t) ∧
    (∃ u, exec .utxDone { live (.drain .test) with utxBusy := true } = .next u) ∧ Instr.crxOvf ≠ .utxDone ∧
    Instr.crxOvf ∈ [Instr.urxChunk [], .crxOvf, .utxDone] := ⟨⟨_, rfl⟩, ⟨_, rfl⟩, by decide, by decide⟩
/-- Busy; one byte too long; exactly `TX_BUF_SIZE` bytes. -/
theorem witness_SendStartsOrIsTurnedAway : ({ State.reset with utxBusy := true } : State).utxBusy = true ∧
    (State.reset.utxBusy = false ∧ Config.impl.txBuf < (List.replicate (Config.impl.txBuf + 1) (0 : Byte)).length) ∧
    (List.replicate Config.impl.txBuf (0 : Byte)).length ≤ Config.impl.txBuf := by
  refine ⟨rfl, ⟨rfl, by simp⟩, by simp⟩
theorem witness_FlightIsOnlyEndedByCompletion :
    ∃ t, exec .crxOvf { State.reset with utxBusy := true } = .next t ∧ Instr.crxOvf ≠ .utxDone := ⟨_, rfl, by decide⟩
theorem witness_CompletionFreesTheGate : ({ State.reset with utxBusy := true } : State).utxBusy = true ∧
    State.reset.utxBusy = false := ⟨rfl, rfl⟩
/-- Line 1, with a queue in range; line 3 with the bus `On`; line 5 with `HWERROR` and with a frame; line 10 with nothing
captured, with a chunk, and in the middle of its scan. The other lines ask for the position alone. -/
theorem witness_IterationRunsItsThreeParts : (State.reset.pos = .rest ∧ State.reset.ctxTail < 28) ∧
    (crxPend Config.impl { State.reset with pos := .loop .pend, busState := .on, answers := ⟨[], [], [true], [], 0⟩ }).1 =
      true ∧
    (drawPop Config.impl { State.reset with pos := .loop .recv, answers := ⟨[], [], [], [none], 0⟩ }).1 = none ∧
    (drawPop Config.impl { State.reset with
      pos := .loop .recv, answers := ⟨[], [], [], [some ⟨frameF 7, by decide⟩], 0⟩ }).1 = some ⟨frameF 7, by decide⟩ ∧
    ringEmpty State.reset.urxHead State.reset.urxTail = true ∧
    ((live (.loop (.drain none))).pos = .loop (.drain none) ∧
      ringEmpty (live (.loop (.drain none))).urxHead (live (.loop (.drain none))).urxTail = false) ∧
    (let s := live (.loop (.drain (some .clear)))
     s.pos = .loop (.drain (some .clear)) ∧
       ∃ t, exec .urxDrain { s with pos := .drain .clear } = .next t ∧ t.pos = .drain .next) :=
  ⟨⟨rfl, by decide⟩, rfl, rfl, rfl, rfl, ⟨rfl, rfl⟩, rfl, _, rfl, rfl⟩
theorem witness_IterationFinishesInBoundedSteps :
    (∃ B, ∀ line, line.length ≤ Config.impl.mtu → (Config.impl.parse line).1.length ≤ B) ∧
    (live .rest).Inv Config.impl ∧ (live .rest).inbox = [] ∧ (live .rest).pos = .rest ∧ (live .rest).urxArmed ≠ none :=
  ⟨parse_bound, live_rest_inv, rfl, rfl, by simp [live]⟩
/-- One operation of each port that runs. -/
theorem witness_EachContextWritesItsOwnState : (∃ t, exec .crxOvf State.reset = .next t ∧ Instr.crxOvf.port = .irqp) ∧
    (∃ t, exec .utxDone { State.reset with utxBusy := true } = .next t ∧ Instr.utxDone.port = .envp) ∧
    (∃ t, exec (.rbPush item) (live .rest) = .next t ∧ (Instr.rbPush item).port = .p) ∧
    (∃ t, exec .rbPend State.reset = .next t ∧ Instr.rbPend.port = .c) ∧
    ∃ t, exec .busEn State.reset = .next t ∧ Instr.busEn.port = .fgp := by
  obtain ⟨t, h⟩ := live_ring_runs.1
  exact ⟨⟨_, rfl, rfl⟩, ⟨_, rfl, rfl⟩, ⟨t, h, rfl⟩, ⟨_, rfl, rfl⟩, _, rfl, rfl⟩
theorem witness_EveryOperationKeepsToItsFrame : ∃ t, exec .busEn State.reset = .next t := ⟨_, rfl⟩
/-- Every clause runs; the addresses are the neighbours of the units stored to (slot 1 of either ring, line unit 0). -/
theorem witness_StoresReachOnlyTheirUnits :
    ((∃ t, exec (.rbPush item) (live .rest) = .next t) ∧ 0 ≠ (live .rest).q.head ∧ 2 ≠ (live .rest).q.head) ∧
    ((∃ t, exec (.ctxEnq recE20) (live .rest) = .next t) ∧ 7 < ctxAddr (live .rest).ctxHead ∧
      ctxAddr (live .rest).ctxHead + recE20.header.dlc.toNat ≤ 10) ∧
    ((live (.drain .test)).urxArmed = some 1 ∧ (∃ t, exec (.urxChunk []) (live (.drain .test)) = .next t) ∧ 0 ≠ (live (.drain .test)).urxHead ∧
      0 < urxAddr Config.impl 1 0) ∧
    (∃ t, exec (.utxSend []) { State.reset with utxBusy := true } = .next t) ∧
    ((∃ t, exec .urxDrain (live (.drain .test)) = .next t) ∧ 1 ≠ (live (.drain .test)).lineIdx ∧ (live (.drain .test)).Inv Config.impl) ∧
    (∃ t, exec .urxDrain (live (.drain (.run (.enq ⟨frameOf recE20, by decide⟩) [] true))) = .next t) ∧
    (∃ t, exec .loopIter (live (.loop (.drain (some (.run (.enq ⟨frameOf recE20, by decide⟩) [] true))))) = .next t) ∧
    (∃ t, exec .loopIter (live (.loop (.send [0x41]))) = .next t) ∧
    (∃ t, exec .loopIter (live (.loop (.drain (some (.reply true))))) = .next t) ∧
    (∃ t, exec .loopIter (live .rest) = .next t) := by
  refine ⟨⟨live_ring_runs.1, by decide, by decide⟩, ⟨live_queue_runs.1, by decide, by decide⟩,
    ⟨rfl, live_chunk_runs _ rfl, by decide, ?_⟩, ⟨_, rfl⟩, ⟨live_test_drain_runs, by decide, live_test_inv⟩,
    ⟨_, rfl⟩, ⟨_, rfl⟩, ⟨_, rfl⟩, ⟨_, rfl⟩, ?_⟩
  case refine_2 =>
    obtain ⟨t, h, _⟩ := execLoopIter_inv live_rest_inv (fun l hl => by cases hl)
    exact ⟨t, h⟩
  have := one_le_app Config.impl
  simp only [urxAddr]
  omega
theorem witness_EventsAreCountedWhereTheyAreDetected :
    ∃ t, exec .crxOvf State.reset = .next t ∧ Instr.crxOvf.opcode ∉ raisers .usbTxBusy := ⟨_, rfl, by decide⟩
theorem witness_CountersNeverInfluenceBehaviour : (∃ t, exec .crxOvf State.reset = .next t) ∧
    exec .utxDone State.reset = .refused .noTransmission := ⟨⟨_, rfl⟩, rfl⟩
theorem witness_FullFlagIsNeverReadOrWritten : (∃ t, exec .crxOvf State.reset = .next t) ∧
    exec .utxDone State.reset = .refused .noTransmission := ⟨⟨_, rfl⟩, rfl⟩
theorem witness_ResetContentsAreNeverObserved : (live (.drain .test)).Inv Config.impl ∧
    (live (.drain .test)).pos.drainLine = some .test ∧ (live (.loop .pend)).pos = .loop .pend ∧
    (live (.loop .pend)).Inv Config.impl ∧
    ringEmpty (live (.drain .test)).q.head (live (.drain .test)).q.tail = false :=
  ⟨live_test_inv, rfl, rfl, live_inv _ rfl, rfl⟩

end Sys2Proof.Tests
end

section
/-! PROOFS. The discipline of the stand-alone ring (spec/40_ringbuffer.md R121): what one operation can do to `Q`, for all
twenty operations, and the five invariants read off from that. -/

namespace Sys2Proof.Machine

/-! ### The operations that leave the stand-alone ring alone -/

variable {c : Config}

theorem ctxEnq_q {f : CanFrame} {s t : State} {r : Result} (h : ctxEnq c f s = .ok (r, t)) : t.q = s.q := by
  rw [ctxEnq_frame h]

theorem ctxProc_q {s t : State} {r : Result} (h : ctxProc c s = .ok (r, t)) : t.q = s.q := by
  rw [ctxProc_frame h]

theorem runCmd_q {cmd : Cmd} {s t : State} (h : runCmd c cmd s = .ok t) : t.q = s.q := by
  rw [runCmd_frame h]

theorem urxChunk_q {a : Nat} {bytes : List Byte} {s t : State} {r : Result} (h : urxChunk c a bytes s = .ok (r, t)) :
    t.q = s.q := by
  obtain ⟨_, _, _, ⟨_, rfl⟩ | ⟨_, _, rfl⟩⟩ := urxChunk_cases h <;> rfl

@[simp] theorem crxPend_q (c : Config) (s : State) : (crxPend c s).2.q = s.q := by
  obtain ⟨b, a, h⟩ := crxPend_state c s
  rw [h]

@[simp] theorem crxRecv_q (c : Config) (s : State) : (crxRecv c s).2.q = s.q := by
  obtain ⟨f, a, _, h⟩ := crxRecv_cases c s
  rw [h]

@[simp] theorem utxSend_q (c : Config) (bytes : List Byte) (s : State) : (utxSend c bytes s).2.q = s.q := by
  rw [utxSend_frame]

@[simp] theorem drainBegin_q (s : State) : (drainBegin s).2.q = s.q := by
  rw [drainBegin_frame]

/-- A request that ends in one step leaves the ring as its operation left it. -/
theorem finish_q {port : Port} {x : Except Fault (Result × State)} {s t : State} (h : finish port x = .next t)
    (hx : ∀ r s', x = .ok (r, s') → s'.q = s.q) : t.q = s.q := by
  obtain ⟨r, s', hr, rfl⟩ := finish_next h
  exact hx r s' hr

/-- The same for an operation that always answers. -/
theorem finish_ok_q {port : Port} {r : Result} {s s' t : State} (h : finish port (.ok (r, s')) = .next t)
    (hq : s'.q = s.q) : t.q = s.q :=
  finish_q h (by rintro _ _ ⟨⟩; exact hq)

theorem execUrxDrain_q {s t : State} (h : execUrxDrain s = .next t) : t.q = s.q := by
  obtain ⟨d, s', hs, ht⟩ := execUrxDrain_next h
  have hq : s'.q = s.q := by
    obtain ⟨_, hb⟩ | ⟨l, _, hl⟩ := hs
    · simpa [hb] using drainBegin_q s
    · rw [drainLine_frame hl]
  obtain ⟨_, rfl⟩ | ⟨l, _, rfl⟩ := ht <;> exact hq

theorem execLoopIter_q {s t : State} (h : execLoopIter s = .next t) : t.q = s.q := by
  obtain ⟨d, s', hs, ht⟩ := execLoopIter_next h
  have hq : s'.q = s.q := by
    obtain ⟨_, hb⟩ | ⟨l, _, hl⟩ := hs
    · exact ctxProc_q (loopBegin_cases hb).2
    · rw [loopLine_frame hl]
  obtain ⟨_, rfl⟩ | ⟨l, _, rfl⟩ := ht <;> exact hq

theorem execRbPeek_q {s t : State} (h : execRbPeek s = .next t) : t.q = s.q := by
  unfold execRbPeek at h
  split at h
  · cases h
  · refine finish_q h fun r s' hr => ?_
    obtain ⟨_, _, rfl⟩ := rbPeek_cases hr
    rfl

theorem execCtxEnq_q {f : FrameRecord} {s t : State} (h : execCtxEnq f s = .next t) : t.q = s.q := by
  unfold execCtxEnq at h
  split at h
  · exact finish_q h fun _ _ => ctxEnq_q
  · cases h

theorem execBusRate_q {r : BitVec 4} {s t : State} (h : execBusRate r s = .next t) : t.q = s.q := by
  unfold execBusRate at h
  split at h
  · next rate _ => exact finish_ok_q h (runCmd_q (cmd := .rate rate) rfl)
  · cases h

theorem execUrxChunk_q {bytes : List Byte} {s t : State} (h : execUrxChunk bytes s = .next t) : t.q = s.q := by
  unfold execUrxChunk at h
  split at h
  · cases h
  · split at h
    · cases h
    · exact finish_q h fun _ _ => urxChunk_q

theorem execUtxDone_q {s t : State} (h : execUtxDone s = .next t) : t.q = s.q := by
  unfold execUtxDone at h
  split at h
  · exact finish_ok_q h rfl
  · cases h

/-! ### What one operation can do to the ring -/

/-- The moves of a ring of `n` slots: it stays, the producer fills the head slot of a ring that is not full, or the
consumer releases the tail slot of one that is not empty. -/
inductive RingMove (n : Nat) : Instr → Ring → Ring → Prop where
  | stay (i : Instr) {q q' : Ring} (same : q' = q) : RingMove n i q q'
  | fill (item : List Byte) (q : Ring) (notFull : ringFull n q.head q.tail = false) :
      RingMove n (.rbPush item) q { q with slot := q.slot.write q.head item, head := ringNext n q.head }
  | release (i : Instr) (q : Ring) (consumer : i = .rbAdv ∨ i = .rbPop) (notEmpty : ringEmpty q.head q.tail = false) :
      RingMove n i q { q with tail := ringNext n q.tail }

theorem rbAdvance_ringMove {i : Instr} {s : State} (hi : i = .rbAdv ∨ i = .rbPop)
    (he : ringEmpty s.q.head s.q.tail = false) : RingMove c.ringN i s.q (rbAdvance c s).q := by
  rw [rbAdvance_eq]
  exact .release i s.q hi he

theorem execRbPush_ringMove {item : List Byte} {s t : State} (h : execRbPush item s = .next t) :
    RingMove Config.impl.ringN (.rbPush item) s.q t.q := by
  unfold execRbPush at h
  split at h
  · obtain ⟨r, s', hr, rfl⟩ := finish_next h
    obtain ⟨_, _, rfl⟩ | ⟨hf, _, _, rfl⟩ := rbPush_cases hr
    · exact .stay _ rfl
    · exact .fill item s.q hf
  · cases h

theorem execRbAdv_ringMove {s t : State} (h : execRbAdv s = .next t) :
    RingMove Config.impl.ringN .rbAdv s.q t.q := by
  unfold execRbAdv at h
  split at h
  · cases h
  · next he =>
    obtain ⟨r, s', hr, rfl⟩ := finish_next h
    cases hr
    exact rbAdvance_ringMove (.inl rfl) (by simpa using he)

theorem execRbPop_ringMove {s t : State} (h : execRbPop s = .next t) :
    RingMove Config.impl.ringN .rbPop s.q t.q := by
  obtain ⟨r, s', hr, rfl⟩ := finish_next h
  obtain ⟨_, _, rfl⟩ | ⟨he, _, _, rfl⟩ := rbPop_cases hr
  · exact .stay _ rfl
  · exact rbAdvance_ringMove (.inr rfl) he

/-- Every operation that answers a next state made a move of the ring, and only RB.PUSH, RB.ADV and RB.POP one that
changes it. -/
theorem exec_ringMove {i : Instr} {s t : State} (h : exec i s = .next t) : RingMove Config.impl.ringN i s.q t.q := by
  cases i with
  | rbPush item => exact execRbPush_ringMove h
  | rbAdv => exact execRbAdv_ringMove h
  | rbPop => exact execRbPop_ringMove h
  | rbPend => exact .stay _ (finish_ok_q h rfl)
  | rbPeek => exact .stay _ (execRbPeek_q h)
  | ctxEnq f => exact .stay _ (execCtxEnq_q h)
  | ctxProc => exact .stay _ (finish_q h fun _ _ => ctxProc_q)
  | busEn => exact .stay _ (finish_ok_q h (runCmd_q (c := Config.impl) (cmd := .en) rfl))
  | busDis => exact .stay _ (finish_ok_q h (runCmd_q (c := Config.impl) (cmd := .dis) rfl))
  | busRate r => exact .stay _ (execBusRate_q h)
  | busSilent b => exact .stay _ (finish_ok_q h (runCmd_q (c := Config.impl) (cmd := .silent b) rfl))
  | busArtx a => exact .stay _ (finish_ok_q h (runCmd_q (c := Config.impl) (cmd := .artx a) rfl))
  | crxPend => exact .stay _ (finish_ok_q h (crxPend_q _ s))
  | crxRecv => exact .stay _ (finish_ok_q h (crxRecv_q _ s))
  | crxOvf => exact .stay _ (finish_ok_q h rfl)
  | urxChunk bytes => exact .stay _ (execUrxChunk_q h)
  | urxDrain => exact .stay _ (execUrxDrain_q h)
  | utxSend bytes => exact .stay _ (finish_ok_q h (utxSend_q _ bytes s))
  | utxDone => exact .stay _ (execUtxDone_q h)
  | loopIter => exact .stay _ (execLoopIter_q h)

/-! ### What every move of the ring keeps -/

section Move
variable {n : Nat} {i : Instr} {q q' : Ring}

/-- R121 (a). -/
theorem RingMove.indices_lt (h : RingMove n i q q') (hh : q.head < n) (ht : q.tail < n) :
    q'.head < n ∧ q'.tail < n := by
  cases h with
  | stay _ same => exact same ▸ ⟨hh, ht⟩
  | fill => exact ⟨ringNext_lt (Nat.zero_lt_of_lt hh), ht⟩
  | release => exact ⟨hh, ringNext_lt (Nat.zero_lt_of_lt ht)⟩

/-- R121 (c), the producer's index. -/
theorem RingMove.head_advances (h : RingMove n i q q') (hne : q'.head ≠ q.head) :
    (∃ item, i = .rbPush item) ∧ q'.head = ringNext n q.head := by
  cases h with
  | stay _ same => exact absurd (by rw [same]) hne
  | fill item => exact ⟨⟨item, rfl⟩, rfl⟩
  | release => exact absurd rfl hne

/-- R121 (c), the consumer's index. -/
theorem RingMove.tail_advances (h : RingMove n i q q') (hne : q'.tail ≠ q.tail) :
    (i = .rbAdv ∨ i = .rbPop) ∧ q'.tail = ringNext n q.tail := by
  cases h with
  | stay _ same => exact absurd (by rw [same]) hne
  | fill => exact absurd rfl hne
  | release _ _ hi => exact ⟨hi, rfl⟩

/-- R121 (e): the one slot a move writes is the head slot, and that slot is not live. -/
theorem RingMove.live_slot_kept (h : RingMove n i q q') {a : Nat} (ha : ringLive n q.head q.tail a = true) :
    q'.slot.read a = q.slot.read a := by
  cases h with
  | stay _ same => rw [same]
  | fill item =>
    have hne : a ≠ q.head := by
      rintro rfl
      rw [ringLive_head] at ha
      cases ha
    exact Memory.read_write_other _ _ hne
  | release => rfl

end Move

/-! ### The conditions of a ring, read off from its indices -/

theorem ringCount_eq_zero_iff {n head tail : Nat} (hh : head < n) (ht : tail < n) :
    ringCount n head tail = 0 ↔ head = tail := by
  rw [← ringEmpty_iff hh ht, ringEmpty, beq_iff_eq]

theorem ringCount_eq_pred_iff {n head tail : Nat} (hh : head < n) (ht : tail < n) :
    ringCount n head tail = n - 1 ↔ ringNext n head = tail := by
  rw [← ringFull_iff hh ht, ringFull, beq_iff_eq]

theorem ringSlots_getElem? {n head tail k : Nat} (hk : k < ringCount n head tail) :
    (ringSlots n head tail)[k]? = some ((tail + k) % n) := by
  simp [ringSlots, hk]

/-- R121 (d): the live slots are the `ringCount` slots from the tail on. -/
theorem ringLive_iff_exists_offset {n head tail a : Nat} (hh : head < n) (ht : tail < n) (ha : a < n) :
    ringLive n head tail a = true ↔
      ∃ k < ringCount n head tail, (ringSlots n head tail)[k]? = some a ∧ a = (tail + k) % n := by
  rw [← mem_ringSlots hh ht ha]
  constructor
  · intro h
    obtain ⟨k, hk, rfl⟩ := List.mem_map.mp h
    rw [List.mem_range] at hk
    exact ⟨k, hk, ringSlots_getElem? hk, rfl⟩
  · rintro ⟨k, _, hk, _⟩
    exact List.mem_of_getElem? hk

/-- Settles O21: every operation makes a move of the ring, and every move keeps the five invariants. -/
theorem ringKeepsItsDiscipline : Obligations.RingKeepsItsDiscipline := by
  refine ⟨rfl, rfl, fun i s t hh ht h => ?_⟩
  have move := exec_ringMove h
  obtain ⟨hh', ht'⟩ := move.indices_lt hh ht
  have capacity := ringCount_le hh' ht'
  exact ⟨⟨hh', ht'⟩, ⟨capacity, ringCount_eq_zero_iff hh' ht', ringCount_eq_pred_iff hh' ht'⟩,
    move.head_advances, move.tail_advances, fun _ ha => ringLive_iff_exists_offset hh' ht' ha,
    fun _ _ ha => move.live_slot_kept ha⟩

end Sys2Proof.Machine
end

section
/-! PROOFS. CRX.OVF (spec/43_canrx.md R180): nothing but CRX.OVF reads or writes `EVT[2]`. Said once for each operation as
one equation: to set the counter before the operation or after it comes to the same, whatever the outcome. With the counter
set to the value it has, the equation says that the operation keeps it; with the counted value, that CRX.OVF commutes. -/

namespace Sys2Proof.Machine

/-! ### Setting `EVT[2]` -/

/-- `s` with `v` in the counter of CRX.OVF, `EVT[2]`. -/
def State.withFifoCount (v : Nat) (s : State) : State := { s with evt := s.evt.set .canRxFifoOverflow v }

section Fields
variable (v : Nat) (s : State)

@[simp] theorem State.withFifoCount_q : (s.withFifoCount v).q = s.q := rfl
@[simp] theorem State.withFifoCount_ctxHead : (s.withFifoCount v).ctxHead = s.ctxHead := rfl
@[simp] theorem State.withFifoCount_ctxTail : (s.withFifoCount v).ctxTail = s.ctxTail := rfl
@[simp] theorem State.withFifoCount_urxHead : (s.withFifoCount v).urxHead = s.urxHead := rfl
@[simp] theorem State.withFifoCount_urxTail : (s.withFifoCount v).urxTail = s.urxTail := rfl
@[simp] theorem State.withFifoCount_urxArmed : (s.withFifoCount v).urxArmed = s.urxArmed := rfl
@[simp] theorem State.withFifoCount_utxBusy : (s.withFifoCount v).utxBusy = s.utxBusy := rfl
@[simp] theorem State.withFifoCount_busState : (s.withFifoCount v).busState = s.busState := rfl
@[simp] theorem State.withFifoCount_pos : (s.withFifoCount v).pos = s.pos := rfl
@[simp] theorem State.withFifoCount_answers : (s.withFifoCount v).answers = s.answers := rfl
@[simp] theorem State.withFifoCount_evt : (s.withFifoCount v).evt = s.evt.set .canRxFifoOverflow v := rfl

@[simp] theorem State.withFifoCount_self : s.withFifoCount (s.evt.get .canRxFifoOverflow) = s := rfl

/-- What CRX.OVF does, as a setting of its counter. -/
theorem State.raise_eq_withFifoCount (c : Config) :
    s.raise c .canRxFifoOverflow = s.withFifoCount ((s.evt.get .canRxFifoOverflow + 1) % 2 ^ c.cntW) := rfl

end Fields

/-! ### The operations that neither read nor write `EVT[2]` -/

section Operations
variable (c : Config) (v : Nat) (s : State)

theorem drawMailboxes_withFifoCount :
    drawMailboxes c (s.withFifoCount v) = Prod.map id (State.withFifoCount v) (drawMailboxes c s) := by
  simp only [drawMailboxes, State.withFifoCount_answers]
  cases s.answers.mailboxes <;> rfl

theorem drawAccept_withFifoCount (f : CanFrame) :
    drawAccept c f (s.withFifoCount v) = Prod.map id (State.withFifoCount v) (drawAccept c f s) := by
  simp only [drawAccept, State.withFifoCount_answers]
  cases s.answers.accepts <;> rfl

theorem drawNonempty_withFifoCount :
    drawNonempty c (s.withFifoCount v) = Prod.map id (State.withFifoCount v) (drawNonempty c s) := by
  simp only [drawNonempty, State.withFifoCount_answers]
  cases s.answers.nonempty <;> rfl

theorem drawPop_withFifoCount :
    drawPop c (s.withFifoCount v) = Prod.map id (State.withFifoCount v) (drawPop c s) := by
  simp only [drawPop, State.withFifoCount_answers]
  cases s.answers.pops <;> rfl

/-! The reads: the item, the frame, the line, the length and the byte they answer have nothing to do with a counter. -/

@[simp] theorem rbTailItem_withFifoCount : rbTailItem c (s.withFifoCount v) = rbTailItem c s := rfl
@[simp] theorem slotView_withFifoCount (t : Nat) : slotView c t (s.withFifoCount v) = slotView c t s := rfl
@[simp] theorem lineBytes_withFifoCount : lineBytes c (s.withFifoCount v) = lineBytes c s := rfl
@[simp] theorem tailLen_withFifoCount : tailLen c (s.withFifoCount v) = tailLen c s := rfl
@[simp] theorem tailByte_withFifoCount : tailByte c (s.withFifoCount v) = tailByte c s := rfl

theorem rbPush_withFifoCount (item : List Byte) :
    rbPush c item (s.withFifoCount v) = Prod.map id (State.withFifoCount v) <$> rbPush c item s := by
  cases h : ringFull c.ringN s.q.head s.q.tail with
  | true => simp only [rbPush, State.withFifoCount_q, h, if_true]; rfl
  | false => simp only [rbPush, State.withFifoCount_q, h, Bool.false_eq_true, if_false, map_bind]; rfl

theorem rbPeek_withFifoCount :
    rbPeek c (s.withFifoCount v) = Prod.map id (State.withFifoCount v) <$> rbPeek c s := by
  simp only [rbPeek, rbTailItem_withFifoCount, map_bind]; rfl

theorem rbPop_withFifoCount :
    rbPop c (s.withFifoCount v) = Prod.map id (State.withFifoCount v) <$> rbPop c s := by
  cases h : ringEmpty s.q.head s.q.tail with
  | true => simp only [rbPop, State.withFifoCount_q, h, if_true]; rfl
  | false =>
    simp only [rbPop, State.withFifoCount_q, h, Bool.false_eq_true, if_false, rbTailItem_withFifoCount, map_bind]; rfl

theorem storeFrame_withFifoCount (a : Nat) (f : CanFrame) :
    storeFrame a f (s.withFifoCount v) = State.withFifoCount v <$> storeFrame a f s := by
  simp only [storeFrame, map_bind]; rfl

theorem ctxEnq_withFifoCount (f : CanFrame) :
    ctxEnq c f (s.withFifoCount v) = Prod.map id (State.withFifoCount v) <$> ctxEnq c f s := by
  cases h : ringFull nTx s.ctxHead s.ctxTail with
  | true => simp only [ctxEnq, State.withFifoCount_ctxHead, State.withFifoCount_ctxTail, h, if_true]; rfl
  | false =>
    simp only [ctxEnq, State.withFifoCount_ctxHead, State.withFifoCount_ctxTail, h, Bool.false_eq_true, if_false,
      storeFrame_withFifoCount, map_bind, bind_map_left]; rfl

theorem submitTail_withFifoCount :
    submitTail c (s.withFifoCount v) = State.withFifoCount v <$> submitTail c s := by
  simp only [submitTail, State.withFifoCount_ctxTail, slotView_withFifoCount, drawAccept_withFifoCount, map_bind]
  congr 1
  funext f
  obtain ⟨_ | _, s1⟩ := drawAccept c f s <;> rfl

theorem ctxProc_withFifoCount :
    ctxProc c (s.withFifoCount v) = Prod.map id (State.withFifoCount v) <$> ctxProc c s := by
  cases h : ringEmpty s.ctxHead s.ctxTail with
  | true => simp only [ctxProc, State.withFifoCount_ctxHead, State.withFifoCount_ctxTail, h, if_true]; rfl
  | false =>
    simp only [ctxProc, State.withFifoCount_ctxHead, State.withFifoCount_ctxTail, h, Bool.false_eq_true, if_false,
      drawMailboxes_withFifoCount]
    obtain ⟨m, s1⟩ := drawMailboxes c s
    cases m with
    | zero => rfl
    | succ m => simp only [Prod.map, id, submitTail_withFifoCount, map_bind, bind_map_left]; rfl

theorem busEn_withFifoCount : busEn (s.withFifoCount v) = (busEn s).withFifoCount v := by
  simp only [busEn, State.withFifoCount_busState]
  cases s.busState <;> rfl

theorem busDis_withFifoCount : busDis (s.withFifoCount v) = (busDis s).withFifoCount v := by
  simp only [busDis, State.withFifoCount_busState]
  cases s.busState <;> rfl

theorem busRate_withFifoCount (r : Rate) : busRate c r (s.withFifoCount v) = (busRate c r s).withFifoCount v := by
  simp only [busRate, State.withFifoCount_busState]
  cases s.busState <;> rfl

theorem busSilent_withFifoCount (b : Bool) : busSilent b (s.withFifoCount v) = (busSilent b s).withFifoCount v := by
  simp only [busSilent, State.withFifoCount_busState]
  cases s.busState <;> rfl

theorem busArtx_withFifoCount (a : Bool) : busArtx a (s.withFifoCount v) = (busArtx a s).withFifoCount v := by
  simp only [busArtx, State.withFifoCount_busState]
  cases s.busState <;> rfl

theorem crxPend_withFifoCount :
    crxPend c (s.withFifoCount v) = Prod.map id (State.withFifoCount v) (crxPend c s) := by
  simp only [crxPend, State.withFifoCount_busState, drawNonempty_withFifoCount]
  cases s.busState <;> rfl

theorem crxRecv_withFifoCount :
    crxRecv c (s.withFifoCount v) = Prod.map id (State.withFifoCount v) (crxRecv c s) := by
  simp only [crxRecv, drawPop_withFifoCount]
  obtain ⟨_ | f, s1⟩ := drawPop c s <;> rfl

theorem utxSend_withFifoCount (bytes : List Byte) :
    utxSend c bytes (s.withFifoCount v) = Prod.map id (State.withFifoCount v) (utxSend c bytes s) := by
  cases h : s.utxBusy with
  | true => simp only [utxSend, State.withFifoCount_utxBusy, h, if_true]; rfl
  | false =>
    simp only [utxSend, State.withFifoCount_utxBusy, h, Bool.false_eq_true, if_false]
    split <;> rfl

theorem writeChunk_withFifoCount (a : Nat) (bytes : List Byte) :
    writeChunk c a bytes (s.withFifoCount v) = State.withFifoCount v <$> writeChunk c a bytes s := by
  simp only [writeChunk, map_bind]; rfl

theorem captureChunk_withFifoCount (n : Nat) :
    captureChunk c n (s.withFifoCount v) = State.withFifoCount v <$> captureChunk c n s := by
  simp only [captureChunk, map_bind]; rfl

theorem urxChunk_withFifoCount (a : Nat) (bytes : List Byte) :
    urxChunk c a bytes (s.withFifoCount v) = Prod.map id (State.withFifoCount v) <$> urxChunk c a bytes s := by
  simp only [urxChunk, writeChunk_withFifoCount, map_bind, bind_map_left]
  congr 1
  funext s1
  simp only [State.withFifoCount_urxHead, State.withFifoCount_urxTail, captureChunk_withFifoCount]
  split
  · rfl
  · simp only [map_bind, bind_map_left]; rfl

theorem runCmd_withFifoCount (cmd : Cmd) :
    runCmd c cmd (s.withFifoCount v) = State.withFifoCount v <$> runCmd c cmd s := by
  cases cmd with
  | enq f => simp only [runCmd, ctxEnq_withFifoCount, map_bind, bind_map_left]; rfl
  | en => simp only [runCmd, busEn_withFifoCount]; rfl
  | dis => simp only [runCmd, busDis_withFifoCount]; rfl
  | rate r => simp only [runCmd, busRate_withFifoCount]; rfl
  | silent b => simp only [runCmd, busSilent_withFifoCount]; rfl
  | artx a => simp only [runCmd, busArtx_withFifoCount]; rfl

theorem appendByte_withFifoCount (b : Byte) :
    appendByte c b (s.withFifoCount v) = State.withFifoCount v <$> appendByte c b s := by
  simp only [appendByte, map_bind]; rfl

theorem drainBegin_withFifoCount :
    drainBegin (s.withFifoCount v) = Prod.map id (State.withFifoCount v) (drainBegin s) := by
  cases h : ringEmpty s.urxHead s.urxTail with
  | true => simp only [drainBegin, State.withFifoCount_urxHead, State.withFifoCount_urxTail, h, if_true]; rfl
  | false =>
    simp only [drainBegin, State.withFifoCount_urxHead, State.withFifoCount_urxTail, h, Bool.false_eq_true, if_false]
    rfl

theorem drainLine_withFifoCount (l : DrainLine) :
    drainLine c l (s.withFifoCount v) = Prod.map id (State.withFifoCount v) <$> drainLine c l s := by
  cases l with
  | test => simp only [drainLine, tailLen_withFifoCount, map_bind]; rfl
  | read => simp only [drainLine, tailByte_withFifoCount, map_bind]; rfl
  | parse => simp only [drainLine, lineBytes_withFifoCount, map_bind]; rfl
  | run cmd rest ok => simp only [drainLine, runCmd_withFifoCount, map_bind, bind_map_left]; rfl
  | reply ok => simp only [drainLine, utxSend_withFifoCount]; rfl
  | append b => simp only [drainLine, appendByte_withFifoCount, map_bind, bind_map_left]; rfl
  | branch b => rfl
  | clear => rfl
  | overflow => rfl
  | next => rfl
  | advance => rfl
  | ret => rfl

theorem loopBegin_withFifoCount :
    loopBegin c (s.withFifoCount v) = Prod.map id (State.withFifoCount v) <$> loopBegin c s := by
  simp only [loopBegin, ctxProc_withFifoCount, map_bind, bind_map_left]; rfl

theorem loopLine_withFifoCount (l : LoopLine) :
    loopLine c l (s.withFifoCount v) = Prod.map id (State.withFifoCount v) <$> loopLine c l s := by
  cases l with
  | pend => simp only [loopLine, crxPend_withFifoCount]; rfl
  | recv => simp only [loopLine, crxRecv_withFifoCount]; rfl
  | received r => cases r <;> rfl
  | send bytes => simp only [loopLine, utxSend_withFifoCount]; rfl
  | drain d =>
    cases d with
    | none => simp only [loopLine, drainBegin_withFifoCount]; rfl
    | some d => simp only [loopLine, drainLine_withFifoCount, map_bind, bind_map_left]; rfl
  | toCanRx => rfl
  | pended p => rfl
  | format f => rfl
  | toUsbRx => rfl
  | toTx => rfl
  | ret => rfl

end Operations

/-! ### The twenty requests -/

/-- The outcome with its next state, if it has one, changed by `f`. -/
def mapNext (f : State → State) : Host.Outcome State Fault Refusal → Host.Outcome State Fault Refusal
  | .next s => .next (f s)
  | .fault e => .fault e
  | .refused r => .refused r

@[simp] theorem mapNext_next (f : State → State) (s : State) : mapNext f (.next s) = .next (f s) := rfl
@[simp] theorem mapNext_refused (f : State → State) (r : Refusal) : mapNext f (.refused r) = .refused r := rfl

section Requests
variable (v : Nat) (s : State)

theorem finish_withFifoCount (port : Port) (x : Except Fault (Result × State)) :
    finish port (Prod.map id (State.withFifoCount v) <$> x) = mapNext (State.withFifoCount v) (finish port x) := by
  cases x <;> rfl

theorem proceed_withFifoCount {α : Type} (p : α → Pos) (x : Except Fault (Option α × State)) :
    proceed p (Prod.map id (State.withFifoCount v) <$> x) = mapNext (State.withFifoCount v) (proceed p x) := by
  obtain e | ⟨_ | l, s1⟩ := x <;> rfl

theorem execUrxDrain_withFifoCount :
    execUrxDrain (s.withFifoCount v) = mapNext (State.withFifoCount v) (execUrxDrain s) := by
  cases h : s.pos with
  | rest =>
    simp only [execUrxDrain, State.withFifoCount_pos, h, drainBegin_withFifoCount]
    exact proceed_withFifoCount v _ (.ok (drainBegin s))
  | drain l => simp only [execUrxDrain, State.withFifoCount_pos, h, drainLine_withFifoCount, proceed_withFifoCount]
  | loop l => simp only [execUrxDrain, State.withFifoCount_pos, h, mapNext_refused]

theorem execLoopIter_withFifoCount :
    execLoopIter (s.withFifoCount v) = mapNext (State.withFifoCount v) (execLoopIter s) := by
  cases h : s.pos with
  | rest => simp only [execLoopIter, State.withFifoCount_pos, h, loopBegin_withFifoCount, proceed_withFifoCount]
  | loop l => simp only [execLoopIter, State.withFifoCount_pos, h, loopLine_withFifoCount, proceed_withFifoCount]
  | drain l => simp only [execLoopIter, State.withFifoCount_pos, h, mapNext_refused]

theorem execUrxChunk_withFifoCount (bytes : List Byte) :
    execUrxChunk bytes (s.withFifoCount v) = mapNext (State.withFifoCount v) (execUrxChunk bytes s) := by
  by_cases hl : Config.impl.app < bytes.length
  · simp only [execUrxChunk, hl, if_true, mapNext_refused]
  · cases h : s.urxArmed with
    | none => simp only [execUrxChunk, hl, if_false, State.withFifoCount_urxArmed, h, mapNext_refused]
    | some a =>
      simp only [execUrxChunk, hl, if_false, State.withFifoCount_urxArmed, h, urxChunk_withFifoCount,
        finish_withFifoCount]

/-- No operation but CRX.OVF reads or writes `EVT[2]`: what it does, fault or refusal included, is the same whatever the
counter holds, and it leaves in it what it held. -/
theorem exec_withFifoCount {i : Instr} (hi : i ≠ .crxOvf) :
    exec i (s.withFifoCount v) = mapNext (State.withFifoCount v) (exec i s) := by
  cases i with
  | crxOvf => exact absurd rfl hi
  | rbPush item =>
    simp only [exec, execRbPush, rbPush_withFifoCount, finish_withFifoCount]
    split <;> rfl
  | rbPend => rfl
  | rbPeek =>
    simp only [exec, execRbPeek, State.withFifoCount_q, rbPeek_withFifoCount, finish_withFifoCount]
    split <;> rfl
  | rbAdv =>
    cases h : ringEmpty s.q.head s.q.tail with
    | true => simp only [exec, execRbAdv, State.withFifoCount_q, h, if_true, mapNext_refused]
    | false => simp only [exec, execRbAdv, State.withFifoCount_q, h, Bool.false_eq_true, if_false]; rfl
  | rbPop => simp only [exec, execRbPop, rbPop_withFifoCount, finish_withFifoCount]
  | ctxEnq f =>
    simp only [exec, execCtxEnq, ctxEnq_withFifoCount, finish_withFifoCount]
    split <;> rfl
  | ctxProc => simp only [exec, execCtxProc, ctxProc_withFifoCount, finish_withFifoCount]
  | busEn => simp only [exec, execBusEn, busEn_withFifoCount]; rfl
  | busDis => simp only [exec, execBusDis, busDis_withFifoCount]; rfl
  | busRate r =>
    simp only [exec, execBusRate, busRate_withFifoCount]
    split <;> rfl
  | busSilent b => simp only [exec, execBusSilent, busSilent_withFifoCount]; rfl
  | busArtx a => simp only [exec, execBusArtx, busArtx_withFifoCount]; rfl
  | crxPend => simp only [exec, execCrxPend, crxPend_withFifoCount]; rfl
  | crxRecv => simp only [exec, execCrxRecv, crxRecv_withFifoCount]; rfl
  | urxChunk bytes => exact execUrxChunk_withFifoCount v s bytes
  | urxDrain => exact execUrxDrain_withFifoCount v s
  | utxSend bytes => simp only [exec, execUtxSend, utxSend_withFifoCount]; rfl
  | utxDone =>
    cases h : s.utxBusy with
    | true => simp only [exec, execUtxDone, State.withFifoCount_utxBusy, h, if_true]; rfl
    | false =>
      simp only [exec, execUtxDone, State.withFifoCount_utxBusy, h, Bool.false_eq_true, if_false, mapNext_refused]
  | loopIter => exact execLoopIter_withFifoCount v s

end Requests

/-! ### CRX.OVF -/

theorem exec_crxOvf (s : State) :
    exec .crxOvf s = .next ((s.raise Config.impl .canRxFifoOverflow).emit (.result .irqp .ok)) := rfl

/-- The bytes of CRX.OVF, its header alone, are a whole request. -/
theorem decode_encode_crxOvf (size : Nat) : decode size (encode .crxOvf) = .ok (.crxOvf, []) := rfl

/-- Whatever the foreground is at, CRX.OVF runs when its turn comes (spec/20_memory.md R74). -/
theorem step_crxOvf (s : State) (rest : List Turn) :
    step { s with inbox := .request .irqp (encode .crxOvf) :: rest } = exec .crxOvf { s with inbox := rest } := by
  simp only [step, takeTurn, present, decode_encode_crxOvf]
  rfl

/-- Nothing but CRX.OVF moves its counter. -/
theorem exec_keeps_fifoCount {i : Instr} {s t : State} (hi : i ≠ .crxOvf) (h : exec i s = .next t) :
    t.evt.get .canRxFifoOverflow = s.evt.get .canRxFifoOverflow := by
  have kept : t = t.withFifoCount (s.evt.get .canRxFifoOverflow) := by
    simpa [h] using exec_withFifoCount (s.evt.get .canRxFifoOverflow) s hi
  rw [kept, State.withFifoCount_evt, Counters.get_set_same]

/-- To count before an operation or after it comes to the same, whatever the outcome. -/
theorem exec_raise_fifoOverflow (i : Instr) (s : State) :
    exec i (s.raise Config.impl .canRxFifoOverflow) =
      mapNext (State.raise Config.impl .canRxFifoOverflow) (exec i s) := by
  by_cases hi : i = .crxOvf
  · subst hi; rfl
  · rw [State.raise_eq_withFifoCount, exec_withFifoCount _ _ hi]
    cases h : exec i s with
    | next t =>
      rw [mapNext_next, mapNext_next, State.raise_eq_withFifoCount, exec_keeps_fifoCount hi h]
    | fault e => rfl
    | refused r => rfl

/-- Settles O36: CRX.OVF counts, comes at every boundary and commutes with every operation, and no other one moves its
counter. -/
theorem fifoOverflowIsOnlyCounted : Obligations.FifoOverflowIsOnlyCounted := by
  refine ⟨rfl, rfl, fun s => ⟨exec_crxOvf s, step_crxOvf s, fun i t h => ⟨?_, fun hi => exec_keeps_fifoCount hi h⟩,
    fun i r h => ?_⟩⟩
  · rw [exec_raise_fifoOverflow, h, mapNext_next]
  · rw [exec_raise_fifoOverflow, h, mapNext_refused]

end Sys2Proof.Machine
end

section
/-! PROOFS. The encoding (spec/30_encoding.md): decoder and encoder are inverse to each other, operand by operand, and the
rows of the opcode map by their masks. -/

namespace Sys2Proof

/-! ### Which row a header selects -/

theorem Row.selects_iff (r : Row) (h : Header) : r.selects h = true ↔ h &&& r.mask = r.value := by
  simp [Row.selects]

/-- The header of every request selects the row of its operation. -/
theorem selectRow_header (i : Instr) : ∃ r, selectRow i.header = .ok r ∧ r.op = i.opcode := by
  have h : Laws.HeaderSelects.Statement i := by
    cases i with
    | rbPush item => exact Laws.HeaderSelects.rbPush item
    | rbPend => exact Laws.HeaderSelects.rbPend
    | rbPeek => exact Laws.HeaderSelects.rbPeek
    | rbAdv => exact Laws.HeaderSelects.rbAdv
    | rbPop => exact Laws.HeaderSelects.rbPop
    | ctxEnq f => exact Laws.HeaderSelects.ctxEnq f
    | ctxProc => exact Laws.HeaderSelects.ctxProc
    | busEn => exact Laws.HeaderSelects.busEn
    | busDis => exact Laws.HeaderSelects.busDis
    | busRate r => exact Laws.HeaderSelects.busRate r
    | busSilent b => exact Laws.HeaderSelects.busSilent b
    | busArtx a => exact Laws.HeaderSelects.busArtx a
    | crxPend => exact Laws.HeaderSelects.crxPend
    | crxRecv => exact Laws.HeaderSelects.crxRecv
    | crxOvf => exact Laws.HeaderSelects.crxOvf
    | urxChunk bs => exact Laws.HeaderSelects.urxChunk bs
    | urxDrain => exact Laws.HeaderSelects.urxDrain
    | utxSend bs => exact Laws.HeaderSelects.utxSend bs
    | utxDone => exact Laws.HeaderSelects.utxDone
    | loopIter => exact Laws.HeaderSelects.loopIter
  obtain ⟨r, _, hr, hop⟩ := h
  exact ⟨r, hr, hop⟩

/-- A selected row is a row of the map, and its mask and value select the header. -/
theorem selectRow_eq_ok {h : Header} {r : Row} (hr : selectRow h = .ok r) : r ∈ rows ∧ h &&& r.mask = r.value := by
  unfold selectRow at hr
  split at hr
  · next r' hfind =>
    cases hr
    have hsel : r.selects h = true := List.find?_some (p := fun r : Row => r.selects h) hfind
    exact ⟨List.mem_of_find?_eq_some hfind, (r.selects_iff h).mp hsel⟩
  · split at hr
    · cases hr
    · split at hr <;> cases hr

/-- The first two bytes of a request are its header, and the rest is read by the row that it selects. -/
theorem decode_bytes16 {size : Nat} {h : Header} {r : Row} (hr : selectRow h = .ok r) (rest : List Byte) :
    decode size (bytes16 h ++ rest) = decodeOp size r.op h rest := by
  simp only [bytes16, List.cons_append, List.nil_append, decode, word16_bytes, hr]

theorem decode_encode_eq (size : Nat) (i : Instr) :
    decode size (encode i) = decodeOp size i.opcode i.header i.payload := by
  obtain ⟨r, hr, hop⟩ := selectRow_header i
  rw [encode, decode_bytes16 hr, hop]

/-! ### Payloads, encoded and decoded -/

theorem vector8_eta (d : Vector Byte 8) : #v[d[0], d[1], d[2], d[3], d[4], d[5], d[6], d[7]] = d := by
  apply Vector.ext
  intro i hi
  interval_cases i <;> rfl

/-- The fields of `FR[31:0]`, read off the word that the encoder packs (R97). -/
theorem frameWord_fields (rtr ext : Bool) (id : BitVec 29) :
    let w : BitVec 32 := 0#1 ++ BitVec.ofBool rtr ++ BitVec.ofBool ext ++ id
    w.extractLsb' 0 29 = id ∧ w.getLsbD 29 = ext ∧ w.getLsbD 30 = rtr ∧ w.getLsbD 31 = false := by
  refine ⟨?_, ?_, ?_, ?_⟩
  · apply BitVec.eq_of_getLsbD_eq
    intro i hi
    rw [BitVec.getLsbD_extractLsb', getLsbD_frameWord]
    simp [hi]
  all_goals rw [getLsbD_frameWord]; simp

/-- The two halves of `FR[39:32]`, read off the byte that the encoder packs (R97). -/
theorem dlcByte_fields (dlc : BitVec 4) :
    (0#4 ++ dlc : BitVec 8).extractLsb' 0 4 = dlc ∧ (0#4 ++ dlc : BitVec 8).extractLsb' 4 4 = 0#4 := by
  revert dlc; decide

theorem decodeFrame_encodeFrame (f : FrameRecord) : decodeFrame (encodeFrame f) = .ok (f, []) := by
  obtain ⟨⟨id, ext, rtr, dlc⟩, data⟩ := f
  obtain ⟨hid, hext, hrtr, hres⟩ := frameWord_fields rtr ext id
  obtain ⟨hlow, hhigh⟩ := dlcByte_fields dlc
  simp only [encodeFrame, decodeFrame, word32_bytes, hid, hext, hrtr, hres, hlow, hhigh, vector8_eta]
  rfl

/-- A frame word whose reserved bit is 0 is the one that the encoder packs from its fields. -/
theorem frameWord_of_fields {w : BitVec 32} (h31 : w.getLsbD 31 = false) :
    0#1 ++ BitVec.ofBool (w.getLsbD 30) ++ BitVec.ofBool (w.getLsbD 29) ++ w.extractLsb' 0 29 = w := by
  apply BitVec.eq_of_getLsbD_eq
  intro i hi
  rw [getLsbD_frameWord, BitVec.getLsbD_extractLsb']
  split_ifs with h1 h2 h3
  · simp [h1]
  · rw [h2]
  · rw [h3]
  · rw [← h31, show i = 31 by omega]

theorem dlcByte_of_fields {b : Byte} (h : b.extractLsb' 4 4 = 0#4) : 0#4 ++ b.extractLsb' 0 4 = b := by
  revert b; decide

theorem decodeFrame_eq_ok {bs rest : List Byte} {f : FrameRecord} (h : decodeFrame bs = .ok (f, rest)) :
    bs = encodeFrame f ++ rest := by
  unfold decodeFrame at h
  split at h
  · next b0 b1 b2 b3 b4 d0 d1 d2 d3 d4 d5 d6 d7 tail =>
    dsimp only at h
    split at h
    · cases h
    · next hres =>
      simp only [Bool.or_eq_true, bne_iff_ne, ne_eq, not_or, Bool.not_eq_true, not_not] at hres
      obtain ⟨h31, hhigh⟩ := hres
      cases h
      obtain ⟨e0, e1, e2, e3⟩ := extract_word32 b0 b1 b2 b3
      simp only [encodeFrame, frameWord_of_fields h31, e0, e1, e2, e3, dlcByte_of_fields hhigh]
      rfl
  · cases h

theorem decodeBytes_encodeBytes {bs : List Byte} (h : bs.length < 2 ^ 16) : decodeBytes (encodeBytes bs) = .ok (bs, []) := by
  have hn : (BitVec.ofNat 16 bs.length).toNat = bs.length := by rw [BitVec.toNat_ofNat, Nat.mod_eq_of_lt h]
  simp only [encodeBytes, bytes16, List.cons_append, List.nil_append, decodeBytes, word16_bytes, hn, le_refl, if_true,
    List.take_length, List.drop_length]

theorem decodeBytes_eq_ok {bs rest v : List Byte} (h : decodeBytes bs = .ok (v, rest)) : bs = encodeBytes v ++ rest := by
  unfold decodeBytes at h
  split at h
  · next lo hi tail =>
    dsimp only at h
    split at h
    · next hn =>
      cases h
      have hlen : BitVec.ofNat 16 (tail.take (word16 lo hi).toNat).length = word16 lo hi := by
        rw [List.length_take, Nat.min_eq_left hn, BitVec.ofNat_toNat, BitVec.setWidth_eq]
      rw [encodeBytes, hlen, bytes16_word16, List.append_assoc, List.take_append_drop]
      rfl
    · cases h
  · cases h

theorem decodeItem_self {item : List Byte} : decodeItem item.length item = .ok (item, []) := by
  simp [decodeItem]

theorem decodeItem_eq_ok {size : Nat} {bs v rest : List Byte} (h : decodeItem size bs = .ok (v, rest)) :
    bs = v ++ rest ∧ v.length = size := by
  unfold decodeItem at h
  split at h
  · next hn =>
    cases h
    exact ⟨(List.take_append_drop size bs).symm, by simpa using hn⟩
  · cases h

/-! ### The two directions -/

/-- Settles O1: the header of a request selects its row, and each payload is read back by the row's format. -/
theorem decodeOfEncodeIsTheRequest : Obligations.DecodeOfEncodeIsTheRequest := by
  intro size i hwf
  rw [decode_encode_eq]
  cases i with
  | rbPush item =>
    obtain rfl : item.length = size := by simpa [Instr.wf] using hwf
    simp only [Instr.opcode, Instr.payload, decodeOp, decodeItem_self]
  | ctxEnq f => simp only [Instr.opcode, Instr.payload, decodeOp, decodeFrame_encodeFrame]
  | busRate r =>
    have hr : ∀ r : BitVec 4, (0x220#12 ++ r : BitVec 16).extractLsb' 0 4 = r := by decide
    simp only [Instr.opcode, Instr.header, Instr.payload, decodeOp, hr]
  | busSilent b => cases b <;> rfl
  | busArtx a => cases a <;> rfl
  | urxChunk bs =>
    have hbs : bs.length < 2 ^ 16 := by simpa [Instr.wf] using hwf
    simp only [Instr.opcode, Instr.payload, decodeOp, decodeBytes_encodeBytes hbs]
  | utxSend bs =>
    have hbs : bs.length < 2 ^ 16 := by simpa [Instr.wf] using hwf
    simp only [Instr.opcode, Instr.payload, decodeOp, decodeBytes_encodeBytes hbs]
  | rbPend | rbPeek | rbAdv | rbPop | ctxProc | busEn | busDis | crxPend | crxRecv | crxOvf | urxDrain | utxDone
  | loopIter => rfl

/-- `i` is what bytes `bs` after a header `h` say, `rest` being left over. -/
structure Reads (size : Nat) (h : Header) (bs rest : List Byte) (i : Instr) : Prop where
  header : i.header = h
  payload : bs = i.payload ++ rest
  item : ∀ item, i = .rbPush item → item.length = size

section Rows
variable {size : Nat} {h v : Header} {bs rest : List Byte} {i i' : Instr}

theorem header_of_full_mask (hs : h &&& 0xFFFF = v) : h = v := by
  rwa [show (0xFFFF : Header) = BitVec.allOnes 16 from rfl, BitVec.and_allOnes] at hs

/-- A header of the row of BUS.RATE is the row's value with its code (R94). -/
theorem header_of_rate_mask (hs : h &&& 0xFFF0 = 0x2200) : 0x220#12 ++ h.extractLsb' 0 4 = h := by
  apply eq_of_bits16
  intro k hk
  have hbit := congrArg (fun w : BitVec 16 => w.getLsbD k) hs
  rw [BitVec.getLsbD_append, BitVec.getLsbD_extractLsb']
  simp only [BitVec.getLsbD_and] at hbit
  interval_cases k <;> simp_all

/-- A header of a row whose operand is bit 0 is the row's value with that bit (R94). -/
theorem header_of_flag_mask {w : BitVec 15} (hs : h &&& 0xFFFE = w ++ 0#1) : w ++ BitVec.ofBool (h.getLsbD 0) = h := by
  apply eq_of_bits16
  intro k hk
  have hbit := congrArg (fun w : BitVec 16 => w.getLsbD k) hs
  simp only [BitVec.getLsbD_and, BitVec.getLsbD_append] at hbit
  rw [BitVec.getLsbD_append]
  interval_cases k <;> simp_all

/-- The rows without operands and without payload. -/
theorem Reads.plain (hs : h &&& 0xFFFF = i.header) (hp : i.payload = []) (hne : ∀ item, i ≠ .rbPush item)
    (hd : (.ok (i, bs) : Except DecodeError (Instr × List Byte)) = .ok (i', rest)) : Reads size h bs rest i' := by
  cases hd
  exact ⟨(header_of_full_mask hs).symm, by rw [hp, List.nil_append], fun item e => absurd e (hne item)⟩

/-- What a row reads after a header that selects it has that header and, as its payload, the bytes read. -/
theorem reads_of_decodeOp {r : Row} (hr : r ∈ rows) (hs : h &&& r.mask = r.value)
    (hd : decodeOp size r.op h bs = .ok (i, rest)) : Reads size h bs rest i := by
  simp only [rows, List.mem_cons, List.not_mem_nil, or_false] at hr
  obtain rfl | rfl | rfl | rfl | rfl | rfl | rfl | rfl | rfl | rfl | rfl | rfl | rfl | rfl | rfl | rfl | rfl | rfl | rfl |
    rfl := hr
  · simp only [decodeOp] at hd
    split at hd
    · next v r hv =>
      cases hd
      obtain ⟨hb, hl⟩ := decodeItem_eq_ok hv
      exact ⟨(header_of_full_mask hs).symm, hb, by rintro _ ⟨⟩; exact hl⟩
    · cases hd
  · exact Reads.plain (i := .rbPend) hs rfl nofun hd
  · exact Reads.plain (i := .rbPeek) hs rfl nofun hd
  · exact Reads.plain (i := .rbAdv) hs rfl nofun hd
  · exact Reads.plain (i := .rbPop) hs rfl nofun hd
  · simp only [decodeOp] at hd
    split at hd
    · next f r hf =>
      cases hd
      exact ⟨(header_of_full_mask hs).symm, decodeFrame_eq_ok hf, nofun⟩
    · cases hd
  · exact Reads.plain (i := .ctxProc) hs rfl nofun hd
  · exact Reads.plain (i := .busEn) hs rfl nofun hd
  · exact Reads.plain (i := .busDis) hs rfl nofun hd
  · cases hd
    exact ⟨header_of_rate_mask hs, rfl, nofun⟩
  · cases hd
    exact ⟨header_of_flag_mask (w := 0x1180#15) hs, rfl, nofun⟩
  · cases hd
    exact ⟨header_of_flag_mask (w := 0x1200#15) hs, rfl, nofun⟩
  · exact Reads.plain (i := .crxPend) hs rfl nofun hd
  · exact Reads.plain (i := .crxRecv) hs rfl nofun hd
  · exact Reads.plain (i := .crxOvf) hs rfl nofun hd
  · simp only [decodeOp] at hd
    split at hd
    · next v r hv =>
      cases hd
      exact ⟨(header_of_full_mask hs).symm, decodeBytes_eq_ok hv, nofun⟩
    · cases hd
  · exact Reads.plain (i := .urxDrain) hs rfl nofun hd
  · simp only [decodeOp] at hd
    split at hd
    · next v r hv =>
      cases hd
      exact ⟨(header_of_full_mask hs).symm, decodeBytes_eq_ok hv, nofun⟩
    · cases hd
  · exact Reads.plain (i := .utxDone) hs rfl nofun hd
  · exact Reads.plain (i := .loopIter) hs rfl nofun hd

end Rows

/-- Settles O2: the two bytes read first are the header of the request, and what the row reads is its payload. -/
theorem encodeOfDecodeIsTheBytes : Obligations.EncodeOfDecodeIsTheBytes := by
  intro size bs rest i hd
  unfold decode at hd
  split at hd
  · next lo hi tail =>
    split at hd
    · next r hr =>
      obtain ⟨hmem, hsel⟩ := selectRow_eq_ok hr
      obtain ⟨hh, hp, hitem⟩ := reads_of_decodeOp hmem hsel hd
      refine ⟨?_, hitem⟩
      rw [encode, hh, bytes16_word16, hp, List.append_assoc]
      rfl
    · cases hd
  · cases hd

/-! ### The rows of the map -/

/-- Two rows that agree where both look are one row. -/
theorem rows_disjoint : ∀ r ∈ rows, ∀ r' ∈ rows, r.value &&& r'.mask = r'.value &&& r.mask → r = r' := by decide

/-- Settles O3: a header that two rows select shows each one's value under the other's mask. -/
theorem opcodeRowsDoNotOverlap : Obligations.OpcodeRowsDoNotOverlap := by
  intro h r r' hr hr' hs hs'
  rw [Row.selects_iff] at hs hs'
  refine rows_disjoint r hr r' hr' ?_
  rw [← hs, ← hs', BitVec.and_assoc, BitVec.and_assoc, BitVec.and_comm r.mask]

/-- Every row looks at all of `FAM` and `FN`. -/
theorem rows_mask : ∀ r ∈ rows, famOf r.mask = BitVec.allOnes 4 ∧ fnOf r.mask = BitVec.allOnes 4 := by decide

theorem rows_family : ∀ r ∈ rows, (famOf r.value).toNat < 7 := by decide

/-- A family and a function name at most one row. -/
theorem rows_name : ∀ r ∈ rows, ∀ r' ∈ rows, famOf r.value = famOf r'.value → fnOf r.value = fnOf r'.value → r = r' := by
  decide

theorem Row.name_of_selected {r : Row} (hr : r ∈ rows) {h : Header} (hs : h &&& r.mask = r.value) :
    famOf r.value = famOf h ∧ fnOf r.value = fnOf h := by
  obtain ⟨hfam, hfn⟩ := rows_mask r hr
  simp only [famOf, fnOf] at hfam hfn ⊢
  rw [← hs, BitVec.extractLsb'_and, BitVec.extractLsb'_and, hfam, hfn, BitVec.and_allOnes, BitVec.and_allOnes]
  exact ⟨rfl, rfl⟩

/-- The three ways of R109 in which a header is reserved: its family, its function, a bit of its argument. -/
def Reserved (h : Header) : Prop :=
  7 ≤ (famOf h).toNat ∨ (∀ r ∈ rows, ¬ (famOf r.value = famOf h ∧ fnOf r.value = fnOf h)) ∨
    (∃ r ∈ rows, famOf r.value = famOf h ∧ fnOf r.value = fnOf h ∧ h &&& r.mask ≠ r.value)

/-- No row selects a reserved header. -/
theorem Reserved.not_selected {h : Header} (hres : Reserved h) {r : Row} (hr : r ∈ rows) : h &&& r.mask ≠ r.value := by
  intro hs
  obtain ⟨hfam, hfn⟩ := Row.name_of_selected hr hs
  obtain hge | hnone | ⟨r', hr', hfam', hfn', hne⟩ := hres
  · have := rows_family r hr
    rw [hfam] at this
    omega
  · exact hnone r hr ⟨hfam, hfn⟩
  · obtain rfl := rows_name r hr r' hr' (hfam.trans hfam'.symm) (hfn.trans hfn'.symm)
    exact hne hs

/-- A header that no row selects is rejected, each kind under its name, and all of them refused alike. -/
theorem selectRow_error {h : Header} (hnone : ∀ r ∈ rows, h &&& r.mask ≠ r.value) :
    ∃ e, selectRow h = .error e ∧ Machine.refusalOf e = .reservedHeader := by
  have hfind : rows.find? (fun r => r.selects h) = none :=
    List.find?_eq_none.mpr fun r hr => by rw [Row.selects_iff]; exact hnone r hr
  unfold selectRow
  rw [hfind]
  dsimp only
  split
  · exact ⟨_, rfl, rfl⟩
  · split
    · exact ⟨_, rfl, rfl⟩
    · exact ⟨_, rfl, rfl⟩

namespace Machine

theorem present_reserved {h : Header} (hres : Reserved h) (port : Port) (rest : List Byte) (s : State) :
    present port (bytes16 h ++ rest) s = .refused .reservedHeader := by
  obtain ⟨e, he, hrefusal⟩ := selectRow_error fun r hr => hres.not_selected hr
  have hd : decode Config.impl.itemSize (bytes16 h ++ rest) = .error e := by
    simp only [bytes16, List.cons_append, List.nil_append, decode, word16_bytes, he]
  simp only [present, hd, hrefusal]

theorem rateOf_reserved : ∀ r : BitVec 4, 9 ≤ r.toNat → rateOf r = none := by decide

theorem exec_busRate_reserved {r : BitVec 4} (hr : 9 ≤ r.toNat) (s : State) :
    exec (.busRate r) s = .refused .reservedRate := by
  simp only [exec, execBusRate, rateOf_reserved r hr]

/-- The row of BUS.RATE reads all sixteen codes (R102). -/
theorem decode_busRate (size : Nat) (r : BitVec 4) (rest : List Byte) :
    decode size (bytes16 (0x220#12 ++ r) ++ rest) = .ok (.busRate r, rest) := by
  obtain ⟨row, hrow, hop⟩ := selectRow_header (.busRate r)
  have hcode : ∀ r : BitVec 4, (0x220#12 ++ r : BitVec 16).extractLsb' 0 4 = r := by decide
  rw [show (0x220#12 ++ r : Header) = (Instr.busRate r).header from rfl, decode_bytes16 hrow, hop]
  simp only [Instr.opcode, Instr.header, decodeOp, hcode]

/-- A reserved rate is refused whoever presents it: as a request that is too long, by the port, or by the operation. -/
theorem present_busRate_reserved {r : BitVec 4} (hr : 9 ≤ r.toNat) (port : Port) (rest : List Byte) (s : State) :
    ∃ x, present port (bytes16 (0x220#12 ++ r) ++ rest) s = .refused x := by
  simp only [present, decode_busRate]
  cases rest with
  | cons b rest => exact ⟨_, rfl⟩
  | nil =>
    dsimp only
    cases admission port (.busRate r) s with
    | some x => exact ⟨x, rfl⟩
    | none => exact ⟨_, exec_busRate_reserved hr s⟩

/-- Settles O4: no row selects a reserved header; BUS.RATE reads all sixteen codes, and refuses nine of them itself. -/
theorem reservedHeadersAreRefused : Obligations.ReservedHeadersAreRefused := by
  refine ⟨fun h port rest s hres => present_reserved hres port rest s, fun r port rest s hr =>
    ⟨exec_busRate_reserved hr s, present_busRate_reserved hr port rest s, fun hidle => ?_⟩⟩
  have hd := decode_busRate Config.impl.itemSize r []
  rw [List.append_nil] at hd
  have hadm : admission .fgp (.busRate r) s = none := by
    simp [admission, Instr.port, Instr.opcode, Opcode.port, hidle]
  simp only [present, hd, hadm, exec_busRate_reserved hr]

/-- Settles O5: each of the twenty requests is read off its bytes. -/
theorem writtenWordsDecode : Obligations.WrittenWordsDecode :=
  ⟨rfl, rfl, rfl, rfl, rfl, rfl, rfl, rfl, rfl, rfl, rfl, rfl, rfl, rfl, rfl, rfl, rfl, rfl, rfl, rfl⟩

end Machine

end Sys2Proof
end

section
/-! PROOFS. What one request does: the effect of each of the twenty operations, said once, and from it the frame of every
operation (spec/60_exceptions.md section 5). -/

namespace Sys2Proof.Machine

/-! ### The effects -/

/-- Everything an operation that runs can do, in the named updates of the state. The operations of several micro-steps are
taken apart by `execUrxDrain_next` and `execLoopIter_next`. -/
inductive Effect : Instr → State → State → Prop where
  | pushFull (item : List Byte) (s : State) (size : item.length = Config.impl.itemSize)
      (full : ringFull Config.impl.ringN s.q.head s.q.tail = true) :
      Effect (.rbPush item) s (s.emit (.result .p .full))
  | push (item : List Byte) (s : State) (size : item.length = Config.impl.itemSize)
      (room : ringFull Config.impl.ringN s.q.head s.q.tail = false) (inRange : s.q.head < Config.impl.ringN) :
      Effect (.rbPush item) s ((rbPushed Config.impl item s).emit (.result .p .ok))
  | pend (s : State) : Effect .rbPend s (s.emit (.result .c (.okBool (!ringEmpty s.q.head s.q.tail))))
  | peek (s : State) (live : ringEmpty s.q.head s.q.tail = false) (inRange : s.q.tail < Config.impl.ringN) :
      Effect .rbPeek s (s.emit (.result .c (.okItem (s.q.slot.readOr (Config.impl.freeItem s.resets) s.q.tail))))
  | adv (s : State) (live : ringEmpty s.q.head s.q.tail = false) :
      Effect .rbAdv s ((rbAdvance Config.impl s).emit (.result .c .ok))
  | popEmpty (s : State) (empty : ringEmpty s.q.head s.q.tail = true) : Effect .rbPop s (s.emit (.result .c .empty))
  | pop (s : State) (live : ringEmpty s.q.head s.q.tail = false) (inRange : s.q.tail < Config.impl.ringN) :
      Effect .rbPop s ((rbAdvance Config.impl s).emit
        (.result .c (.okItem (s.q.slot.readOr (Config.impl.freeItem s.resets) s.q.tail))))
  | enqFull (f : FrameRecord) (s : State) (wf : f.wf = true) (full : ringFull nTx s.ctxHead s.ctxTail = true) :
      Effect (.ctxEnq f) s ((s.raise Config.impl .canQueueFull).emit (.result .fgp .full))
  | enq (f : FrameRecord) (s : State) (wf : f.wf = true) (room : ringFull nTx s.ctxHead s.ctxTail = false)
      (inRange : s.ctxHead < nTx) : Effect (.ctxEnq f) s ((ctxEnqueued (frameOf f) s).emit (.result .fgp .ok))
  | proc (s s' : State) (run : ctxProc Config.impl s = .ok (.ok, s')) :
      Effect .ctxProc s (s'.emit (.result .fgp .ok))
  | en (s : State) : Effect .busEn s ((busEn s).emit (.result .fgp .ok))
  | dis (s : State) : Effect .busDis s ((busDis s).emit (.result .fgp .ok))
  | rate (r : BitVec 4) (rate : Rate) (s : State) (code : rateOf r = some rate) :
      Effect (.busRate r) s ((busRate Config.impl rate s).emit (.result .fgp .ok))
  | silent (b : Bool) (s : State) : Effect (.busSilent b) s ((busSilent b s).emit (.result .fgp .ok))
  | artx (a : Bool) (s : State) : Effect (.busArtx a) s ((busArtx a s).emit (.result .fgp .ok))
  | crxPend (s : State) :
      Effect .crxPend s ((crxPend Config.impl s).2.emit (.result .fgp (.okBool (crxPend Config.impl s).1)))
  | crxRecv (s : State) : Effect .crxRecv s ((crxRecv Config.impl s).2.emit (.result .fgp (crxRecv Config.impl s).1))
  | ovf (s : State) : Effect .crxOvf s ((s.raise Config.impl .canRxFifoOverflow).emit (.result .irqp .ok))
  | chunkLost (bytes : List Byte) (a : Nat) (s : State) (short : bytes.length ≤ Config.impl.app)
      (armed : s.urxArmed = some a) (inRange : a < Config.impl.nRx)
      (full : ringFull Config.impl.nRx s.urxHead s.urxTail = true) :
      Effect (.urxChunk bytes) s ((chunkLost Config.impl a bytes s).emit (.result .irqp .ok))
  | chunkCaptured (bytes : List Byte) (a : Nat) (s : State) (short : bytes.length ≤ Config.impl.app)
      (armed : s.urxArmed = some a) (inRange : a < Config.impl.nRx)
      (room : ringFull Config.impl.nRx s.urxHead s.urxTail = false) (headInRange : s.urxHead < Config.impl.nRx) :
      Effect (.urxChunk bytes) s ((chunkCaptured Config.impl a bytes s).emit (.result .irqp .ok))
  | drain (s t : State) (run : execUrxDrain s = .next t) : Effect .urxDrain s t
  | send (bytes : List Byte) (s : State) :
      Effect (.utxSend bytes) s ((utxSend Config.impl bytes s).2.emit (.result .fgp (utxSend Config.impl bytes s).1))
  | done (s : State) (busy : s.utxBusy = true) :
      Effect .utxDone s (({ s with utxBusy := false } : State).emit (.result .envp .ok))
  | iter (s t : State) (run : execLoopIter s = .next t) : Effect .loopIter s t

theorem execRbPush_effect {item : List Byte} {s t : State} (h : execRbPush item s = .next t) :
    Effect (.rbPush item) s t := by
  unfold execRbPush at h
  split at h
  · next hsize =>
    obtain ⟨r, s', hr, rfl⟩ := finish_next h
    obtain ⟨hfull, rfl, rfl⟩ | ⟨hroom, hlt, rfl, rfl⟩ := rbPush_cases hr
    · exact .pushFull item s' hsize hfull
    · exact .push item s hsize hroom hlt
  · cases h

theorem execRbPeek_effect {s t : State} (h : execRbPeek s = .next t) : Effect .rbPeek s t := by
  unfold execRbPeek at h
  split at h
  · cases h
  · next hlive =>
    obtain ⟨r, s', hr, rfl⟩ := finish_next h
    obtain ⟨hlt, rfl, rfl⟩ := rbPeek_cases hr
    exact .peek s' (Bool.eq_false_of_not_eq_true hlive) hlt

theorem execRbAdv_effect {s t : State} (h : execRbAdv s = .next t) : Effect .rbAdv s t := by
  unfold execRbAdv at h
  split at h
  · cases h
  · next hlive =>
    cases h
    exact .adv s (Bool.eq_false_of_not_eq_true hlive)

theorem execRbPop_effect {s t : State} (h : execRbPop s = .next t) : Effect .rbPop s t := by
  obtain ⟨r, s', hr, rfl⟩ := finish_next h
  obtain ⟨hempty, rfl, rfl⟩ | ⟨hlive, hlt, rfl, rfl⟩ := rbPop_cases hr
  · exact .popEmpty s' hempty
  · exact .pop s hlive hlt

theorem execCtxEnq_effect {f : FrameRecord} {s t : State} (h : execCtxEnq f s = .next t) : Effect (.ctxEnq f) s t := by
  unfold execCtxEnq at h
  split at h
  · next hwf =>
    obtain ⟨r, s', hr, rfl⟩ := finish_next h
    obtain ⟨hfull, rfl, rfl⟩ | ⟨hroom, hlt, _, rfl, rfl⟩ := ctxEnq_cases hr
    · exact .enqFull f s hwf hfull
    · exact .enq f s hwf hroom hlt
  · cases h

theorem execBusRate_effect {r : BitVec 4} {s t : State} (h : execBusRate r s = .next t) : Effect (.busRate r) s t := by
  unfold execBusRate at h
  split at h
  · next rate hrate =>
    cases h
    exact .rate r rate s hrate
  · cases h

theorem execUrxChunk_effect {bytes : List Byte} {s t : State} (h : execUrxChunk bytes s = .next t) :
    Effect (.urxChunk bytes) s t := by
  unfold execUrxChunk at h
  split at h
  · cases h
  · split at h
    · cases h
    · next a harmed =>
      obtain ⟨r, s', hr, rfl⟩ := finish_next h
      obtain ⟨hlt, hshort, rfl, ⟨hfull, rfl⟩ | ⟨hroom, hhead, rfl⟩⟩ := urxChunk_cases hr
      · exact .chunkLost bytes a s hshort harmed hlt hfull
      · exact .chunkCaptured bytes a s hshort harmed hlt hroom hhead

theorem execUtxDone_effect {s t : State} (h : execUtxDone s = .next t) : Effect .utxDone s t := by
  unfold execUtxDone at h
  split at h
  · next hbusy =>
    cases h
    exact .done s hbusy
  · cases h

/-- An operation that runs has one of its effects. -/
theorem exec_effect {i : Instr} {s t : State} (h : exec i s = .next t) : Effect i s t := by
  cases i with
  | rbPush item => exact execRbPush_effect h
  | rbPend => cases h; exact .pend s
  | rbPeek => exact execRbPeek_effect h
  | rbAdv => exact execRbAdv_effect h
  | rbPop => exact execRbPop_effect h
  | ctxEnq f => exact execCtxEnq_effect h
  | ctxProc =>
    obtain ⟨r, s', hr, rfl⟩ := finish_next h
    obtain ⟨rfl, _⟩ := ctxProc_cases hr
    exact .proc s s' hr
  | busEn => cases h; exact .en s
  | busDis => cases h; exact .dis s
  | busRate r => exact execBusRate_effect h
  | busSilent b => cases h; exact .silent b s
  | busArtx a => cases h; exact .artx a s
  | crxPend => cases h; exact .crxPend s
  | crxRecv => cases h; exact .crxRecv s
  | crxOvf => cases h; exact .ovf s
  | urxChunk bytes => exact execUrxChunk_effect h
  | urxDrain => exact .drain s t h
  | utxSend bytes => cases h; exact .send bytes s
  | utxDone => exact execUtxDone_effect h
  | loopIter => exact .iter s t h

/-! ### The frames -/

theorem busEn_frame (s : State) : busEn s = { s with busState := (busEn s).busState, log := (busEn s).log } := by
  unfold busEn; split <;> rfl

theorem busDis_frame (s : State) : busDis s = { s with busState := (busDis s).busState, log := (busDis s).log } := by
  unfold busDis; split <;> rfl

theorem busRate_frame (c : Config) (r : Rate) (s : State) :
    busRate c r s = { s with busPresc := (busRate c r s).busPresc } := by
  unfold busRate; split <;> rfl

theorem busSilent_frame (b : Bool) (s : State) : busSilent b s = { s with busSilent := (busSilent b s).busSilent } := by
  unfold busSilent; split <;> rfl

theorem busArtx_frame (a : Bool) (s : State) : busArtx a s = { s with busArtx := (busArtx a s).busArtx } := by
  unfold busArtx; split <;> rfl

theorem crxPend_frame (c : Config) (s : State) : (crxPend c s).2 = { s with answers := (crxPend c s).2.answers } := by
  obtain ⟨b, a, e⟩ := crxPend_state c s
  rw [e]

theorem crxRecv_frame (c : Config) (s : State) : (crxRecv c s).2 = { s with answers := (crxRecv c s).2.answers } := by
  obtain ⟨f, a, _, e⟩ := crxRecv_cases c s
  rw [e]

theorem execUrxDrain_frame {s t : State} (h : execUrxDrain s = .next t) : Frame .urxDrain s t := by
  obtain ⟨d, s', hs, ht⟩ := execUrxDrain_next h
  obtain ⟨_, hb⟩ | ⟨l, _, hl⟩ := hs
  · have hf : s' = { s with urxScan := s'.urxScan, urxPos := s'.urxPos } := by simpa [hb] using drainBegin_frame s
    obtain ⟨_, rfl⟩ | ⟨l, _, rfl⟩ := ht <;> (rw [hf]; rfl)
  · have hf := drainLine_frame hl
    obtain ⟨_, rfl⟩ | ⟨l, _, rfl⟩ := ht <;> (rw [hf]; rfl)

theorem execLoopIter_frame {s t : State} (h : execLoopIter s = .next t) : Frame .loopIter s t := by
  obtain ⟨d, s', hs, ht⟩ := execLoopIter_next h
  obtain ⟨_, hb⟩ | ⟨l, _, hl⟩ := hs
  · have hf := ctxProc_frame (loopBegin_cases hb).2
    obtain ⟨_, rfl⟩ | ⟨l, _, rfl⟩ := ht <;> (rw [hf]; rfl)
  · have hf := loopLine_frame hl
    obtain ⟨_, rfl⟩ | ⟨l, _, rfl⟩ := ht <;> (rw [hf]; rfl)

theorem Effect.frame {i : Instr} {s t : State} (h : Effect i s t) : Frame i s t := by
  cases h with
  | pushFull | push | pend | peek | adv | popEmpty | pop | enqFull | enq | ovf | chunkLost | chunkCaptured | done => rfl
  | proc s s' run => rw [ctxProc_frame run]; rfl
  | en => rw [busEn_frame]; rfl
  | dis => rw [busDis_frame]; rfl
  | rate r rate => rw [busRate_frame]; rfl
  | silent b => rw [busSilent_frame]; rfl
  | artx a => rw [busArtx_frame]; rfl
  | crxPend => rw [crxPend_frame]; rfl
  | crxRecv => rw [crxRecv_frame]; rfl
  | send bytes => rw [utxSend_frame]; rfl
  | drain s t run => exact execUrxDrain_frame run
  | iter s t run => exact execLoopIter_frame run

/-- Settles O55: each effect names what it changes. -/
theorem everyOperationKeepsToItsFrame : Obligations.EveryOperationKeepsToItsFrame :=
  fun _ _ _ h => (exec_effect h).frame

/-! ### The micro-steps of the foreground -/

/-- A call on the CAN bus controller. -/
def Obs.onBus : Obs → Bool
  | .canConfig _ _ _ => true
  | .canFilterPassAll => true
  | .canStart => true
  | .canReset => true
  | _ => false

/-- Everything a micro-step of URX.DRAIN or LOOP.ITER can do to the memories, the transmit queue, the bus and the gate, with
the line at which it does it. -/
inductive FgMove (i : Instr) (s t : State) : Prop where
  /-- None of these changes. -/
  | quiet (same : t = { s with
        urxTail := t.urxTail, urxScan := t.urxScan, urxPos := t.urxPos, lineIdx := t.lineIdx, fgPhase := t.fgPhase
        pos := t.pos, answers := t.answers, evt := t.evt, log := t.log })
      (log : ∃ new, t.log = new ++ s.log ∧ ∀ o ∈ new, o.onBus = false)
  /-- The oldest frame is submitted (spec/46_loop.md R231 line 1). -/
  | submit (iter : i = .loopIter) (live : ringEmpty s.ctxHead s.ctxTail = false) (inRange : s.ctxTail < nTx) (acc : Bool)
      (a : Answers) (p : Pos) (eq : t = { ctxSubmitted Config.impl acc a s with pos := p })
  /-- An operation of the parser runs (spec/44_usbrx.md R198 line 6). -/
  | run (cmd : Cmd) (rest : List Cmd) (ok : Bool) (line : s.pos.drainLine = some (.run cmd rest ok)) (s' : State)
      (run : runCmd Config.impl cmd s = .ok s') (p : Pos) (eq : t = { s' with pos := p })
  /-- Bytes are offered to the gate: a reply, or a frame's text. -/
  | send (bytes : List Byte)
      (line : i = .loopIter ∧ s.pos = .loop (.send bytes) ∨ ∃ ok, s.pos.drainLine = some (.reply ok) ∧ bytes.length = 1) (p : Pos)
      (eq : t = { (utxSend Config.impl bytes s).2 with pos := p })
  /-- A byte is appended to the line (spec/44_usbrx.md R202). -/
  | append (b : Byte) (line : s.pos.drainLine = some (.append b)) (room : s.lineIdx < Config.impl.mtu) (p : Pos)
      (eq : t = { byteAppended b s with pos := p })

/-- What becomes of a state when a line has run: the foreground goes to another line, or, with the last line, its request
returns. -/
inductive Goes {α : Type} (d : Option α) (s' t : State) : Prop where
  | on (p : Pos) (eq : t = { s' with pos := p })
  | back (last : d = none) (eq : t = ({ s' with pos := .rest } : State).emit (.result .fgp .ok))

theorem Goes.on_of_some {α : Type} {l : α} {s' t : State} (h : Goes (some l) s' t) : ∃ p, t = { s' with pos := p } := by
  cases h with
  | on p eq => exact ⟨p, eq⟩
  | back last => cases last

/-- What `execUrxDrain_next` and `execLoopIter_next` say of the end of a micro-step. -/
theorem Goes.ofNext {α : Type} {f : α → Pos} {d : Option α} {s' t : State}
    (h : (d = none ∧ t = ({ s' with pos := .rest } : State).emit (.result .fgp .ok)) ∨
      ∃ l, d = some l ∧ t = { s' with pos := f l }) : Goes d s' t := by
  obtain ⟨hn, eq⟩ | ⟨l, _, eq⟩ := h
  · exact .back hn eq
  · exact .on _ eq

/-- A change that leaves the memories, the queue, the bus and the gate alone, and adds `new` to the log. -/
theorem FgMove.ofQuiet {α : Type} {i : Instr} {d : Option α} {s s' t : State} (hg : Goes d s' t) (same : s' = { s with
      urxTail := s'.urxTail, urxScan := s'.urxScan, urxPos := s'.urxPos, lineIdx := s'.lineIdx, fgPhase := s'.fgPhase
      pos := s'.pos, answers := s'.answers, evt := s'.evt, log := s'.log })
    (new : List Obs) (log : s'.log = new ++ s.log) (hnew : ∀ o ∈ new, o.onBus = false) : FgMove i s t := by
  cases hg with
  | on p eq => exact .quiet (by rw [eq, same]) ⟨new, by rw [eq]; exact log, hnew⟩
  | back last eq =>
    refine .quiet (by rw [eq, same]; rfl) ⟨.result .fgp .ok :: new, ?_, ?_⟩
    · rw [eq, State.emit_log, List.cons_append, ← log]
    · intro o ho
      obtain rfl | ho := List.mem_cons.mp ho
      · rfl
      · exact hnew o ho

theorem drainBegin_move {α : Type} {i : Instr} {x : Option α} {s s' t : State} {d : Option DrainLine} (h : drainBegin s = (d, s'))
    (hg : Goes x s' t) : FgMove i s t := by
  obtain ⟨_, e⟩ | ⟨_, e⟩ := drainBegin_cases s <;>
  · obtain ⟨_, rfl⟩ := Prod.mk.inj (e.symm.trans h)
    exact .ofQuiet hg rfl [] rfl nofun

/-- A line of URX.DRAIN, be it of its own or inside an iteration. -/
theorem drainLine_move {i : Instr} {l : DrainLine} {d : Option DrainLine} {s s' t : State} (hl : s.pos.drainLine = some l)
    (h : drainLine Config.impl l s = .ok (d, s')) (hg : Goes d s' t) :
    FgMove i s t := by
  have hc := drainLine_cases h
  cases l with
  | test => obtain ⟨_, _, rfl⟩ := hc; exact .ofQuiet hg rfl [] rfl nofun
  | read => obtain ⟨_, _, _, rfl⟩ := hc; exact .ofQuiet hg rfl [] rfl nofun
  | branch b => obtain ⟨_, rfl⟩ := hc; exact .ofQuiet hg rfl [] rfl nofun
  | parse =>
    obtain ⟨_, _, rfl⟩ := hc
    exact .ofQuiet hg rfl [.parse (lineOf Config.impl s)] rfl (by simp [Obs.onBus])
  | run cmd rest ok =>
    obtain ⟨hrun, rfl⟩ := hc
    obtain ⟨p, hp⟩ := hg.on_of_some
    exact .run cmd rest ok hl s' hrun p hp
  | reply ok =>
    obtain ⟨rfl, rfl⟩ := hc
    obtain ⟨p, hp⟩ := hg.on_of_some
    exact .send _ (.inr ⟨ok, hl, rfl⟩) p hp
  | clear => obtain ⟨_, rfl⟩ := hc; exact .ofQuiet hg rfl [] rfl nofun
  | overflow => obtain ⟨_, rfl⟩ := hc; exact .ofQuiet hg rfl [] rfl nofun
  | append b =>
    obtain ⟨hroom, rfl, rfl⟩ := hc
    obtain ⟨p, hp⟩ := hg.on_of_some
    exact .append b hl hroom p hp
  | next => obtain ⟨_, rfl⟩ := hc; exact .ofQuiet hg rfl [] rfl nofun
  | advance => obtain ⟨_, rfl⟩ := hc; exact .ofQuiet hg rfl [] rfl nofun
  | ret => obtain ⟨_, rfl⟩ := hc; exact .ofQuiet hg rfl [] rfl nofun

theorem execUrxDrain_move {s t : State} (h : execUrxDrain s = .next t) : FgMove .urxDrain s t := by
  obtain ⟨d, s', ⟨_, hb⟩ | ⟨l, hp, hl⟩, ht⟩ := execUrxDrain_next h
  · exact drainBegin_move hb (.ofNext ht)
  · exact drainLine_move (by rw [hp]; rfl) hl (.ofNext ht)

theorem ctxProc_move {s s' t : State} {r : Result} (h : ctxProc Config.impl s = .ok (r, s')) {p : Pos}
    (ht : t = { s' with pos := p }) : FgMove .loopIter s t := by
  obtain ⟨_, ⟨_, rfl⟩ | ⟨_, _, rfl⟩ | ⟨hlive, _, hlt, acc, a, rfl⟩⟩ := ctxProc_cases h
  · exact .ofQuiet (d := some p) (.on p ht) rfl [] rfl nofun
  · obtain ⟨m, a, hd⟩ := drawMailboxes_cases Config.impl s
    rw [hd] at ht
    exact .ofQuiet (d := some p) (.on p ht) rfl [] rfl nofun
  · exact .submit rfl hlive hlt acc a p ht

theorem loopLine_move {l : LoopLine} {d : Option LoopLine} {s s' t : State} (hl : s.pos = .loop l)
    (h : loopLine Config.impl l s = .ok (d, s')) (hg : Goes d s' t) :
    FgMove .loopIter s t := by
  have hc := loopLine_cases h
  cases l with
  | toCanRx => obtain ⟨_, rfl⟩ := hc; exact .ofQuiet hg rfl [] rfl nofun
  | pend => obtain ⟨_, rfl⟩ := hc; exact .ofQuiet hg (by rw [crxPend_frame]) [] (by rw [crxPend_frame]; rfl) nofun
  | pended p => obtain ⟨_, rfl⟩ := hc; exact .ofQuiet hg rfl [] rfl nofun
  | recv => obtain ⟨_, rfl⟩ := hc; exact .ofQuiet hg (by rw [crxRecv_frame]) [] (by rw [crxRecv_frame]; rfl) nofun
  | received r => obtain ⟨_, rfl⟩ := hc; exact .ofQuiet hg rfl [] rfl nofun
  | format f => obtain ⟨_, rfl⟩ := hc; exact .ofQuiet hg rfl [.format f] rfl (by simp [Obs.onBus])
  | send bytes =>
    obtain ⟨rfl, rfl⟩ := hc
    obtain ⟨p, hp⟩ := hg.on_of_some
    exact .send bytes (.inl ⟨rfl, hl⟩) p hp
  | toUsbRx => obtain ⟨_, rfl⟩ := hc; exact .ofQuiet hg rfl [] rfl nofun
  | drain x =>
    cases x with
    | none => obtain ⟨_, rfl⟩ := hc; exact drainBegin_move rfl hg
    | some x =>
      obtain ⟨d', hd', rfl⟩ := hc
      obtain ⟨p, hp⟩ := hg.on_of_some
      exact drainLine_move (by rw [hl]; rfl) hd' (.on p hp)
  | toTx => obtain ⟨_, rfl⟩ := hc; exact .ofQuiet hg rfl [] rfl nofun
  | ret => obtain ⟨_, rfl⟩ := hc; exact .ofQuiet hg rfl [] rfl nofun

theorem execLoopIter_move {s t : State} (h : execLoopIter s = .next t) : FgMove .loopIter s t := by
  obtain ⟨d, s', ⟨_, hb⟩ | ⟨l, hp, hl⟩, ht⟩ := execLoopIter_next h
  · obtain ⟨rfl, hproc⟩ := loopBegin_cases hb
    obtain ⟨p, hp'⟩ := (Goes.ofNext ht).on_of_some
    exact ctxProc_move hproc hp'
  · exact loopLine_move hp hl (.ofNext ht)

/-- The micro-steps of both requests that take several. -/
theorem exec_fgMove {i : Instr} {s t : State} (hi : i = .urxDrain ∨ i = .loopIter) (h : exec i s = .next t) :
    FgMove i s t := by
  obtain rfl | rfl := hi
  · exact execUrxDrain_move h
  · exact execLoopIter_move h

end Sys2Proof.Machine
end

section
/-! PROOFS. The step (spec/00_scope.md R6; spec/30_encoding.md R90, R110; spec/70_reset_and_hazards.md): whose turn it is, what
a step can do, and the invariant that every step keeps. -/

namespace Sys2Proof.Machine

/-! ### Whose turn it is -/

theorem outstanding_eq_none_iff (s : State) : outstanding s = none ↔ s.pos = .rest := by
  unfold outstanding; split <;> simp_all

theorem outstanding_eq_urxDrain_iff (s : State) : outstanding s = some .urxDrain ↔ ∃ l, s.pos = .drain l := by
  unfold outstanding; split <;> simp_all

theorem outstanding_eq_loopIter_iff (s : State) : outstanding s = some .loopIter ↔ ∃ l, s.pos = .loop l := by
  unfold outstanding; split <;> simp_all

/-- A request that its port accepts, with none outstanding before it on `FGP`, is admitted. -/
theorem admission_eq_none {port : Port} {i : Instr} {s : State} (hport : i.port = port)
    (hidle : port = .fgp → outstanding s = none) : admission port i s = none := by
  have h : ¬ (port = .fgp ∧ (outstanding s).isSome = true) := fun ⟨hp, hs⟩ => by simp [hidle hp] at hs
  simp only [admission, hport, ne_eq, not_true_eq_false, if_false, h]

/-- Settles O6: the turn leaves the line, the bytes decode, and the request is admitted. -/
theorem stepRunsTheDecodedRequest : Obligations.StepRunsTheDecodedRequest := by
  intro s port bytes rest i hin hd hport hidle
  have hadm : admission port i { s with inbox := rest } = none := admission_eq_none hport hidle
  simp only [step, hin, takeTurn, present, hd, hadm]

/-- With no turn in line, or with its own first in it, the foreground moves. -/
theorem step_eq_fgTurn {s s' : State}
    (h : s.inbox = [] ∧ s' = s ∨ ∃ rest, s.inbox = .fg :: rest ∧ s' = { s with inbox := rest }) : step s = fgTurn s' := by
  obtain ⟨hin, rfl⟩ | ⟨rest, hin, rfl⟩ := h <;> simp only [step, hin, takeTurn]

/-- Settles O7: the foreground's turn by what it is at. -/
theorem foregroundTakesItsTurn : Obligations.ForegroundTakesItsTurn := by
  intro s s' h
  rw [step_eq_fgTurn h]
  refine ⟨fun i hi => ?_, fun hidle hboot => ?_, fun a hidle harmed => ?_⟩
  · simp only [fgTurn, hi]
  · simp only [fgTurn, hidle, hboot]; rfl
  · simp only [fgTurn, hidle, harmed]

theorem exec_urxDrain_of_loop {s : State} {l : LoopLine} (h : s.pos = .loop l) :
    exec .urxDrain s = .refused .foregroundBusy := by
  simp only [exec, execUrxDrain, h]

theorem exec_loopIter_of_drain {s : State} {l : DrainLine} (h : s.pos = .drain l) :
    exec .loopIter s = .refused .foregroundBusy := by
  simp only [exec, execLoopIter, h]

/-- Settles O8: admission refuses a wrong port and a second request, and the two requests that are outstanding between their
micro-steps refuse each other. -/
theorem portDisciplineIsEnforced : Obligations.PortDisciplineIsEnforced := by
  refine ⟨fun port bytes i s hd => ⟨fun hne => ?_, fun hport hfgp hbusy => ?_⟩, fun s => ⟨outstanding_eq_none_iff s,
    outstanding_eq_urxDrain_iff s, outstanding_eq_loopIter_iff s, fun h => ?_, fun h => ?_⟩⟩
  · have hadm : admission port i s = some .wrongPort := if_pos hne
    simp only [present, hd, hadm]
  · have hadm : admission port i s = some .foregroundBusy := by
      simp only [admission, hport, ne_eq, not_true_eq_false, if_false, hfgp, hbusy, and_self, if_true]
    simp only [present, hd, hadm]
  · obtain ⟨l, hl⟩ := (outstanding_eq_loopIter_iff s).mp h
    exact exec_urxDrain_of_loop hl
  · obtain ⟨l, hl⟩ := (outstanding_eq_urxDrain_iff s).mp h
    exact exec_loopIter_of_drain hl

/-- Settles O9: the turn of a reset. -/
theorem resetDiscardsTheBlocksState : Obligations.ResetDiscardsTheBlocksState := by
  intro s rest hin
  simp only [step, hin, takeTurn]
  rfl

/-- Settles O10: the fields of the reset state. -/
theorem resetValuesOfTheBlock : Obligations.ResetValuesOfTheBlock := by
  intro c inbox a n log
  have counters : ∀ e, Counters.zero.get e = 0 := fun e => by cases e <;> rfl
  exact ⟨rfl, rfl, rfl, rfl, rfl, rfl, rfl, rfl, rfl, rfl, rfl, rfl, rfl, counters, rfl, rfl, rfl, rfl, rfl⟩

/-! ### What a step can do -/

/-- A presented request that runs is some operation. -/
theorem present_next {port : Port} {bytes : List Byte} {s t : State} (h : present port bytes s = .next t) :
    ∃ i, exec i s = .next t := by
  unfold present at h
  split at h
  · cases h
  · cases h
  · next i _ =>
    split at h
    · cases h
    · exact ⟨i, h⟩

theorem fgTurn_next {s t : State} (h : fgTurn s = .next t) : (∃ i, exec i s = .next t) ∨ t = boot s := by
  unfold fgTurn at h
  split at h
  · next i _ => exact .inl ⟨i, h⟩
  · split at h
    · cases h; exact .inr rfl
    · exact .inl ⟨.loopIter, h⟩

/-- Everything a step can do: a turn leaves the line or none is in it, and then an operation runs, the boot arm is taken, or
the block is reset. -/
theorem step_next {s t : State} (h : step s = .next t) :
    ∃ rest, (s.inbox = rest ∨ s.inbox.tail = rest) ∧
      ((∃ i, exec i { s with inbox := rest } = .next t) ∨ t = boot { s with inbox := rest } ∨
        (s.inbox.head? = some .reset ∧ t = restart { s with inbox := rest })) := by
  unfold step at h
  split at h
  · next hin => exact ⟨s.inbox, .inl rfl, (fgTurn_next h).imp_right .inl⟩
  · next turn rest hin =>
    refine ⟨rest, .inr (by rw [hin]; rfl), ?_⟩
    cases turn with
    | request port bytes => exact .inl (present_next h)
    | fg => exact (fgTurn_next h).imp_right .inl
    | reset => cases h; exact .inr (.inr ⟨by rw [hin]; rfl, rfl⟩)

theorem run_succ_of_next {n : Nat} {s s' : State} (h : step s = .next s') :
    Host.Core.run Sys2Proof.core (n + 1) s = Host.Core.run Sys2Proof.core n s' := by
  simp only [Host.Core.run, show Sys2Proof.core.step s = .next s' from h]

theorem run_succ_next {n : Nat} {s t : State} (h : Host.Core.run Sys2Proof.core (n + 1) s = .next t) :
    ∃ s', step s = .next s' ∧ Host.Core.run Sys2Proof.core n s' = .next t := by
  cases hs : step s with
  | next s' => exact ⟨s', rfl, (run_succ_of_next hs).symm.trans h⟩
  | fault f => simp only [Host.Core.run, show Sys2Proof.core.step s = .fault f from hs] at h; cases h
  | refused r => simp only [Host.Core.run, show Sys2Proof.core.step s = .refused r from hs] at h; cases h

/-- What every step keeps holds after any number of them. -/
theorem run_keeps {P : State → Prop} (hstep : ∀ s t, P s → step s = .next t → P t) {n : Nat} {s t : State} (hs : P s)
    (h : Host.Core.run Sys2Proof.core n s = .next t) : P t := by
  induction n generalizing s with
  | zero => cases h; exact hs
  | succ n ih =>
    obtain ⟨s', h1, h2⟩ := run_succ_next h
    exact ih (hstep s s' hs h1) h2

/-! ### The invariant -/

/-- An outcome that the invariant allows: a next state that meets it, or a refusal. -/
def Sound : Host.Outcome State Fault Refusal → Prop
  | .next t => t.Inv Config.impl
  | .fault _ => False
  | .refused _ => True

theorem Sound.inv {o : Host.Outcome State Fault Refusal} (h : Sound o) {t : State} (ho : o = .next t) :
    t.Inv Config.impl := by
  subst ho; exact h

theorem Sound.safe {o : Host.Outcome State Fault Refusal} (h : Sound o) : Safe o := by
  rintro f rfl; exact h

/-- The state after reset meets the invariant in every implementation. -/
theorem initial_inv (c : Config) (inbox : List Turn) (a : Answers) (n : Nat) (log : List Obs) :
    (State.initial c inbox a n log).Inv c where
  q := ⟨Nat.succ_pos _, Nat.succ_pos _, fun i _ hl => by simp [State.initial, ringLive, ringCount] at hl, rfl⟩
  ctx := ⟨Nat.succ_pos _, Nat.succ_pos _, fun i _ hl => by simp [State.initial, ringLive, ringCount] at hl, rfl, rfl⟩
  urx := ⟨Nat.succ_pos _, Nat.succ_pos _, fun i _ hl => by simp [State.initial, ringLive, ringCount] at hl, nofun,
    fun _ => ⟨rfl, rfl⟩, rfl, rfl⟩
  scan := ScanOk.idle (p := .rest) rfl
  cmds := CmdsOk.none nofun
  line := ⟨Nat.zero_le _, nofun, rfl⟩
  utx := ⟨Nat.zero_le _, nofun, rfl⟩
  evt e := by cases e <;> exact Nat.two_pow_pos _

/-- Settles O11: the reset state, with nothing placed. -/
theorem resetMeetsTheInvariant : Obligations.ResetMeetsTheInvariant := initial_inv _ _ _ _ _

/-- The result of a request is no call of the parser. -/
theorem State.Inv.finish {c : Config} {s : State} (h : s.Inv c) (port : Port) (r : Result) :
    (s.emit (.result port r)).Inv c := h.emit rfl

/-- A request of one step that runs and keeps the invariant. -/
theorem Sound.finish {port : Port} {x : Except Fault (Result × State)}
    (h : ∃ r t, x = .ok (r, t) ∧ t.Inv Config.impl) : Sound (finish port x) := by
  obtain ⟨r, t, rfl, ht⟩ := h
  exact ht.finish port r

theorem frameOf_wf {f : FrameRecord} (h : f.wf = true) : (frameOf f).wf = true := by
  have hdlc : f.header.dlc.toNat ≤ 8 := by
    simp only [FrameRecord.wf, FrameHeader.wf, Bool.and_eq_true, decide_eq_true_eq] at h
    exact h.1
  simp only [CanFrame.wf, frameOf, Bool.and_eq_true, decide_eq_true_eq, List.length_take, Vector.length_toList]
  exact ⟨h, by omega⟩

/-- Every operation keeps the invariant, and none leaves a memory. -/
theorem exec_sound (i : Instr) {s : State} (h : s.Inv Config.impl) : Sound (exec i s) := by
  cases i with
  | rbPush item =>
    show Sound (execRbPush item s)
    unfold execRbPush
    split
    · next hsize => exact .finish (rbPush_inv h hsize)
    · trivial
  | rbPend => exact h.finish _ _
  | rbPeek =>
    show Sound (execRbPeek s)
    unfold execRbPeek
    split
    · trivial
    · obtain ⟨r, hr⟩ := rbPeek_inv h
      exact .finish ⟨r, s, hr, h⟩
  | rbAdv =>
    show Sound (execRbAdv s)
    unfold execRbAdv
    split
    · trivial
    · next hlive => exact .finish ⟨_, _, rfl, rbAdvance_inv h (Bool.eq_false_of_not_eq_true hlive)⟩
  | rbPop => exact .finish (rbPop_inv h)
  | ctxEnq f =>
    show Sound (execCtxEnq f s)
    unfold execCtxEnq
    split
    · next hwf => exact .finish (ctxEnq_inv h (frameOf_wf hwf))
    · trivial
  | ctxProc => exact .finish (ctxProc_inv h)
  | busEn => exact (busEn_inv h).finish _ _
  | busDis => exact (busDis_inv h).finish _ _
  | busRate r =>
    show Sound (execBusRate r s)
    unfold execBusRate
    split
    · next rate _ => exact (busRate_inv h rate).finish _ _
    · trivial
  | busSilent b => exact (busSilent_inv h b).finish _ _
  | busArtx a => exact (busArtx_inv h a).finish _ _
  | crxPend => exact (crxPend_inv h).finish _ _
  | crxRecv => exact (crxRecv_inv h).finish _ _
  | crxOvf => exact (h.raise _).finish _ _
  | urxChunk bytes =>
    show Sound (execUrxChunk bytes s)
    unfold execUrxChunk
    split
    · trivial
    · next hshort =>
      split
      · trivial
      · next a harmed => exact .finish (urxChunk_inv h harmed (Nat.le_of_not_lt hshort))
  | urxDrain =>
    cases hp : s.pos with
    | loop l => rw [exec_urxDrain_of_loop hp]; trivial
    | rest | drain l =>
      obtain ⟨t, ht, hinv⟩ := execUrxDrain_inv h (by simp [hp])
      rw [show exec .urxDrain s = .next t from ht]
      exact hinv
  | utxSend bytes => exact (utxSend_inv h bytes).finish _ _
  | utxDone =>
    show Sound (execUtxDone s)
    unfold execUtxDone
    split
    · have hdone : ({ s with utxBusy := false } : State).Inv Config.impl :=
        ⟨h.q, h.ctx, h.urx, h.scan, h.cmds, h.line, h.utx.done, h.evt⟩
      exact hdone.finish _ _
    · trivial
  | loopIter =>
    cases hp : s.pos with
    | drain l => rw [exec_loopIter_of_drain hp]; trivial
    | rest | loop l =>
      obtain ⟨t, ht, hinv⟩ := execLoopIter_inv h (by simp [hp])
      rw [show exec .loopIter s = .next t from ht]
      exact hinv

/-- The boot arm arms the slot that the head stands at: nothing was received before it. -/
theorem boot_inv {s : State} (h : s.Inv Config.impl) (hunarmed : s.urxArmed = none) : (boot s).Inv Config.impl := by
  have harmed : UrxOk Config.impl s.urxHead s.urxTail s.urxMem s.urxLen (some 0) := by
    have hrearm := h.urx.rearm
    rwa [show some s.urxHead = some 0 from congrArg some (h.urx.unarmed hunarmed).1] at hrearm
  exact ⟨h.q, h.ctx, harmed, h.scan, h.cmds, h.line, h.utx, h.evt⟩

theorem fgTurn_sound {s : State} (h : s.Inv Config.impl) : Sound (fgTurn s) := by
  unfold fgTurn
  split
  · exact exec_sound _ h
  · split
    · next harmed => exact boot_inv h harmed
    · exact exec_sound _ h

theorem present_sound (port : Port) (bytes : List Byte) {s : State} (h : s.Inv Config.impl) :
    Sound (present port bytes s) := by
  unfold present
  split
  · trivial
  · trivial
  · split
    · trivial
    · exact exec_sound _ h

/-- Every step keeps the invariant, and none leaves a memory. -/
theorem step_sound {s : State} (h : s.Inv Config.impl) : Sound (step s) := by
  unfold step
  split
  · exact fgTurn_sound h
  · next turn rest _ =>
    have hrest := h.withInbox rest
    cases turn with
    | request port bytes => exact present_sound port bytes hrest
    | fg => exact fgTurn_sound hrest
    | reset => exact initial_inv _ _ _ _ _

/-- Settles O12: each agent's step keeps the invariant, part by part. -/
theorem stepKeepsTheInvariant : Obligations.StepKeepsTheInvariant :=
  fun _ _ hs h => (step_sound hs).inv h

/-- Settles O14: from a state that meets the invariant a step goes on or is refused. -/
theorem noStepLeavesItsMemories : Obligations.NoStepLeavesItsMemories :=
  fun _ hs => (step_sound hs).safe

/-- The invariant holds in every state reached from reset. -/
theorem reached_inv {inbox : List Turn} {a : Answers} {k n : Nat} {log : List Obs} {t : State}
    (h : Host.Core.run Sys2Proof.core n (State.initial Config.impl inbox a k log) = .next t) : t.Inv Config.impl :=
  run_keeps (P := State.Inv Config.impl) (fun _ _ hs ht => (step_sound hs).inv ht) (initial_inv _ _ _ _ _) h

@[simp] theorem ringSlots_length (n head tail : Nat) : (ringSlots n head tail).length = ringCount n head tail := by
  simp [ringSlots]

@[simp] theorem ctxFrames_length (c : Config) (s : State) :
    (ctxFrames c s).length = ringCount nTx s.ctxHead s.ctxTail := by
  simp [ctxFrames]

@[simp] theorem urxChunks_length (c : Config) (s : State) :
    (urxChunks c s).length = ringCount c.nRx s.urxHead s.urxTail := by
  simp [urxChunks]

/-- Settles O13: the eight lines of R50, read off the invariant. -/
theorem everyReachableStateIsSound : Obligations.EveryReachableStateIsSound := by
  intro inbox a k n log t h
  have inv := reached_inv h
  refine ⟨⟨inv.ctx.head_lt, inv.ctx.tail_lt, inv.urx.head_lt, inv.urx.tail_lt⟩,
    ⟨ctxFrames_length _ t, ringCount_le inv.ctx.head_lt inv.ctx.tail_lt, urxChunks_length _ t,
      ringCount_le inv.urx.head_lt inv.urx.tail_lt⟩,
    inv.line.idx_le, fun i hi hlive => ?_, fun i hi hlive => ?_, fun x hx => ?_, inv.utx.len_le, fun hscan => ?_⟩
  · obtain ⟨l, hl, hle, _⟩ := inv.urx.live i hi hlive
    exact ⟨l, hl, hle⟩
  · obtain ⟨hdr, hread, hwf, _⟩ := inv.ctx.live i hi hlive
    simp only [FrameHeader.wf, Bool.and_eq_true, decide_eq_true_eq] at hwf
    exact ⟨hdr, hread, hwf.1⟩
  · obtain rfl := inv.urx.armed_head x hx
    exact ⟨rfl, ringLive_head⟩
  · obtain ⟨l, hread, _, _, hpos⟩ := tailLen_live inv hscan
    exact ⟨inv.scan.nonempty hscan, l, hread, hpos⟩

/-! ### The loop goes on -/

/-- No frame names the turns to come, the number of resets or `CTX_FULLFLAG`. -/
theorem Frame.environment {i : Instr} {s t : State} (h : Frame i s t) :
    t.inbox = s.inbox ∧ t.resets = s.resets ∧ t.ctxFullFlag = s.ctxFullFlag := by
  cases i <;> (simp only [Frame] at h; rw [h]; exact ⟨rfl, rfl, rfl⟩)

theorem exec_inbox {i : Instr} {s t : State} (h : exec i s = .next t) : t.inbox = s.inbox :=
  (exec_effect h).frame.environment.1

/-- The foreground's turn is never refused: it goes on with what is outstanding, and starts only what may start. -/
theorem fgTurn_runs {s : State} (h : s.Inv Config.impl) : ∃ t, fgTurn s = .next t ∧ t.inbox = s.inbox := by
  cases hp : s.pos with
  | drain l =>
    obtain ⟨t, ht, _⟩ := execUrxDrain_inv h (by simp [hp])
    exact ⟨t, by simp only [fgTurn, outstanding, hp]; exact ht, exec_inbox (i := .urxDrain) ht⟩
  | loop l =>
    obtain ⟨t, ht, _⟩ := execLoopIter_inv h (by simp [hp])
    exact ⟨t, by simp only [fgTurn, outstanding, hp]; exact ht, exec_inbox (i := .loopIter) ht⟩
  | rest =>
    cases harmed : s.urxArmed with
    | none => exact ⟨boot s, by simp only [fgTurn, outstanding, hp, harmed], rfl⟩
    | some a =>
      obtain ⟨t, ht, _⟩ := execLoopIter_inv h (by simp [hp])
      exact ⟨t, by simp only [fgTurn, outstanding, hp, harmed]; exact ht, exec_inbox (i := .loopIter) ht⟩

theorem step_of_idle {s : State} (h : s.inbox = []) : step s = fgTurn s := step_eq_fgTurn (.inl ⟨h, rfl⟩)

/-- Settles O15: with no turn in line every step is the foreground's, which runs and leaves the line empty. -/
theorem loopNeverHalts : Obligations.LoopNeverHalts := by
  intro n
  induction n with
  | zero => exact fun s _ _ => ⟨s, rfl⟩
  | succ n ih =>
    intro s hinv hidle
    obtain ⟨s', hs', hin⟩ := fgTurn_runs hinv
    rw [← step_of_idle hidle] at hs'
    rw [run_succ_of_next hs']
    exact ih s' ((step_sound hinv).inv hs') (hin.trans hidle)

/-! ### The canonical form of the memories -/

/-- `State.memoriesWf`, memory by memory. -/
structure MemoriesWf (s : State) : Prop where
  slot : s.q.slot.wf = true
  hdr : s.ctxHdr.wf = true
  data : s.ctxData.wf = true
  mem : s.urxMem.wf = true
  len : s.urxLen.wf = true
  line : s.lineMem.wf = true
  utx : s.utxMem.wf = true

theorem memoriesWf_iff (s : State) : s.memoriesWf = true ↔ MemoriesWf s := by
  simp only [State.memoriesWf, Bool.and_eq_true]
  exact ⟨fun ⟨⟨⟨⟨⟨⟨h1, h2⟩, h3⟩, h4⟩, h5⟩, h6⟩, h7⟩ => ⟨h1, h2, h3, h4, h5, h6, h7⟩,
    fun ⟨h1, h2, h3, h4, h5, h6, h7⟩ => ⟨⟨⟨⟨⟨⟨h1, h2⟩, h3⟩, h4⟩, h5⟩, h6⟩, h7⟩⟩

theorem ctxEnqueued_memoriesWf {s : State} (h : MemoriesWf s) (f : CanFrame) : MemoriesWf (ctxEnqueued f s) :=
  ⟨h.slot, Memory.wf_write h.hdr _ _, Memory.wf_writeAll h.data _ _, h.mem, h.len, h.line, h.utx⟩

theorem utxSend_memoriesWf {s : State} (h : MemoriesWf s) (c : Config) (bytes : List Byte) :
    MemoriesWf (utxSend c bytes s).2 := by
  obtain ⟨_, e⟩ | ⟨_, _, e⟩ | ⟨_, _, e⟩ := utxSend_cases c bytes s <;> rw [e]
  · exact ⟨h.slot, h.hdr, h.data, h.mem, h.len, h.line, h.utx⟩
  · exact h
  · exact ⟨h.slot, h.hdr, h.data, h.mem, h.len, h.line, Memory.wf_writeAll h.utx _ _⟩

theorem runCmd_memoriesWf {c : Config} {cmd : Cmd} {s t : State} (h : MemoriesWf s) (hr : runCmd c cmd s = .ok t) :
    MemoriesWf t := by
  cases cmd with
  | enq f =>
    simp only [runCmd, bind_eq_ok, pure_ok, Except.ok.injEq] at hr
    obtain ⟨⟨r, s1⟩, h1, rfl⟩ := hr
    obtain ⟨_, _, rfl⟩ | ⟨_, _, _, _, rfl⟩ := ctxEnq_cases h1
    · exact ⟨h.slot, h.hdr, h.data, h.mem, h.len, h.line, h.utx⟩
    · exact ctxEnqueued_memoriesWf h f.val
  | en => cases hr; rw [busEn_frame]; exact ⟨h.slot, h.hdr, h.data, h.mem, h.len, h.line, h.utx⟩
  | dis => cases hr; rw [busDis_frame]; exact ⟨h.slot, h.hdr, h.data, h.mem, h.len, h.line, h.utx⟩
  | rate r => cases hr; rw [busRate_frame]; exact ⟨h.slot, h.hdr, h.data, h.mem, h.len, h.line, h.utx⟩
  | silent b => cases hr; rw [busSilent_frame]; exact ⟨h.slot, h.hdr, h.data, h.mem, h.len, h.line, h.utx⟩
  | artx a => cases hr; rw [busArtx_frame]; exact ⟨h.slot, h.hdr, h.data, h.mem, h.len, h.line, h.utx⟩

theorem FgMove.memoriesWf {i : Instr} {s t : State} (h : FgMove i s t) (hs : MemoriesWf s) : MemoriesWf t := by
  cases h with
  | quiet same => rw [same]; exact ⟨hs.slot, hs.hdr, hs.data, hs.mem, hs.len, hs.line, hs.utx⟩
  | submit _ _ _ acc a p eq =>
    subst eq
    cases acc <;> exact ⟨hs.slot, hs.hdr, hs.data, hs.mem, hs.len, hs.line, hs.utx⟩
  | run cmd rest ok _ s' run p eq =>
    have h := runCmd_memoriesWf hs run
    subst eq
    exact ⟨h.slot, h.hdr, h.data, h.mem, h.len, h.line, h.utx⟩
  | send bytes _ p eq =>
    have h := utxSend_memoriesWf hs Config.impl bytes
    subst eq
    exact ⟨h.slot, h.hdr, h.data, h.mem, h.len, h.line, h.utx⟩
  | append b _ _ p eq =>
    subst eq
    exact ⟨hs.slot, hs.hdr, hs.data, hs.mem, hs.len, Memory.wf_write hs.line _ _, hs.utx⟩

/-- An observation touches no memory. -/
theorem MemoriesWf.emit {s : State} (h : MemoriesWf s) (o : Obs) : MemoriesWf (s.emit o) :=
  ⟨h.slot, h.hdr, h.data, h.mem, h.len, h.line, h.utx⟩

theorem Effect.memoriesWf {i : Instr} {s t : State} (h : Effect i s t) (hs : MemoriesWf s) : MemoriesWf t := by
  cases h with
  | push item =>
    exact ⟨Memory.wf_write hs.slot _ _, hs.hdr, hs.data, hs.mem, hs.len, hs.line, hs.utx⟩
  | enq f => exact (ctxEnqueued_memoriesWf hs (frameOf f)).emit _
  | proc s s' run =>
    rw [ctxProc_frame run]
    exact ⟨hs.slot, hs.hdr, hs.data, hs.mem, hs.len, hs.line, hs.utx⟩
  | en => exact (runCmd_memoriesWf (c := Config.impl) (cmd := .en) hs rfl).emit _
  | dis => exact (runCmd_memoriesWf (c := Config.impl) (cmd := .dis) hs rfl).emit _
  | rate r rate => exact (runCmd_memoriesWf (cmd := .rate rate) hs rfl).emit _
  | silent b => exact (runCmd_memoriesWf (c := Config.impl) (cmd := .silent b) hs rfl).emit _
  | artx a => exact (runCmd_memoriesWf (c := Config.impl) (cmd := .artx a) hs rfl).emit _
  | crxPend => rw [crxPend_frame]; exact ⟨hs.slot, hs.hdr, hs.data, hs.mem, hs.len, hs.line, hs.utx⟩
  | crxRecv => rw [crxRecv_frame]; exact ⟨hs.slot, hs.hdr, hs.data, hs.mem, hs.len, hs.line, hs.utx⟩
  | chunkLost =>
    exact ⟨hs.slot, hs.hdr, hs.data, Memory.wf_writeAll hs.mem _ _, hs.len, hs.line, hs.utx⟩
  | chunkCaptured =>
    exact ⟨hs.slot, hs.hdr, hs.data, Memory.wf_writeAll hs.mem _ _, Memory.wf_write hs.len _ _, hs.line, hs.utx⟩
  | send bytes => exact (utxSend_memoriesWf hs _ bytes).emit _
  | drain s t run => exact (execUrxDrain_move run).memoriesWf hs
  | iter s t run => exact (execLoopIter_move run).memoriesWf hs
  | pushFull | pend | peek | adv | popEmpty | pop | enqFull | ovf | done =>
    exact ⟨hs.slot, hs.hdr, hs.data, hs.mem, hs.len, hs.line, hs.utx⟩

/-- Settles O17: every store goes through the writes that keep the form, and a reset empties the memories. -/
theorem stepKeepsMemoriesCanonical : Obligations.StepKeepsMemoriesCanonical := by
  intro s t hs h
  rw [memoriesWf_iff] at hs ⊢
  have hrest : ∀ rest, MemoriesWf { s with inbox := rest } := fun _ =>
    ⟨hs.slot, hs.hdr, hs.data, hs.mem, hs.len, hs.line, hs.utx⟩
  obtain ⟨rest, _, ⟨i, hi⟩ | rfl | ⟨_, rfl⟩⟩ := step_next h
  · exact (exec_effect hi).memoriesWf (hrest rest)
  · exact ⟨hs.slot, hs.hdr, hs.data, hs.mem, hs.len, hs.line, hs.utx⟩
  · exact ⟨rfl, rfl, rfl, rfl, rfl, rfl, rfl⟩

end Sys2Proof.Machine
end

section
/-! PROOFS. Memories and counters, the stand-alone ring and the CAN transmit queue (spec/20_memory.md, spec/40_ringbuffer.md,
spec/41_cantx.md): what the operations do, how many items fit, and that both rings are queues. -/

namespace Sys2Proof.Machine

/-! ### Memories and counters -/

/-- Settles O16: from the laws of one write and of a copy. -/
theorem readsAfterWrites : Obligations.ReadsAfterWrites := fun _ m a _ v vs =>
  ⟨m.read_write_same a v, fun h => m.read_write_other v h, fun k h => m.read_writeAll_inside a vs k h,
    fun h => m.read_writeAll_outside a vs _ h⟩

/-- Settles O18: from the laws of the counter file. -/
theorem raiseCountsOneEvent : Obligations.RaiseCountsOneEvent := fun _ e s =>
  ⟨s.evt.get_set_same e _, fun _ hd => s.evt.get_set_other _ hd, rfl⟩

/-! ### The operations of the stand-alone ring -/

theorem exec_rbPush {item : List Byte} {s : State} (h : item.length = Config.impl.itemSize) :
    exec (.rbPush item) s = finish .p (rbPush Config.impl item s) := if_pos h

theorem exec_rbPeek {s : State} (h : ringEmpty s.q.head s.q.tail = false) :
    exec .rbPeek s = finish .c (rbPeek Config.impl s) := if_neg (by simp [h])

theorem exec_rbAdv {s : State} (h : ringEmpty s.q.head s.q.tail = false) :
    exec .rbAdv s = .next ((rbAdvance Config.impl s).emit (.result .c .ok)) := if_neg (by simp [h])

theorem rbPeek_ok {c : Config} {s : State} (hr : s.q.tail < c.ringN) :
    rbPeek c s = .ok (.okItem (s.q.slot.readOr (c.freeItem s.resets) s.q.tail), s) := by
  simp only [rbPeek, rbTailItem_ok hr, bind_ok, pure_ok]

theorem rbPop_empty {c : Config} {s : State} (h : ringEmpty s.q.head s.q.tail = true) : rbPop c s = .ok (.empty, s) :=
  if_pos h

theorem rbPop_ok {c : Config} {s : State} (h : ringEmpty s.q.head s.q.tail = false) (hr : s.q.tail < c.ringN) :
    rbPop c s = .ok (.okItem (s.q.slot.readOr (c.freeItem s.resets) s.q.tail), rbAdvance c s) := by
  simp only [rbPop, h, Bool.false_eq_true, if_false, rbTailItem_ok hr, bind_ok, pure_ok]

/-- Settles O19: by the item's size and by whether the ring is full. -/
theorem pushWritesSlotThenHead : Obligations.PushWritesSlotThenHead := by
  refine fun item s => ⟨fun hsize => if_neg hsize, fun hsize hfull => ?_, fun hsize hroom hlt => ?_⟩
  · rw [exec_rbPush hsize, rbPush_full item hfull]; rfl
  · rw [exec_rbPush hsize, rbPush_ok item hroom hlt]; rfl

/-- Settles O20: by whether the ring is empty. -/
theorem consumerInspectsReadsReleases : Obligations.ConsumerInspectsReadsReleases := by
  refine fun s => ⟨rfl, fun hempty => ⟨if_pos hempty, if_pos hempty, ?_⟩, fun hlive => ⟨?_, fun hlt => ⟨?_, ?_⟩⟩⟩
  · rw [show exec .rbPop s = finish .c (rbPop Config.impl s) from rfl, rbPop_empty hempty]; rfl
  · rw [exec_rbAdv hlive, rbAdvance_eq]
  · rw [exec_rbPeek hlive, rbPeek_ok hlt]; rfl
  · rw [show exec .rbPop s = finish .c (rbPop Config.impl s) from rfl, rbPop_ok hlive hlt, rbAdvance_eq]; rfl

/-! ### How many items fit -/

theorem ringFull_eq_false_of_count {n head tail k : Nat} (hh : head < n) (ht : tail < n)
    (hk : ringCount n head tail + (k + 1) = n - 1) : ringFull n head tail = false := by
  rw [← Bool.not_eq_true, ringFull_iff hh ht]
  omega

/-- While the ring has room for them, all items are pushed; after them it is full. -/
theorem pushAll_fills (c : Config) (vs : List (List Byte)) (s : State) (hh : s.q.head < c.ringN) (ht : s.q.tail < c.ringN)
    (hc : ringCount c.ringN s.q.head s.q.tail + vs.length = c.ringN - 1) :
    ∃ t, pushAll c vs s = .ok (List.replicate vs.length .ok, t) ∧ ringFull c.ringN t.q.head t.q.tail = true := by
  induction vs generalizing s with
  | nil => exact ⟨s, rfl, (ringFull_iff hh ht).mpr hc⟩
  | cons v vs ih =>
    have hroom := ringFull_eq_false_of_count hh ht hc
    have hcount : ringCount c.ringN (ringNext c.ringN s.q.head) s.q.tail + vs.length = c.ringN - 1 := by
      rw [ringCount_push hh ht hroom]
      rw [List.length_cons] at hc
      omega
    obtain ⟨t, hrun, hfull⟩ := ih (rbPushed c v s) (ringNext_lt (Nat.zero_lt_of_lt hh)) ht hcount
    exact ⟨t, by simp only [pushAll, rbPush_ok v hroom hh, bind_ok, hrun, pure_ok]; rfl, hfull⟩

/-- Settles O22: the pushes fill the free slots, and on the full ring the next one is turned away. -/
theorem exactlyTheFreeSlotsAreFilled : Obligations.ExactlyTheFreeSlotsAreFilled := by
  intro c s vs v hh ht hc
  obtain ⟨t, hrun, hfull⟩ := pushAll_fills c vs s hh ht hc
  exact ⟨t, hrun, rbPush_full v hfull⟩

theorem enqAll_fills (c : Config) (fs : List CanFrame) (s : State) (hh : s.ctxHead < nTx) (ht : s.ctxTail < nTx)
    (hc : ringCount nTx s.ctxHead s.ctxTail + fs.length = nTx - 1) (hfs : ∀ f ∈ fs, f.data.length ≤ 8) :
    ∃ t, enqAll c fs s = .ok (List.replicate fs.length .ok, t) ∧ ringFull nTx t.ctxHead t.ctxTail = true := by
  induction fs generalizing s with
  | nil => exact ⟨s, rfl, (ringFull_iff hh ht).mpr hc⟩
  | cons f fs ih =>
    obtain ⟨hf, hfs⟩ := List.forall_mem_cons.mp hfs
    have hroom := ringFull_eq_false_of_count hh ht hc
    have hcount : ringCount nTx (ringNext nTx s.ctxHead) s.ctxTail + fs.length = nTx - 1 := by
      rw [ringCount_push hh ht hroom]
      rw [List.length_cons] at hc
      omega
    obtain ⟨t, hrun, hfull⟩ := ih (ctxEnqueued f s) (ringNext_lt (by decide)) ht hcount hfs
    exact ⟨t, by simp only [enqAll, ctxEnq_ok hroom hh hf, bind_ok, hrun, pure_ok]; rfl, hfull⟩

theorem data_length_le_of_wf {f : CanFrame} (h : f.wf = true) : f.data.length ≤ 8 := by
  simp only [CanFrame.wf, FrameHeader.wf, Bool.and_eq_true, decide_eq_true_eq] at h
  omega

/-- Settles O26: twenty-seven frames fill the empty queue. -/
theorem twentySevenFramesFit : Obligations.TwentySevenFramesFit := by
  intro c s fs f hh ht hlen hwf
  have hempty : ringCount nTx s.ctxHead s.ctxTail + fs.length = nTx - 1 := by
    rw [ht, ringCount_self hh, hlen]; rfl
  obtain ⟨t, hrun, hfull⟩ := enqAll_fills c fs s hh (ht ▸ hh) hempty fun g hg => data_length_le_of_wf (hwf g hg)
  exact ⟨t, hlen ▸ hrun, ctxEnq_full f hfull⟩

/-! ### The stand-alone ring is a queue -/

/-- Filling the head slot of a ring that is not full disturbs no live slot. -/
theorem map_ringSlots_congr {n head tail : Nat} {α : Type} {f g : Nat → α} (hh : head < n) (ht : tail < n)
    (h : ∀ i < n, i ≠ head → f i = g i) : (ringSlots n head tail).map f = (ringSlots n head tail).map g := by
  apply List.map_congr_left
  intro i hi
  have hlt : i < n := by
    obtain ⟨k, _, rfl⟩ := List.mem_map.mp hi
    exact Nat.mod_lt _ (Nat.zero_lt_of_lt hh)
  refine h i hlt ?_
  rintro rfl
  rw [mem_ringSlots hh ht hlt, ringLive_head] at hi
  cases hi

theorem qItems_push {c : Config} {s : State} (h : QOk c s.q) (item : List Byte)
    (hroom : ringFull c.ringN s.q.head s.q.tail = false) : qItems c (rbPushed c item s) = qItems c s ++ [item] := by
  have hkept : ∀ i < c.ringN, i ≠ s.q.head →
      (s.q.slot.write s.q.head item).readOr (c.freeItem s.resets) i = s.q.slot.readOr (c.freeItem s.resets) i :=
    fun i _ hi => by rw [Memory.readOr, Memory.read_write_other _ _ hi]; rfl
  simp only [qItems, rbPushed, ringSlots_push h.head_lt h.tail_lt hroom, List.map_append, List.map_cons, List.map_nil]
  rw [map_ringSlots_congr h.head_lt h.tail_lt hkept]
  simp [Memory.readOr]

theorem qItems_advance {c : Config} {s : State} (h : QOk c s.q) (hlive : ringEmpty s.q.head s.q.tail = false) :
    qItems c s = s.q.slot.readOr (c.freeItem s.resets) s.q.tail :: qItems c (rbAdvance c s) := by
  rw [rbAdvance_eq]
  simp only [qItems, ringSlots_advance h.head_lt h.tail_lt hlive, List.map_cons]

theorem qItems_empty {c : Config} {s : State} (h : QOk c s.q) (hempty : ringEmpty s.q.head s.q.tail = true) :
    qItems c s = [] := by
  simp only [qItems, ringSlots_empty h.head_lt h.tail_lt hempty, List.map_nil]

/-- Settles O23: by the effect of each operation on the list of items. -/
theorem ringIsFirstInFirstOut : Obligations.RingIsFirstInFirstOut := by
  intro s t hinv
  refine ⟨fun item h => ?_, fun h => ?_, fun h => ?_, fun h => ?_⟩
  · cases exec_effect h with
    | pushFull => exact .inr ⟨rfl, rfl⟩
    | push _ _ _ room => exact .inl ⟨rfl, qItems_push hinv.q item room⟩
  · cases exec_effect h with
    | popEmpty _ empty => exact .inr ⟨rfl, qItems_empty hinv.q empty, qItems_empty hinv.q empty⟩
    | pop _ live => exact .inl ⟨_, rfl, qItems_advance hinv.q live⟩
  · cases exec_effect h with
    | peek _ live => exact ⟨_, _, rfl, qItems_advance hinv.q live, qItems_advance hinv.q live⟩
  · cases exec_effect h with
    | adv _ live => exact ⟨_, qItems_advance hinv.q live⟩

/-! ### The operations of the CAN transmit queue -/

theorem exec_ctxEnq {f : FrameRecord} {s : State} (h : f.wf = true) :
    exec (.ctxEnq f) s = finish .fgp (ctxEnq Config.impl (frameOf f) s) := if_pos h

/-- Settles O24: by whether the record is well formed and whether the queue is full. -/
theorem enqueueWritesSlotThenHead : Obligations.EnqueueWritesSlotThenHead := by
  refine fun f s => ⟨fun hill => if_neg (by simp [hill]), fun hwf hfull => ?_, fun hwf hroom hlt => ?_⟩
  · rw [exec_ctxEnq hwf, ctxEnq_full _ hfull]; rfl
  · rw [exec_ctxEnq hwf, ctxEnq_ok hroom hlt (data_length_le_of_wf (frameOf_wf hwf))]; rfl

theorem ctxProc_empty {c : Config} {s : State} (h : ringEmpty s.ctxHead s.ctxTail = true) : ctxProc c s = .ok (.ok, s) :=
  if_pos h

theorem ctxProc_noMailbox {c : Config} {s : State} (h : ringEmpty s.ctxHead s.ctxTail = false)
    (hm : (drawMailboxes c s).1 = 0) : ctxProc c s = .ok (.ok, (drawMailboxes c s).2) := by
  cases hd : drawMailboxes c s with
  | mk m s1 =>
    rw [hd] at hm
    obtain rfl : m = 0 := hm
    simp only [ctxProc, h, Bool.false_eq_true, if_false, hd]

/-- The tail slot's view goes to the peripheral, in the state after the draw of the mailboxes. -/
theorem ctxProc_submits {c : Config} {s : State} (h : ringEmpty s.ctxHead s.ctxTail = false)
    (hm : (drawMailboxes c s).1 ≠ 0) (ht : s.ctxTail < nTx) :
    let d := drawAccept c (slotFrame c s.ctxTail s) (drawMailboxes c s).2
    let s2 : State := { d.2 with ctxTail := ringNext nTx s.ctxTail }
    ctxProc c s = .ok (.ok, if d.1 then s2 else s2.raise c .canTxHardwareReject) := by
  obtain ⟨m, a, hd⟩ := drawMailboxes_cases c s
  rw [hd] at hm
  obtain ⟨k, rfl⟩ : ∃ k, m = k + 1 := ⟨m - 1, by dsimp only at hm; omega⟩
  have hview : slotView c s.ctxTail { s with answers := a } = .ok (slotFrame c s.ctxTail s) := slotView_ok ht
  simp only [ctxProc, h, Bool.false_eq_true, if_false, hd, submitTail, hview, bind_ok, pure_ok, advanceIndex_nTx]

/-- Settles O25: the queue empty, no mailbox free, or the oldest frame submitted. -/
theorem processSubmitsTheOldestOnce : Obligations.ProcessSubmitsTheOldestOnce := by
  intro s
  have hexec : exec .ctxProc s = finish .fgp (ctxProc Config.impl s) := rfl
  refine ⟨fun hempty => ?_, fun hlive hm => ⟨?_, ?_⟩, fun hlive hm hlt => ⟨?_, ?_⟩⟩
  · rw [hexec, ctxProc_empty hempty]; rfl
  · rw [hexec, ctxProc_noMailbox hlive hm]; rfl
  · obtain ⟨m, a, hd⟩ := drawMailboxes_cases Config.impl s
    rw [hd]
  · rw [hexec, ctxProc_submits hlive hm hlt]; rfl
  · obtain ⟨m, a, hd⟩ := drawMailboxes_cases Config.impl s
    obtain ⟨acc, b, ha⟩ := drawAccept_cases Config.impl (slotFrame Config.impl s.ctxTail s) { s with answers := a }
    rw [hd, ha]

/-! ### The CAN transmit queue is a queue -/

/-- The view of a slot reads its own header and its own eight bytes. -/
theorem slotFrame_congr {c : Config} {i : Nat} {s t : State} (hr : t.resets = s.resets)
    (hh : t.ctxHdr.read i = s.ctxHdr.read i) (hd : ∀ j < 8, t.ctxData.read (ctxAddr i + j) = s.ctxData.read (ctxAddr i + j)) :
    slotFrame c i t = slotFrame c i s := by
  have hhdr : t.ctxHdr.readOr (c.freeHeader t.resets) i = s.ctxHdr.readOr (c.freeHeader s.resets) i := by
    rw [Memory.readOr, Memory.readOr, hr, hh]
  simp only [slotFrame, hhdr]
  congr 1
  refine Memory.readAll_congr _ _ _ _ _ _ fun j hj => ?_
  rw [Memory.readOr, Memory.readOr, hr, hd j (by omega)]

/-- What was stored in a slot is its view (spec/41_cantx.md R148). -/
theorem slotFrame_enqueued (c : Config) {f : CanFrame} (hf : f.wf = true) (s : State) :
    slotFrame c s.ctxHead (ctxEnqueued f s) = f := by
  obtain ⟨hdr, data⟩ := f
  have hlen : min hdr.dlc.toNat 8 = data.length := by
    simp only [CanFrame.wf, FrameHeader.wf, Bool.and_eq_true, decide_eq_true_eq] at hf
    obtain ⟨⟨hdlc, _⟩, hdata⟩ := hf
    rw [hdata, Nat.min_eq_left hdlc]
  simp [slotFrame, ctxEnqueued, Memory.readOr, hlen, Memory.readAll_writeAll]

theorem ctxFrames_enqueued {c : Config} {f : CanFrame} {s : State} (h : CtxOk s.ctxHead s.ctxTail s.ctxHdr s.ctxData)
    (hf : f.wf = true) (hroom : ringFull nTx s.ctxHead s.ctxTail = false) :
    ctxFrames c (ctxEnqueued f s) = ctxFrames c s ++ [f] := by
  have hlen := data_length_le_of_wf hf
  have hkept : ∀ i < nTx, i ≠ s.ctxHead → slotFrame c i (ctxEnqueued f s) = slotFrame c i s := fun i _ hi =>
    slotFrame_congr rfl (Memory.read_write_other _ _ hi) fun j hj =>
      Memory.read_writeAll_outside _ _ _ _ (by simp only [ctxAddr]; omega)
  have hslots : ringSlots nTx (ctxEnqueued f s).ctxHead (ctxEnqueued f s).ctxTail =
      ringSlots nTx s.ctxHead s.ctxTail ++ [s.ctxHead] := ringSlots_push h.head_lt h.tail_lt hroom
  simp only [ctxFrames, hslots, List.map_append, List.map_cons, List.map_nil, slotFrame_enqueued c hf]
  rw [map_ringSlots_congr h.head_lt h.tail_lt hkept]

/-- An advance of the tail takes the oldest frame out. -/
theorem ctxFrames_advance {c : Config} {s t : State} (h : CtxOk s.ctxHead s.ctxTail s.ctxHdr s.ctxData)
    (hlive : ringEmpty s.ctxHead s.ctxTail = false) (ht : t = { s with
      ctxTail := ringNext nTx s.ctxTail, answers := t.answers, evt := t.evt, pos := t.pos, log := t.log }) :
    ctxFrames c s = slotFrame c s.ctxTail s :: ctxFrames c t := by
  rw [ht]
  simp only [ctxFrames, ringSlots_advance h.head_lt h.tail_lt hlive, List.map_cons]
  rfl

/-- The frames depend on the queue alone. -/
theorem ctxFrames_congr {c : Config} {s t : State} (ht : t = { t with
      ctxHead := s.ctxHead, ctxTail := s.ctxTail, ctxHdr := s.ctxHdr, ctxData := s.ctxData, resets := s.resets }) :
    ctxFrames c t = ctxFrames c s := by
  rw [ht]; rfl

/-- Settles O27: by the effects of the two operations on the list of frames. -/
theorem transmitQueueIsFirstInFirstOut : Obligations.TransmitQueueIsFirstInFirstOut := by
  intro s t hinv
  refine ⟨fun f h => ?_, fun h => ?_⟩
  · cases exec_effect h with
    | enqFull => exact .inr ⟨rfl, rfl⟩
    | enq _ _ wf room => exact .inl ⟨rfl, ctxFrames_enqueued hinv.ctx (frameOf_wf wf) room⟩
  · cases exec_effect h with
    | proc _ s' run =>
      obtain ⟨_, ⟨_, rfl⟩ | ⟨_, _, rfl⟩ | ⟨hlive, _, _, acc, a, rfl⟩⟩ := ctxProc_cases run
      · exact .inl ⟨rfl, rfl⟩
      · obtain ⟨m, a, hd⟩ := drawMailboxes_cases Config.impl s
        rw [hd]
        exact .inl ⟨rfl, rfl⟩
      · refine .inr ⟨slotFrame Config.impl s.ctxTail s, acc, ?_, ctxFrames_advance hinv.ctx hlive ?_⟩
        · cases acc <;> rfl
        · cases acc <;> rfl

end Sys2Proof.Machine
end

section
/-! PROOFS. The bus controller, the CAN receive path and the USB transmit gate (spec/42_canbus.md, spec/43_canrx.md,
spec/45_usbtx.md): what the operations do, who moves the bus, and who ends a transmission. -/

namespace Sys2Proof.Machine

/-! ### The operations of the bus controller -/

section Bus
variable {c : Config} {s : State}

theorem busEn_of_on (h : s.busState = .on) : busEn s = s := by simp only [busEn, h]
theorem busDis_of_off (h : s.busState = .off) : busDis s = s := by simp only [busDis, h]
theorem busRate_of_on (h : s.busState = .on) (r : Rate) : busRate c r s = s := by simp only [busRate, h]
theorem busSilent_of_on (h : s.busState = .on) (b : Bool) : busSilent b s = s := by simp only [busSilent, h]
theorem busArtx_of_on (h : s.busState = .on) (a : Bool) : busArtx a s = s := by simp only [busArtx, h]

theorem busEn_of_off (h : s.busState = .off) : busEn s = { s with
    busState := .on
    log := .canStart :: .canFilterPassAll :: .canConfig s.busPresc s.busSilent s.busArtx :: s.log } := by
  simp only [busEn, h]; rfl

theorem busDis_of_on (h : s.busState = .on) : busDis s = { s with busState := .off, log := .canReset :: s.log } := by
  simp only [busDis, h]; rfl

theorem busRate_of_off (h : s.busState = .off) (r : Rate) : busRate c r s = { s with busPresc := c.prescalerOf r } := by
  simp only [busRate, h]

theorem busSilent_of_off (h : s.busState = .off) (b : Bool) : busSilent b s = { s with busSilent := b } := by
  simp only [busSilent, h]

theorem busArtx_of_off (h : s.busState = .off) (a : Bool) : busArtx a s = { s with busArtx := a } := by
  simp only [busArtx, h]

theorem busEn_busState (s : State) : (busEn s).busState = .on := by
  cases h : s.busState with
  | off => rw [busEn_of_off h]
  | on => rw [busEn_of_on h, h]

theorem busDis_busState (s : State) : (busDis s).busState = .off := by
  cases h : s.busState with
  | off => rw [busDis_of_off h, h]
  | on => rw [busDis_of_on h]

end Bus

section Exec
variable (s : State)

theorem exec_busEn : exec .busEn s = .next ((busEn s).emit (.result .fgp .ok)) := rfl
theorem exec_busDis : exec .busDis s = .next ((busDis s).emit (.result .fgp .ok)) := rfl
theorem exec_busSilent (b : Bool) : exec (.busSilent b) s = .next ((busSilent b s).emit (.result .fgp .ok)) := rfl
theorem exec_busArtx (a : Bool) : exec (.busArtx a) s = .next ((busArtx a s).emit (.result .fgp .ok)) := rfl

theorem exec_busRate {r : BitVec 4} {rate : Rate} (h : rateOf r = some rate) :
    exec (.busRate r) s = .next ((busRate Config.impl rate s).emit (.result .fgp .ok)) := by
  simp only [exec, execBusRate, h]; rfl

end Exec

/-- Settles O28: by the bus state. -/
theorem enableConfiguresFiltersStarts : Obligations.EnableConfiguresFiltersStarts := by
  refine fun s => ⟨fun hoff => ?_, fun hon => ?_⟩
  · rw [exec_busEn, busEn_of_off hoff]; rfl
  · rw [exec_busEn, busEn_of_on hon]

/-- Settles O29: by the bus state. -/
theorem disableResetsThePeripheral : Obligations.DisableResetsThePeripheral := by
  refine fun s => ⟨fun hon => ?_, fun hoff => ?_⟩
  · rw [exec_busDis, busDis_of_on hon]; rfl
  · rw [exec_busDis, busDis_of_off hoff]

/-- Settles O30: the first request leaves the bus in the state in which the second does nothing. -/
theorem enableAndDisableAreIdempotent : Obligations.EnableAndDisableAreIdempotent := by
  refine fun s t => ⟨fun h => ?_, fun h => ?_⟩
  · cases h
    exact ⟨busEn_busState s, by rw [exec_busEn, busEn_of_on]; exact busEn_busState s⟩
  · cases h
    exact ⟨busDis_busState s, by rw [exec_busDis, busDis_of_off]; exact busDis_busState s⟩

/-- Settles O31: the table of R103, and the three settings in `Off`. -/
theorem settingsAreWrittenWhileOff : Obligations.SettingsAreWrittenWhileOff := by
  refine ⟨by decide, fun s hoff => ⟨fun r rate hr => ?_, fun b => ?_, fun a => ?_⟩⟩
  · rw [exec_busRate s hr, busRate_of_off hoff]
  · rw [exec_busSilent, busSilent_of_off hoff]
  · rw [exec_busArtx, busArtx_of_off hoff]

/-- Settles O32: the three settings in `On`. -/
theorem settingsAreIgnoredWhileOn : Obligations.SettingsAreIgnoredWhileOn := by
  refine fun s hon => ⟨fun r rate hr => ?_, fun b => ?_, fun a => ?_⟩
  · rw [exec_busRate s hr, busRate_of_on hon]
  · rw [exec_busSilent, busSilent_of_on hon]
  · rw [exec_busArtx, busArtx_of_on hon]

/-! ### What can happen to the bus -/

/-- Everything an operation can do to the bus and to what was commanded of it: nothing; BUS.EN in `Off`; BUS.DIS in `On`; or
a setting, in `Off`. -/
inductive BusMove (s t : State) : Prop where
  | keep (new : List Obs) (log : t.log = new ++ s.log) (quiet : ∀ o ∈ new, o.onBus = false)
      (state : t.busState = s.busState) (presc : t.busPresc = s.busPresc) (silent : t.busSilent = s.busSilent)
      (artx : t.busArtx = s.busArtx)
  | enable (new : List Obs)
      (log : t.log = new ++ .canStart :: .canFilterPassAll :: .canConfig s.busPresc s.busSilent s.busArtx :: s.log)
      (quiet : ∀ o ∈ new, o.onBus = false) (off : s.busState = .off) (on : t.busState = .on)
      (presc : t.busPresc = s.busPresc) (silent : t.busSilent = s.busSilent) (artx : t.busArtx = s.busArtx)
  | disable (new : List Obs) (log : t.log = new ++ .canReset :: s.log) (quiet : ∀ o ∈ new, o.onBus = false)
      (on : s.busState = .on) (off : t.busState = .off)
  | setting (new : List Obs) (log : t.log = new ++ s.log) (quiet : ∀ o ∈ new, o.onBus = false)
      (off : s.busState = .off) (still : t.busState = .off)

theorem BusMove.refl (s : State) : BusMove s s := .keep [] rfl nofun rfl rfl rfl rfl

/-- What follows adds to the log, but commands nothing of the bus. -/
theorem BusMove.trans_quiet {s s' t : State} (h : BusMove s s') (more : List Obs) (hlog : t.log = more ++ s'.log)
    (hmore : ∀ o ∈ more, o.onBus = false) (hstate : t.busState = s'.busState) (hpresc : t.busPresc = s'.busPresc)
    (hsilent : t.busSilent = s'.busSilent) (hartx : t.busArtx = s'.busArtx) : BusMove s t := by
  have quiet_append {new : List Obs} (hnew : ∀ o ∈ new, o.onBus = false) : ∀ o ∈ more ++ new, o.onBus = false :=
    fun o ho => (List.mem_append.mp ho).elim (hmore o) (hnew o)
  cases h with
  | keep new log quiet state presc silent artx =>
    exact .keep (more ++ new) (by rw [hlog, log, List.append_assoc]) (quiet_append quiet) (hstate.trans state)
      (hpresc.trans presc) (hsilent.trans silent) (hartx.trans artx)
  | enable new log quiet off on presc silent artx =>
    exact .enable (more ++ new) (by rw [hlog, log, List.append_assoc]) (quiet_append quiet) off (hstate.trans on)
      (hpresc.trans presc) (hsilent.trans silent) (hartx.trans artx)
  | disable new log quiet on off =>
    exact .disable (more ++ new) (by rw [hlog, log, List.append_assoc]) (quiet_append quiet) on (hstate.trans off)
  | setting new log quiet off still =>
    exact .setting (more ++ new) (by rw [hlog, log, List.append_assoc]) (quiet_append quiet) off (hstate.trans still)

/-- A request ends with its result. -/
theorem BusMove.finish {s s' : State} (h : BusMove s s') (port : Port) (r : Result) :
    BusMove s (s'.emit (.result port r)) :=
  h.trans_quiet [.result port r] rfl (by simp [Obs.onBus]) rfl rfl rfl rfl

/-- The foreground goes to another line. -/
theorem BusMove.goto {s s' : State} (h : BusMove s s') (p : Pos) : BusMove s { s' with pos := p } :=
  h.trans_quiet [] rfl nofun rfl rfl rfl rfl

theorem busEn_busMove (s : State) : BusMove s (busEn s) := by
  cases h : s.busState with
  | on => rw [busEn_of_on h]; exact .refl s
  | off => rw [busEn_of_off h]; exact .enable [] rfl nofun h rfl rfl rfl rfl

theorem busDis_busMove (s : State) : BusMove s (busDis s) := by
  cases h : s.busState with
  | off => rw [busDis_of_off h]; exact .refl s
  | on => rw [busDis_of_on h]; exact .disable [] rfl nofun h rfl

theorem busRate_busMove (c : Config) (r : Rate) (s : State) : BusMove s (busRate c r s) := by
  cases h : s.busState with
  | on => rw [busRate_of_on h]; exact .refl s
  | off => rw [busRate_of_off h]; exact .setting [] rfl nofun h h

theorem busSilent_busMove (b : Bool) (s : State) : BusMove s (busSilent b s) := by
  cases h : s.busState with
  | on => rw [busSilent_of_on h]; exact .refl s
  | off => rw [busSilent_of_off h]; exact .setting [] rfl nofun h h

theorem busArtx_busMove (a : Bool) (s : State) : BusMove s (busArtx a s) := by
  cases h : s.busState with
  | on => rw [busArtx_of_on h]; exact .refl s
  | off => rw [busArtx_of_off h]; exact .setting [] rfl nofun h h

theorem runCmd_busMove {c : Config} {cmd : Cmd} {s t : State} (h : runCmd c cmd s = .ok t) : BusMove s t := by
  cases cmd with
  | enq f =>
    simp only [runCmd, bind_eq_ok, pure_ok, Except.ok.injEq] at h
    obtain ⟨⟨r, s1⟩, h1, rfl⟩ := h
    obtain ⟨_, _, rfl⟩ | ⟨_, _, _, _, rfl⟩ := ctxEnq_cases h1
    · exact .keep [] rfl nofun rfl rfl rfl rfl
    · exact .keep [] rfl nofun rfl rfl rfl rfl
  | en => cases h; exact busEn_busMove s
  | dis => cases h; exact busDis_busMove s
  | rate r => cases h; exact busRate_busMove c r s
  | silent b => cases h; exact busSilent_busMove b s
  | artx a => cases h; exact busArtx_busMove a s

theorem ctxSubmitted_busMove (c : Config) (acc : Bool) (a : Answers) (s : State) : BusMove s (ctxSubmitted c acc a s) := by
  cases acc <;> exact .keep [.canSubmit (slotFrame c s.ctxTail s) _] rfl (by simp [Obs.onBus]) rfl rfl rfl rfl

theorem ctxProc_busMove {c : Config} {s t : State} {r : Result} (h : ctxProc c s = .ok (r, t)) : BusMove s t := by
  obtain ⟨_, ⟨_, rfl⟩ | ⟨_, _, rfl⟩ | ⟨_, _, _, acc, a, rfl⟩⟩ := ctxProc_cases h
  · exact .refl _
  · obtain ⟨m, a, hd⟩ := drawMailboxes_cases c s
    rw [hd]; exact .keep [] rfl nofun rfl rfl rfl rfl
  · exact ctxSubmitted_busMove c acc a s

theorem utxSend_busMove (c : Config) (bytes : List Byte) (s : State) : BusMove s (utxSend c bytes s).2 := by
  obtain ⟨_, e⟩ | ⟨_, _, e⟩ | ⟨_, _, e⟩ := utxSend_cases c bytes s <;> rw [e]
  · exact .keep [] rfl nofun rfl rfl rfl rfl
  · exact .refl s
  · exact .keep [.usbStartTx bytes] rfl (by simp [Obs.onBus]) rfl rfl rfl rfl

theorem FgMove.busMove {i : Instr} {s t : State} (h : FgMove i s t) : BusMove s t := by
  cases h with
  | quiet same log =>
    obtain ⟨new, hlog, hnew⟩ := log
    exact .keep new hlog hnew (by rw [same]) (by rw [same]) (by rw [same]) (by rw [same])
  | submit _ _ _ acc a p eq => exact eq ▸ (ctxSubmitted_busMove _ acc a s).goto p
  | run cmd rest ok _ s' run p eq => exact eq ▸ (runCmd_busMove run).goto p
  | send bytes _ p eq => exact eq ▸ (utxSend_busMove _ bytes s).goto p
  | append b _ _ p eq => exact eq ▸ .keep [] rfl nofun rfl rfl rfl rfl

theorem Effect.busMove {i : Instr} {s t : State} (h : Effect i s t) : BusMove s t := by
  cases h with
  | proc s s' run => exact (ctxProc_busMove run).finish _ _
  | en => exact (busEn_busMove s).finish _ _
  | dis => exact (busDis_busMove s).finish _ _
  | rate r rate => exact (busRate_busMove _ rate s).finish _ _
  | silent b => exact (busSilent_busMove b s).finish _ _
  | artx a => exact (busArtx_busMove a s).finish _ _
  | crxPend =>
    refine BusMove.finish ?_ _ _
    rw [crxPend_frame]; exact .keep [] (by rw [crxPend_frame]; rfl) nofun rfl rfl rfl rfl
  | crxRecv =>
    refine BusMove.finish ?_ _ _
    rw [crxRecv_frame]; exact .keep [] (by rw [crxRecv_frame]; rfl) nofun rfl rfl rfl rfl
  | chunkLost => exact .keep [_, .usbArm _] rfl (by simp [Obs.onBus]) rfl rfl rfl rfl
  | chunkCaptured => exact .keep [_, .usbArm _] rfl (by simp [Obs.onBus]) rfl rfl rfl rfl
  | send bytes => exact (utxSend_busMove _ bytes s).finish _ _
  | drain s t run => exact (execUrxDrain_move run).busMove
  | iter s t run => exact (execLoopIter_move run).busMove
  | pushFull | push | pend | peek | adv | popEmpty | pop | enqFull | enq | ovf | done =>
    exact .keep [.result _ _] rfl (by simp [Obs.onBus]) rfl rfl rfl rfl

/-- A step other than a reset makes a move of the bus. -/
theorem step_busMove {s t : State} (h : step s = .next t) (hreset : s.inbox.head? ≠ some .reset) : BusMove s t := by
  obtain ⟨rest, _, ⟨i, hi⟩ | rfl | ⟨hr, _⟩⟩ := step_next h
  · have hm := (exec_effect hi).busMove
    cases hm with
    | keep new log quiet state presc silent artx => exact .keep new log quiet state presc silent artx
    | enable new log quiet off on presc silent artx => exact .enable new log quiet off on presc silent artx
    | disable new log quiet on off => exact .disable new log quiet on off
    | setting new log quiet off still => exact .setting new log quiet off still
  · exact .keep [.usbArm 0] rfl (by simp [Obs.onBus]) rfl rfl rfl rfl
  · exact absurd hr hreset

/-! ### The settings are frozen while On -/

theorem lastConfig_append {new log : List Obs} (h : ∀ o ∈ new, o.onBus = false) :
    lastConfig (new ++ log) = lastConfig log := by
  induction new with
  | nil => rfl
  | cons o new ih =>
    obtain ⟨ho, hnew⟩ := List.forall_mem_cons.mp h
    cases o with
    | canConfig => cases ho
    | _ => exact ih hnew

/-- While `On`, the settings are those of the last configuration (spec/10_state.md R36). -/
def ConfiguredWhileOn (s : State) : Prop :=
  s.busState = .on → lastConfig s.log = some (s.busPresc, s.busSilent, s.busArtx)

theorem BusMove.configuredWhileOn {s t : State} (h : BusMove s t) (hs : ConfiguredWhileOn s) : ConfiguredWhileOn t := by
  intro hon
  cases h with
  | keep new log quiet state presc silent artx =>
    rw [log, lastConfig_append quiet, hs (state ▸ hon), presc, silent, artx]
  | enable new log quiet _ _ presc silent artx => rw [log, lastConfig_append quiet, presc, silent, artx]; rfl
  | disable _ _ _ _ off => rw [off] at hon; cases hon
  | setting _ _ _ _ still => rw [still] at hon; cases hon

theorem step_configuredWhileOn {s t : State} (hs : ConfiguredWhileOn s) (h : step s = .next t) : ConfiguredWhileOn t := by
  by_cases hreset : s.inbox.head? = some .reset
  · obtain ⟨rest, _, ⟨i, hi⟩ | rfl | ⟨_, rfl⟩⟩ := step_next h
    · exact (exec_effect hi).busMove.configuredWhileOn hs
    · exact hs
    · intro hon; cases hon
  · exact (step_busMove h hreset).configuredWhileOn hs

/-- Settles O33: no move but a reset of the peripheral touches a bus that is `On`, and BUS.EN hands over what it finds. -/
theorem settingsAreFrozenWhileOn : Obligations.SettingsAreFrozenWhileOn := by
  refine ⟨fun s t new h hreset hlog hnew hon => ?_, fun inbox a k n log t h => ?_⟩
  · cases step_busMove h hreset with
    | keep _ _ _ state presc silent artx => exact ⟨state.trans hon, presc, silent, artx⟩
    | enable _ _ _ off => rw [off] at hon; cases hon
    | disable new' log' =>
      have : new = new' ++ [.canReset] := List.append_cancel_right (by rw [← hlog, log']; simp)
      exact absurd (by rw [this]; simp) hnew
    | setting _ _ _ off => rw [off] at hon; cases hon
  · exact run_keeps (P := ConfiguredWhileOn) (fun _ _ hs ht => step_configuredWhileOn hs ht) (fun hon => by cases hon) h

/-! ### Who moves the bus -/

/-- Each register is moved by the operation named for it alone. -/
theorem runCmd_moves {c : Config} {cmd : Cmd} {s t : State} (h : runCmd c cmd s = .ok t) :
    (t.busState ≠ s.busState → cmd = .en ∨ cmd = .dis) ∧ (t.busPresc ≠ s.busPresc → ∃ r, cmd = .rate r) ∧
    (t.busSilent ≠ s.busSilent → ∃ b, cmd = .silent b) ∧ (t.busArtx ≠ s.busArtx → ∃ a, cmd = .artx a) := by
  cases cmd with
  | enq f =>
    simp only [runCmd, bind_eq_ok, pure_ok, Except.ok.injEq] at h
    obtain ⟨⟨r, s1⟩, h1, rfl⟩ := h
    rw [ctxEnq_frame h1]
    exact ⟨absurd rfl, absurd rfl, absurd rfl, absurd rfl⟩
  | en => cases h; rw [busEn_frame]; exact ⟨fun _ => .inl rfl, absurd rfl, absurd rfl, absurd rfl⟩
  | dis => cases h; rw [busDis_frame]; exact ⟨fun _ => .inr rfl, absurd rfl, absurd rfl, absurd rfl⟩
  | rate r => cases h; rw [busRate_frame]; exact ⟨absurd rfl, fun _ => ⟨r, rfl⟩, absurd rfl, absurd rfl⟩
  | silent b => cases h; rw [busSilent_frame]; exact ⟨absurd rfl, absurd rfl, fun _ => ⟨b, rfl⟩, absurd rfl⟩
  | artx a => cases h; rw [busArtx_frame]; exact ⟨absurd rfl, absurd rfl, absurd rfl, fun _ => ⟨a, rfl⟩⟩

/-- What the parser issued and did not run yet stands in its answer to the line last handed to it. -/
theorem State.Inv.cmd_issued {c : Config} {s : State} (h : s.Inv c) {cmd : Cmd} {rest : List Cmd} {ok : Bool}
    (hl : s.pos.drainLine = some (.run cmd rest ok)) :
    ∃ line, (parsedLines s.log).head? = some line ∧ cmd ∈ (c.parse line).1 := by
  obtain ⟨line, hlast, _, hsuffix, _⟩ := h.cmds (cmd :: rest) ok hl
  exact ⟨line, hlast, hsuffix.subset List.mem_cons_self⟩

/-- A micro-step of the foreground that moves a register of the bus runs an operation of the parser. -/
theorem FgMove.bus {i : Instr} {s t : State} (h : FgMove i s t)
    (hne : t.busState ≠ s.busState ∨ t.busPresc ≠ s.busPresc ∨ t.busSilent ≠ s.busSilent ∨ t.busArtx ≠ s.busArtx) :
    ∃ cmd rest ok s' p, s.pos.drainLine = some (.run cmd rest ok) ∧ runCmd Config.impl cmd s = .ok s' ∧
      t = { s' with pos := p } := by
  have still (hs : t.busState = s.busState ∧ t.busPresc = s.busPresc ∧ t.busSilent = s.busSilent ∧
      t.busArtx = s.busArtx) : False := by
    obtain ⟨h1, h2, h3, h4⟩ := hs
    obtain hn | hn | hn | hn := hne
    · exact hn h1
    · exact hn h2
    · exact hn h3
    · exact hn h4
  cases h with
  | quiet same => exact (still (by rw [same]; exact ⟨rfl, rfl, rfl, rfl⟩)).elim
  | submit _ _ _ acc a p eq => exact (still (by rw [eq]; cases acc <;> exact ⟨rfl, rfl, rfl, rfl⟩)).elim
  | run cmd rest ok line s' run p eq => exact ⟨cmd, rest, ok, s', p, line, run, eq⟩
  | send bytes _ p eq => exact (still (by rw [eq, utxSend_frame]; exact ⟨rfl, rfl, rfl, rfl⟩)).elim
  | append b _ _ p eq => exact (still (by rw [eq]; exact ⟨rfl, rfl, rfl, rfl⟩)).elim

/-- Settles O34: the frames of the other operations name none of the four registers, and a micro-step that moves one runs the
parser's operation named for it. -/
theorem onlyTheControllerMovesTheBus : Obligations.OnlyTheControllerMovesTheBus := by
  intro i s t h
  have hf := (exec_effect h).frame
  refine ⟨fun hen hdis hdrain hiter => ?_, fun hrate hdrain hiter => ?_, fun hsilent hdrain hiter => ?_,
    fun hartx hdrain hiter => ?_, fun hi hne => ?_⟩
  · cases i with
    | busEn => exact absurd rfl hen
    | busDis => exact absurd rfl hdis
    | urxDrain => exact absurd rfl hdrain
    | loopIter => exact absurd rfl hiter
    | _ => simp only [Frame] at hf; rw [hf]
  · cases i with
    | busRate r => exact absurd rfl (hrate r)
    | urxDrain => exact absurd rfl hdrain
    | loopIter => exact absurd rfl hiter
    | _ => simp only [Frame] at hf; rw [hf]
  · cases i with
    | busSilent b => exact absurd rfl (hsilent b)
    | urxDrain => exact absurd rfl hdrain
    | loopIter => exact absurd rfl hiter
    | _ => simp only [Frame] at hf; rw [hf]
  · cases i with
    | busArtx a => exact absurd rfl (hartx a)
    | urxDrain => exact absurd rfl hdrain
    | loopIter => exact absurd rfl hiter
    | _ => simp only [Frame] at hf; rw [hf]
  · obtain ⟨cmd, rest, ok, s', p, hline, hrun, rfl⟩ := (exec_fgMove hi h).bus hne
    obtain ⟨hstate, hpresc, hsilent, hartx⟩ := runCmd_moves hrun
    exact ⟨cmd, rest, ok, hline, hstate, hpresc, hsilent, hartx, fun hinv => hinv.cmd_issued hline⟩

/-! ### The CAN receive path -/

theorem crxPend_of_off {c : Config} {s : State} (h : s.busState = .off) : crxPend c s = (false, s) := by
  simp only [crxPend, h]

theorem crxPend_of_on {c : Config} {s : State} (h : s.busState = .on) : crxPend c s = drawNonempty c s := by
  simp only [crxPend, h]

theorem exec_crxPend (s : State) : exec .crxPend s =
    .next ((crxPend Config.impl s).2.emit (.result .fgp (.okBool (crxPend Config.impl s).1))) := rfl

theorem exec_crxRecv (s : State) : exec .crxRecv s =
    .next ((crxRecv Config.impl s).2.emit (.result .fgp (crxRecv Config.impl s).1)) := rfl

/-- Settles O35: by the bus state and by the peripheral's answer. -/
theorem receivePathAnswersForThePeripheral : Obligations.ReceivePathAnswersForThePeripheral := by
  refine fun s => ⟨fun hoff => ?_, fun hon => ?_, fun f hf => ?_, fun hnone => ?_, ?_, ?_⟩
  · rw [exec_crxPend, crxPend_of_off hoff]
  · rw [exec_crxPend, crxPend_of_on hon]
  · obtain ⟨g, a, hd, he⟩ := crxRecv_cases Config.impl s
    rw [hd] at hf ⊢
    obtain rfl : g = some f := hf
    rw [exec_crxRecv, he]
  · obtain ⟨g, a, hd, he⟩ := crxRecv_cases Config.impl s
    rw [hd] at hnone ⊢
    obtain rfl : g = none := hnone
    rw [exec_crxRecv, he]
  · obtain ⟨b, a, hd⟩ := drawNonempty_cases Config.impl s
    rw [hd]
  · obtain ⟨f, a, hd⟩ := drawPop_cases Config.impl s
    rw [hd]

/-! ### The USB transmit gate -/

theorem exec_utxSend (bytes : List Byte) (s : State) : exec (.utxSend bytes) s =
    .next ((utxSend Config.impl bytes s).2.emit (.result .fgp (utxSend Config.impl bytes s).1)) := rfl

theorem utxSend_tooLong {c : Config} {bytes : List Byte} {s : State} (h : s.utxBusy = false)
    (hl : c.txBuf < bytes.length) : utxSend c bytes s = (.tooLong, s) := by
  obtain ⟨h', _⟩ | ⟨_, _, e⟩ | ⟨_, hl', _⟩ := utxSend_cases c bytes s
  · rw [h] at h'; cases h'
  · exact e
  · omega

theorem utxSend_started {c : Config} {bytes : List Byte} {s : State} (h : s.utxBusy = false)
    (hl : bytes.length ≤ c.txBuf) : utxSend c bytes s = (.ok, utxStarted bytes s) := by
  obtain ⟨h', _⟩ | ⟨_, hl', _⟩ | ⟨_, _, e⟩ := utxSend_cases c bytes s
  · rw [h] at h'; cases h'
  · omega
  · exact e

/-- Settles O49: busy, too long, or started. -/
theorem sendStartsOrIsTurnedAway : Obligations.SendStartsOrIsTurnedAway := by
  refine fun bytes s => ⟨fun hbusy => ?_, fun hfree hlong => ?_, fun hfree hfits => ?_⟩
  · rw [exec_utxSend, utxSend_busy hbusy]
  · rw [exec_utxSend, utxSend_tooLong hfree hlong]
  · rw [exec_utxSend, utxSend_started hfree hfits]; rfl

/-- Settles O51: by the busy bit. -/
theorem completionFreesTheGate : Obligations.CompletionFreesTheGate :=
  fun s => ⟨fun hbusy => if_pos hbusy, fun hfree => if_neg (by simp [hfree])⟩

/-- A busy gate, its buffer and its length stay through a micro-step of the foreground. -/
theorem FgMove.keeps_flight {i : Instr} {s t : State} (h : FgMove i s t) (hbusy : s.utxBusy = true) :
    t.utxMem = s.utxMem ∧ t.utxLen = s.utxLen ∧ t.utxBusy = true := by
  cases h with
  | quiet same => rw [same]; exact ⟨rfl, rfl, hbusy⟩
  | submit _ _ _ acc a p eq => rw [eq]; cases acc <;> exact ⟨rfl, rfl, hbusy⟩
  | run cmd rest ok _ s' run p eq => rw [eq, runCmd_frame run]; exact ⟨rfl, rfl, hbusy⟩
  | send bytes _ p eq => rw [eq, utxSend_busy hbusy]; exact ⟨rfl, rfl, hbusy⟩
  | append b _ _ p eq => rw [eq]; exact ⟨rfl, rfl, hbusy⟩

theorem exec_keeps_flight {i : Instr} {s t : State} (h : exec i s = .next t) (hi : i ≠ .utxDone)
    (hbusy : s.utxBusy = true) : t.utxMem = s.utxMem ∧ t.utxLen = s.utxLen ∧ t.utxBusy = true := by
  have hf := (exec_effect h).frame
  cases i with
  | utxDone => exact absurd rfl hi
  | utxSend bytes => rw [exec_utxSend, utxSend_busy hbusy] at h; cases h; exact ⟨rfl, rfl, hbusy⟩
  | urxDrain => exact (execUrxDrain_move h).keeps_flight hbusy
  | loopIter => exact (execLoopIter_move h).keeps_flight hbusy
  | _ => simp only [Frame] at hf; rw [hf]; exact ⟨rfl, rfl, hbusy⟩

/-- Settles O50: a busy gate turns every offer away, and no other operation but UTX.DONE names it. -/
theorem flightIsOnlyEndedByCompletion : Obligations.FlightIsOnlyEndedByCompletion := by
  refine fun s hbusy => ⟨fun bytes => ?_, fun i t h hi => exec_keeps_flight h hi hbusy⟩
  rw [exec_utxSend, utxSend_busy hbusy]

/-! ### Each context and its state -/

theorem Frame.of_irqp {i : Instr} {s t : State} (h : Frame i s t) (hp : i.port = .irqp) : t = { s with
    urxHead := t.urxHead, urxLen := t.urxLen, urxMem := t.urxMem, urxArmed := t.urxArmed, log := t.log
    evt := { s.evt with
      canRxFifoOverflow := t.evt.canRxFifoOverflow, usbRxBufferFull := t.evt.usbRxBufferFull } } := by
  cases i with
  | crxOvf | urxChunk => simp only [Frame] at h; rw [h]
  | _ => cases hp

theorem Frame.of_p {i : Instr} {s t : State} (h : Frame i s t) (hp : i.port = .p) :
    t = { s with q := { s.q with head := t.q.head, slot := t.q.slot }, log := t.log } := by
  cases i with
  | rbPush item => exact h
  | _ => cases hp

theorem Frame.of_c {i : Instr} {s t : State} (h : Frame i s t) (hp : i.port = .c) :
    t = { s with q := { s.q with tail := t.q.tail }, log := t.log } := by
  cases i with
  | rbPend | rbPeek | rbAdv | rbPop => simp only [Frame] at h; rw [h]
  | _ => cases hp

theorem exec_of_envp {i : Instr} {s t : State} (h : exec i s = .next t) (hp : i.port = .envp) :
    t = { s with utxBusy := false, log := t.log } := by
  cases i with
  | utxDone =>
    cases exec_effect h with
    | done => rfl
  | _ => cases hp

theorem Frame.of_fgp {i : Instr} {s t : State} (h : Frame i s t) (hp : i.port = .fgp) :
    t.q = s.q ∧ t.urxHead = s.urxHead ∧ t.urxLen = s.urxLen ∧ t.urxMem = s.urxMem ∧ t.urxArmed = s.urxArmed ∧
      t.evt.canRxFifoOverflow = s.evt.canRxFifoOverflow ∧ t.evt.usbRxBufferFull = s.evt.usbRxBufferFull := by
  cases i with
  | rbPush | rbPend | rbPeek | rbAdv | rbPop | crxOvf | urxChunk | utxDone => cases hp
  | _ => simp only [Frame] at h; rw [h]; exact ⟨rfl, rfl, rfl, rfl, rfl, rfl, rfl⟩

/-- Settles O54: the frames by port; only UTX.DONE, which is no operation of `FG`, clears the busy bit. -/
theorem eachContextWritesItsOwnState : Obligations.EachContextWritesItsOwnState := by
  intro i s t h
  have hf := (exec_effect h).frame
  obtain ⟨hinbox, hresets, _⟩ := hf.environment
  refine ⟨hf.of_irqp, exec_of_envp h, hf.of_p, hf.of_c, fun hp => ?_⟩
  obtain ⟨hq, hhead, hlen, hmem, harmed, hovf, hfull⟩ := hf.of_fgp hp
  have hbusy : s.utxBusy = true → t.utxBusy = true := fun hb =>
    (exec_keeps_flight h (by rintro rfl; cases hp) hb).2.2
  exact ⟨hq, hhead, hlen, hmem, harmed, hovf, hfull, hbusy, hinbox, hresets⟩

/-! ### Where events are counted -/

/-- A frame names no counter that the event table does not give to its operation. -/
theorem Frame.counter {i : Instr} {s t : State} (h : Frame i s t) {e : Event} (he : i.opcode ∉ raisers e) :
    t.evt.get e = s.evt.get e := by
  have other {d : Event} (hd : i.opcode ∈ raisers d) (k : Counters) (v : Nat) : (k.set d v).get e = k.get e :=
    k.get_set_other v (by rintro rfl; exact he hd)
  cases i with
  | rbPush | rbPend | rbPeek | rbAdv | rbPop | busEn | busDis | busRate | busSilent | busArtx | crxPend | crxRecv
  | utxDone => simp only [Frame] at h; rw [h]
  | ctxEnq =>
    have hevt : t.evt = s.evt.set .canQueueFull t.evt.canQueueFull := by
      simp only [Frame] at h; rw [h]; rfl
    rw [hevt, other (by simp [Instr.opcode, raisers])]
  | ctxProc =>
    have hevt : t.evt = s.evt.set .canTxHardwareReject t.evt.canTxHardwareReject := by
      simp only [Frame] at h; rw [h]; rfl
    rw [hevt, other (by simp [Instr.opcode, raisers])]
  | crxOvf =>
    have hevt : t.evt = s.evt.set .canRxFifoOverflow t.evt.canRxFifoOverflow := by
      simp only [Frame] at h; rw [h]; rfl
    rw [hevt, other (by simp [Instr.opcode, raisers])]
  | urxChunk =>
    have hevt : t.evt = s.evt.set .usbRxBufferFull t.evt.usbRxBufferFull := by
      simp only [Frame] at h; rw [h]; rfl
    rw [hevt, other (by simp [Instr.opcode, raisers])]
  | utxSend =>
    have hevt : t.evt = s.evt.set .usbTxBusy t.evt.usbTxBusy := by
      simp only [Frame] at h; rw [h]; rfl
    rw [hevt, other (by simp [Instr.opcode, raisers])]
  | urxDrain =>
    have hevt : t.evt = ((s.evt.set .canQueueFull t.evt.canQueueFull).set .usbTxBusy t.evt.usbTxBusy).set
        .usbLineOverflow t.evt.usbLineOverflow := by
      simp only [Frame] at h; rw [h]; rfl
    have hcanQueueFull := other (d := .canQueueFull) (by decide)
    have husbTxBusy := other (d := .usbTxBusy) (by decide)
    have husbLineOverflow := other (d := .usbLineOverflow) (by decide)
    rw [hevt, husbLineOverflow, husbTxBusy, hcanQueueFull]
  | loopIter =>
    have hevt : t.evt =
        (((s.evt.set .canQueueFull t.evt.canQueueFull).set .canTxHardwareReject t.evt.canTxHardwareReject).set
          .usbTxBusy t.evt.usbTxBusy).set .usbLineOverflow t.evt.usbLineOverflow := by
      simp only [Frame] at h; rw [h]; rfl
    have hcanQueueFull := other (d := .canQueueFull) (by decide)
    have hcanTxHardwareReject := other (d := .canTxHardwareReject) (by decide)
    have husbTxBusy := other (d := .usbTxBusy) (by decide)
    have husbLineOverflow := other (d := .usbLineOverflow) (by decide)
    rw [hevt, husbLineOverflow, husbTxBusy, hcanTxHardwareReject, hcanQueueFull]

/-- Settles O57: by the frames. -/
theorem eventsAreCountedWhereTheyAreDetected : Obligations.EventsAreCountedWhereTheyAreDetected :=
  fun _ _ _ _ h he => (exec_effect h).frame.counter he

end Sys2Proof.Machine
end

section
/-! PROOFS. What no operation touches and what none observes (spec/20_memory.md sections 3, 4 and 6; spec/10_state.md sections 3,
5 and 11): the units a store reaches, the counters, `CTX_FULLFLAG` and the unspecified reset contents. -/

namespace Sys2Proof.Machine

/-! ### The units a micro-step of the foreground reaches -/

section Move
variable {i : Instr} {s t : State}

theorem FgMove.lineMem_read (h : FgMove i s t) {a : Nat} (ha : a ≠ s.lineIdx) : t.lineMem.read a = s.lineMem.read a := by
  cases h with
  | quiet same => rw [same]
  | submit _ _ _ acc _ _ eq => rw [eq]; cases acc <;> rfl
  | run _ _ _ _ _ run _ eq => rw [eq, runCmd_frame run]
  | send _ _ _ eq => rw [eq, utxSend_frame]
  | append _ _ _ _ eq => rw [eq]; exact Memory.read_write_other _ _ ha

/-- The frame of a CTX.ENQ that the parser issued is stored at `CTX_HEAD`; else the queue's memory stays. -/
theorem FgMove.ctxMem (h : FgMove i s t) : (t.ctxHdr = s.ctxHdr ∧ t.ctxData = s.ctxData) ∨
    ∃ f rest ok, s.pos.drainLine = some (.run (.enq f) rest ok) ∧ t.ctxHdr = s.ctxHdr.write s.ctxHead f.val.header ∧
      t.ctxData = s.ctxData.writeAll (ctxAddr s.ctxHead) f.val.data := by
  cases h with
  | quiet same => rw [same]; exact .inl ⟨rfl, rfl⟩
  | submit _ _ _ acc _ _ eq => rw [eq]; cases acc <;> exact .inl ⟨rfl, rfl⟩
  | send _ _ _ eq => rw [eq, utxSend_frame]; exact .inl ⟨rfl, rfl⟩
  | append _ _ _ _ eq => rw [eq]; exact .inl ⟨rfl, rfl⟩
  | run cmd rest ok line s' run p eq =>
    subst eq
    cases cmd with
    | enq f =>
      simp only [runCmd, bind_eq_ok, pure_ok, Except.ok.injEq] at run
      obtain ⟨⟨r, s1⟩, henq, rfl⟩ := run
      obtain ⟨_, _, rfl⟩ | ⟨_, _, _, _, rfl⟩ := ctxEnq_cases henq
      · exact .inl ⟨rfl, rfl⟩
      · exact .inr ⟨f, rest, ok, line, rfl, rfl⟩
    | en => cases run; rw [busEn_frame]; exact .inl ⟨rfl, rfl⟩
    | dis => cases run; rw [busDis_frame]; exact .inl ⟨rfl, rfl⟩
    | rate r => cases run; rw [busRate_frame]; exact .inl ⟨rfl, rfl⟩
    | silent b => cases run; rw [busSilent_frame]; exact .inl ⟨rfl, rfl⟩
    | artx a => cases run; rw [busArtx_frame]; exact .inl ⟨rfl, rfl⟩

theorem utxSend_utxMem (c : Config) (bytes : List Byte) (s : State) :
    (utxSend c bytes s).2.utxMem = s.utxMem ∨ (utxSend c bytes s).2.utxMem = s.utxMem.writeAll 0 bytes := by
  obtain ⟨_, e⟩ | ⟨_, _, e⟩ | ⟨_, _, e⟩ := utxSend_cases c bytes s <;> rw [e]
  · exact .inl rfl
  · exact .inl rfl
  · exact .inr rfl

theorem utxSend_utxMem_read (c : Config) {bytes : List Byte} (s : State) {a : Nat} (ha : bytes.length ≤ a) :
    (utxSend c bytes s).2.utxMem.read a = s.utxMem.read a := by
  obtain e | e := utxSend_utxMem c bytes s <;> rw [e]
  exact Memory.read_writeAll_outside _ _ _ _ (.inr (by omega))

/-- The transmit buffer is written at the line of R231 that sends, and at the reply. -/
theorem FgMove.utxMem (h : FgMove i s t) : t.utxMem = s.utxMem ∨
    ∃ bytes, (i = .loopIter ∧ s.pos = .loop (.send bytes) ∨ ∃ ok, s.pos.drainLine = some (.reply ok) ∧ bytes.length = 1) ∧
      ∀ a, bytes.length ≤ a → t.utxMem.read a = s.utxMem.read a := by
  cases h with
  | quiet same => rw [same]; exact .inl rfl
  | submit _ _ _ acc _ _ eq => rw [eq]; cases acc <;> exact .inl rfl
  | run _ _ _ _ _ run _ eq => rw [eq, runCmd_frame run]; exact .inl rfl
  | append _ _ _ _ eq => rw [eq]; exact .inl rfl
  | send bytes line p eq =>
    subst eq
    exact .inr ⟨bytes, line, fun a ha => utxSend_utxMem_read Config.impl s ha⟩

theorem runCmd_ctxFrames {c : Config} {cmd : Cmd} (h : CtxOk s.ctxHead s.ctxTail s.ctxHdr s.ctxData)
    (hr : runCmd c cmd s = .ok t) : ∃ fs, ctxFrames c t = ctxFrames c s ++ fs := by
  cases cmd with
  | enq f =>
    simp only [runCmd, bind_eq_ok, pure_ok, Except.ok.injEq] at hr
    obtain ⟨⟨r, s1⟩, henq, rfl⟩ := hr
    obtain ⟨_, _, rfl⟩ | ⟨hroom, _, _, _, rfl⟩ := ctxEnq_cases henq
    · exact ⟨[], (List.append_nil _).symm⟩
    · exact ⟨[f.val], ctxFrames_enqueued h f.property hroom⟩
  | en => cases hr; rw [busEn_frame]; exact ⟨[], (List.append_nil _).symm⟩
  | dis => cases hr; rw [busDis_frame]; exact ⟨[], (List.append_nil _).symm⟩
  | rate r => cases hr; rw [busRate_frame]; exact ⟨[], (List.append_nil _).symm⟩
  | silent b => cases hr; rw [busSilent_frame]; exact ⟨[], (List.append_nil _).symm⟩
  | artx a => cases hr; rw [busArtx_frame]; exact ⟨[], (List.append_nil _).symm⟩

/-- The frames that wait: more may join them, and only an iteration's CTX.PROC takes one out, the oldest. -/
theorem FgMove.ctxFrames (h : FgMove i s t) (hinv : s.Inv Config.impl) :
    (∃ fs, ctxFrames Config.impl t = ctxFrames Config.impl s ++ fs) ∨
      i = .loopIter ∧ ∃ f, ctxFrames Config.impl s = f :: ctxFrames Config.impl t := by
  cases h with
  | quiet same => rw [same]; exact .inl ⟨[], (List.append_nil _).symm⟩
  | send _ _ _ eq => rw [eq, utxSend_frame]; exact .inl ⟨[], (List.append_nil _).symm⟩
  | append _ _ _ _ eq => rw [eq]; exact .inl ⟨[], (List.append_nil _).symm⟩
  | run _ _ _ _ _ run _ eq =>
    have hfs := runCmd_ctxFrames hinv.ctx run
    subst eq
    exact .inl hfs
  | submit iter live _ acc _ _ eq =>
    subst eq
    refine .inr ⟨iter, slotFrame Config.impl s.ctxTail s, ctxFrames_advance hinv.ctx live ?_⟩
    cases acc <;> rfl

end Move

/-- Settles O56: each store by the law of its write, and the micro-steps of the foreground by their moves. -/
theorem storesReachOnlyTheirUnits : Obligations.StoresReachOnlyTheirUnits := by
  refine fun s t a => ⟨fun item h ha => ?_, fun f h => ?_, fun bytes slot harmed h => ?_, fun bytes h ha => ?_, fun h => ?_,
    fun i hi h => ?_⟩
  · cases exec_effect h with
    | pushFull => rfl
    | push => exact Memory.read_write_other _ _ ha
  · cases exec_effect h with
    | enqFull => exact ⟨fun _ => rfl, fun _ => rfl⟩
    | enq =>
      refine ⟨fun ha => Memory.read_write_other _ _ ha, fun ha => Memory.read_writeAll_outside _ _ _ _ (ha.imp_right ?_)⟩
      intro hle
      have : (frameOf f).data.length ≤ f.header.dlc.toNat := by simp [frameOf]
      omega
  · cases exec_effect h with
    | chunkLost _ slot' _ _ harmed' =>
      obtain rfl := Option.some.inj (harmed.symm.trans harmed')
      exact ⟨fun _ => rfl, fun ha => Memory.read_writeAll_outside _ _ _ _ ha⟩
    | chunkCaptured _ slot' _ _ harmed' =>
      obtain rfl := Option.some.inj (harmed.symm.trans harmed')
      exact ⟨fun ha => Memory.read_write_other _ _ ha, fun ha => Memory.read_writeAll_outside _ _ _ _ ha⟩
  · rw [exec_utxSend] at h
    cases h
    exact utxSend_utxMem_read _ s ha
  · have move := execUrxDrain_move h
    refine ⟨move.lineMem_read, fun ha => ?_, fun hinv => ?_⟩
    · obtain e | ⟨bytes, ⟨hi, _⟩ | ⟨_, _, hlen⟩, hread⟩ := move.utxMem
      · rw [e]
      · cases hi
      · exact hread a (by omega)
    · obtain hfs | ⟨hi, _⟩ := move.ctxFrames hinv
      · exact hfs
      · cases hi
  · have move := exec_fgMove hi h
    refine ⟨move.lineMem_read, fun ha => ?_, fun ha => ?_, fun f rest ok hline ha => ?_, fun hne => ?_,
      fun bytes hpos ha => ?_, fun ok hline ha => ?_, fun hsend hreply => ?_, fun hinv => ?_⟩
    · obtain ⟨e, _⟩ | ⟨f, rest, ok, _, e, _⟩ := move.ctxMem <;> rw [e]
      exact Memory.read_write_other _ _ ha
    · obtain ⟨_, e⟩ | ⟨f, rest, ok, _, _, e⟩ := move.ctxMem <;> rw [e]
      have := data_length_le_of_wf f.property
      exact Memory.read_writeAll_outside _ _ _ _ (by omega)
    · obtain ⟨_, e⟩ | ⟨f', rest', ok', hline', _, e⟩ := move.ctxMem <;> rw [e]
      rw [hline] at hline'
      cases hline'
      exact Memory.read_writeAll_outside _ _ _ _ ha
    · obtain e | ⟨f, rest, ok, hline, _⟩ := move.ctxMem
      · exact e
      · exact absurd hline (hne f rest ok)
    · obtain e | ⟨bytes', ⟨_, hpos'⟩ | ⟨_, hline, _⟩, hread⟩ := move.utxMem
      · rw [e]
      · rw [hpos] at hpos'
        cases hpos'
        exact hread a ha
      · rw [hpos] at hline
        cases hline
    · obtain e | ⟨bytes, ⟨_, hpos⟩ | ⟨_, _, hlen⟩, hread⟩ := move.utxMem
      · rw [e]
      · rw [hpos] at hline
        cases hline
      · exact hread a (by omega)
    · obtain e | ⟨bytes, ⟨_, hpos⟩ | ⟨ok, hline, _⟩, _⟩ := move.utxMem
      · exact e
      · exact absurd hpos (hsend bytes)
      · exact absurd hline (hreply ok)
    · exact (move.ctxFrames hinv).imp_right And.right

end Sys2Proof.Machine
end

section
/-! PROOFS. Neither the counters nor `CTX_FULLFLAG` are read (spec/10_state.md R29, R37): two states that differ in them alone do
the same in every operation, and differ in them alone afterwards. -/

namespace Sys2Proof.Machine

/-- `s'` is `s` with other counters and another `CTX_FULLFLAG`, the counters being related by `E`. -/
def Like (E : Counters → Counters → Prop) (s s' : State) : Prop :=
  ∃ k b, E s.evt k ∧ s' = { s with evt := k, ctxFullFlag := b }

/-- Counting an event keeps a relation of counter files. -/
def CountKeeps (E : Counters → Counters → Prop) : Prop :=
  ∀ k l e n, E k l → E (k.set e ((k.get e + 1) % n)) (l.set e ((l.get e + 1) % n))

/-- Both runs answer, and their answers are related, or both stop with the same fault. -/
inductive Alike {α : Type} (R : α → α → Prop) : Except Fault α → Except Fault α → Prop where
  | ok {x y : α} (h : R x y) : Alike R (.ok x) (.ok y)
  | error (f : Fault) : Alike R (.error f) (.error f)

/-- The same answer with states that differ in the counters and `CTX_FULLFLAG` alone. -/
def LikePair (E : Counters → Counters → Prop) {α : Type} (x y : α × State) : Prop := x.1 = y.1 ∧ Like E x.2 y.2

theorem Alike.bind {α β : Type} {R : α → α → Prop} {R' : β → β → Prop} {x y : Except Fault α} {f g : α → Except Fault β}
    (h : Alike R x y) (hf : ∀ a b, R a b → Alike R' (f a) (g b)) : Alike R' (x >>= f) (y >>= g) := by
  cases h with
  | ok h => exact hf _ _ h
  | error e => exact .error e

/-- What does not depend on the state is the same in both runs. -/
theorem Alike.bind_same {α β : Type} {R' : β → β → Prop} {f g : α → Except Fault β} (x : Except Fault α)
    (hf : ∀ a, Alike R' (f a) (g a)) : Alike R' (x >>= f) (x >>= g) := by
  cases x with
  | ok a => exact hf a
  | error e => exact .error e

section Operations
variable {E : Counters → Counters → Prop} {c : Config} {s s' : State}

theorem Like.raise (hE : CountKeeps E) (h : Like E s s') (e : Event) : Like E (s.raise c e) (s'.raise c e) := by
  obtain ⟨k, b, hk, rfl⟩ := h
  exact ⟨_, b, hE _ _ e _ hk, rfl⟩

theorem Like.emit (h : Like E s s') (o : Obs) : Like E (s.emit o) (s'.emit o) := by
  obtain ⟨k, b, hk, rfl⟩ := h
  exact ⟨k, b, hk, rfl⟩

theorem rbPush_alike (h : Like E s s') (item : List Byte) :
    Alike (LikePair E) (rbPush c item s) (rbPush c item s') := by
  obtain ⟨k, b, hk, rfl⟩ := h
  unfold rbPush
  dsimp only
  split
  · exact .ok ⟨rfl, k, b, hk, rfl⟩
  · exact .bind_same _ fun _ => .ok ⟨rfl, k, b, hk, rfl⟩

theorem rbPeek_alike (h : Like E s s') : Alike (LikePair E) (rbPeek c s) (rbPeek c s') := by
  obtain ⟨k, b, hk, rfl⟩ := h
  exact .bind_same (rbTailItem c s) fun _ => .ok ⟨rfl, k, b, hk, rfl⟩

theorem rbPop_alike (h : Like E s s') : Alike (LikePair E) (rbPop c s) (rbPop c s') := by
  obtain ⟨k, b, hk, rfl⟩ := h
  unfold rbPop
  dsimp only
  split
  · exact .ok ⟨rfl, k, b, hk, rfl⟩
  · exact .bind_same (rbTailItem c s) fun _ => .ok ⟨rfl, k, b, hk, rfl⟩

theorem ctxEnq_alike (hE : CountKeeps E) (h : Like E s s') (f : CanFrame) :
    Alike (LikePair E) (ctxEnq c f s) (ctxEnq c f s') := by
  have hr := h.raise (c := c) hE .canQueueFull
  obtain ⟨k, b, hk, rfl⟩ := h
  have hstore : Alike (Like E) (storeFrame s.ctxHead f s) (storeFrame s.ctxHead f { s with evt := k, ctxFullFlag := b }) :=
    .bind_same _ fun _ => .bind_same _ fun _ => .ok ⟨k, b, hk, rfl⟩
  unfold ctxEnq
  dsimp only
  split
  · exact .ok ⟨rfl, hr⟩
  · refine .bind hstore fun x y hxy => ?_
    obtain ⟨l, b', hl, rfl⟩ := hxy
    exact .ok ⟨rfl, l, b', hl, rfl⟩

theorem drawMailboxes_like (h : Like E s s') : LikePair E (drawMailboxes c s) (drawMailboxes c s') := by
  obtain ⟨k, b, hk, rfl⟩ := h
  unfold drawMailboxes
  dsimp only
  split <;> exact ⟨rfl, k, b, hk, rfl⟩

theorem drawAccept_like (h : Like E s s') (f : CanFrame) : LikePair E (drawAccept c f s) (drawAccept c f s') := by
  obtain ⟨k, b, hk, rfl⟩ := h
  unfold drawAccept
  dsimp only
  split <;> exact ⟨rfl, k, b, hk, rfl⟩

theorem submitTail_alike (hE : CountKeeps E) (h : Like E s s') : Alike (Like E) (submitTail c s) (submitTail c s') := by
  have hview : slotView c s'.ctxTail s' = slotView c s.ctxTail s := by obtain ⟨k, b, _, rfl⟩ := h; rfl
  have htail : s'.ctxTail = s.ctxTail := by obtain ⟨k, b, _, rfl⟩ := h; rfl
  unfold submitTail
  rw [hview]
  refine .bind_same _ fun f => ?_
  obtain ⟨hacc, hd⟩ := drawAccept_like (c := c) h f
  have hadv : Like E { (drawAccept c f s).2 with ctxTail := advanceIndex nTx s.ctxTail }
      { (drawAccept c f s').2 with ctxTail := advanceIndex nTx s'.ctxTail } := by
    obtain ⟨k, b, hk, e⟩ := hd
    rw [e, htail]
    exact ⟨k, b, hk, rfl⟩
  dsimp only
  rw [← hacc]
  refine .ok ?_
  split
  · exact hadv
  · exact hadv.raise hE _

theorem ctxProc_alike (hE : CountKeeps E) (h : Like E s s') : Alike (LikePair E) (ctxProc c s) (ctxProc c s') := by
  have hempty : ringEmpty s'.ctxHead s'.ctxTail = ringEmpty s.ctxHead s.ctxTail := by obtain ⟨k, b, _, rfl⟩ := h; rfl
  have hd := drawMailboxes_like (c := c) h
  unfold ctxProc
  rw [hempty]
  split
  · exact .ok ⟨rfl, h⟩
  · revert hd
    generalize drawMailboxes c s = x
    generalize drawMailboxes c s' = y
    obtain ⟨m, s1⟩ := x
    obtain ⟨m', s1'⟩ := y
    rintro ⟨rfl, h1⟩
    cases m with
    | zero => exact .ok ⟨rfl, h1⟩
    | succ m => exact .bind (submitTail_alike hE h1) fun _ _ h2 => .ok ⟨rfl, h2⟩

theorem busEn_like (h : Like E s s') : Like E (busEn s) (busEn s') := by
  obtain ⟨k, b, hk, rfl⟩ := h
  unfold busEn
  dsimp only
  split <;> exact ⟨k, b, hk, rfl⟩

theorem busDis_like (h : Like E s s') : Like E (busDis s) (busDis s') := by
  obtain ⟨k, b, hk, rfl⟩ := h
  unfold busDis
  dsimp only
  split <;> exact ⟨k, b, hk, rfl⟩

theorem busRate_like (h : Like E s s') (r : Rate) : Like E (busRate c r s) (busRate c r s') := by
  obtain ⟨k, b, hk, rfl⟩ := h
  unfold busRate
  dsimp only
  split <;> exact ⟨k, b, hk, rfl⟩

theorem busSilent_like (h : Like E s s') (v : Bool) : Like E (busSilent v s) (busSilent v s') := by
  obtain ⟨k, b, hk, rfl⟩ := h
  unfold busSilent
  dsimp only
  split <;> exact ⟨k, b, hk, rfl⟩

theorem busArtx_like (h : Like E s s') (v : Bool) : Like E (busArtx v s) (busArtx v s') := by
  obtain ⟨k, b, hk, rfl⟩ := h
  unfold busArtx
  dsimp only
  split <;> exact ⟨k, b, hk, rfl⟩

theorem crxPend_like (h : Like E s s') : LikePair E (crxPend c s) (crxPend c s') := by
  obtain ⟨k, b, hk, rfl⟩ := h
  unfold crxPend drawNonempty
  dsimp only
  split
  · exact ⟨rfl, k, b, hk, rfl⟩
  · split <;> exact ⟨rfl, k, b, hk, rfl⟩

theorem drawPop_like (h : Like E s s') : LikePair E (drawPop c s) (drawPop c s') := by
  obtain ⟨k, b, hk, rfl⟩ := h
  unfold drawPop
  dsimp only
  split <;> exact ⟨rfl, k, b, hk, rfl⟩

theorem crxRecv_like (h : Like E s s') : LikePair E (crxRecv c s) (crxRecv c s') := by
  have hd := drawPop_like (c := c) h
  unfold crxRecv
  revert hd
  generalize drawPop c s = x
  generalize drawPop c s' = y
  obtain ⟨f, s1⟩ := x
  obtain ⟨f', s1'⟩ := y
  rintro ⟨rfl, h1⟩
  cases f <;> exact ⟨rfl, h1⟩

theorem utxSend_like (hE : CountKeeps E) (h : Like E s s') (bytes : List Byte) :
    LikePair E (utxSend c bytes s) (utxSend c bytes s') := by
  have hr := h.raise (c := c) hE .usbTxBusy
  obtain ⟨k, b, hk, rfl⟩ := h
  unfold utxSend
  dsimp only
  split
  · exact ⟨rfl, hr⟩
  · split <;> exact ⟨rfl, k, b, hk, rfl⟩

theorem urxChunk_alike (hE : CountKeeps E) (h : Like E s s') (a : Nat) (bytes : List Byte) :
    Alike (LikePair E) (urxChunk c a bytes s) (urxChunk c a bytes s') := by
  obtain ⟨k, b, hk, rfl⟩ := h
  have hwrite : Alike (Like E) (writeChunk c a bytes s) (writeChunk c a bytes { s with evt := k, ctxFullFlag := b }) :=
    .bind_same _ fun _ => .bind_same _ fun _ => .ok ⟨k, b, hk, rfl⟩
  refine .bind hwrite fun x y hxy => ?_
  have hr := hxy.raise (c := c) hE .usbRxBufferFull
  obtain ⟨l, b', hl, rfl⟩ := hxy
  dsimp only
  split
  · obtain ⟨l, b', hl, e⟩ := hr
    rw [e]
    exact .ok ⟨rfl, l, b', hl, rfl⟩
  · have hcapture : Alike (Like E) (captureChunk c bytes.length x)
        (captureChunk c bytes.length { x with evt := l, ctxFullFlag := b' }) :=
      .bind_same _ fun _ => .ok ⟨l, b', hl, rfl⟩
    exact .bind hcapture fun _ _ h2 => .ok ⟨rfl, h2⟩

theorem runCmd_alike (hE : CountKeeps E) (h : Like E s s') (cmd : Cmd) : Alike (Like E) (runCmd c cmd s) (runCmd c cmd s') := by
  cases cmd with
  | enq f => exact .bind (ctxEnq_alike hE h f.val) fun _ _ h1 => .ok h1.2
  | en => exact .ok (busEn_like h)
  | dis => exact .ok (busDis_like h)
  | rate r => exact .ok (busRate_like h r)
  | silent b => exact .ok (busSilent_like h b)
  | artx a => exact .ok (busArtx_like h a)

theorem drainBegin_like (h : Like E s s') : LikePair E (drainBegin s) (drainBegin s') := by
  obtain ⟨k, b, hk, rfl⟩ := h
  unfold drainBegin
  dsimp only
  split <;> exact ⟨rfl, k, b, hk, rfl⟩

theorem drainLine_alike (hE : CountKeeps E) (h : Like E s s') (l : DrainLine) :
    Alike (LikePair E) (drainLine c l s) (drainLine c l s') := by
  cases l with
  | run cmd rest ok => exact .bind (runCmd_alike hE h cmd) fun _ _ h1 => .ok ⟨rfl, h1⟩
  | reply ok => exact .ok ⟨rfl, (utxSend_like hE h _).2⟩
  | overflow =>
    obtain ⟨k, b, hk, e⟩ := h.raise (c := c) hE .usbLineOverflow
    refine .ok ⟨rfl, k, b, hk, ?_⟩
    simp only [dropLine, e]
  | test => obtain ⟨k, b, hk, rfl⟩ := h; exact .bind_same (tailLen c s) fun _ => .ok ⟨rfl, k, b, hk, rfl⟩
  | read => obtain ⟨k, b, hk, rfl⟩ := h; exact .bind_same (tailByte c s) fun _ => .ok ⟨rfl, k, b, hk, rfl⟩
  | parse => obtain ⟨k, b, hk, rfl⟩ := h; exact .bind_same (lineBytes c s) fun _ => .ok ⟨rfl, k, b, hk, rfl⟩
  | append v =>
    obtain ⟨k, b, hk, rfl⟩ := h
    have happ : Alike (Like E) (appendByte c v s) (appendByte c v { s with evt := k, ctxFullFlag := b }) :=
      .bind_same _ fun _ => .ok ⟨k, b, hk, rfl⟩
    exact .bind happ fun _ _ h1 => .ok ⟨rfl, h1⟩
  | branch v => obtain ⟨k, b, hk, rfl⟩ := h; exact .ok ⟨rfl, k, b, hk, rfl⟩
  | clear => obtain ⟨k, b, hk, rfl⟩ := h; exact .ok ⟨rfl, k, b, hk, rfl⟩
  | next => obtain ⟨k, b, hk, rfl⟩ := h; exact .ok ⟨rfl, k, b, hk, rfl⟩
  | advance => obtain ⟨k, b, hk, rfl⟩ := h; exact .ok ⟨rfl, k, b, hk, rfl⟩
  | ret => exact .ok ⟨rfl, h⟩

theorem loopBegin_alike (hE : CountKeeps E) (h : Like E s s') : Alike (LikePair E) (loopBegin c s) (loopBegin c s') :=
  .bind (ctxProc_alike hE h) fun _ _ h1 => .ok ⟨rfl, h1.2⟩

theorem loopLine_alike (hE : CountKeeps E) (h : Like E s s') (l : LoopLine) :
    Alike (LikePair E) (loopLine c l s) (loopLine c l s') := by
  cases l with
  | pend =>
    obtain ⟨e, h1⟩ := crxPend_like (c := c) h
    exact .ok ⟨by rw [e], h1⟩
  | recv =>
    obtain ⟨e, h1⟩ := crxRecv_like (c := c) h
    exact .ok ⟨by rw [e], h1⟩
  | send bytes => exact .ok ⟨rfl, (utxSend_like hE h bytes).2⟩
  | drain d =>
    cases d with
    | none =>
      obtain ⟨e, h1⟩ := drainBegin_like h
      exact .ok ⟨by rw [e], h1⟩
    | some d => exact .bind (drainLine_alike hE h d) fun _ _ h1 => .ok ⟨by rw [h1.1], h1.2⟩
  | received r => cases r <;> exact .ok ⟨rfl, h⟩
  | pended p => exact .ok ⟨rfl, h⟩
  | ret => exact .ok ⟨rfl, h⟩
  | format f => exact .ok ⟨rfl, h.emit _⟩
  | toCanRx => obtain ⟨k, b, hk, rfl⟩ := h; exact .ok ⟨rfl, k, b, hk, rfl⟩
  | toUsbRx => obtain ⟨k, b, hk, rfl⟩ := h; exact .ok ⟨rfl, k, b, hk, rfl⟩
  | toTx => obtain ⟨k, b, hk, rfl⟩ := h; exact .ok ⟨rfl, k, b, hk, rfl⟩

end Operations

/-- Both outcomes are next states that differ in the counters and `CTX_FULLFLAG` alone, or they are the same stop. -/
inductive LikeOutcome (E : Counters → Counters → Prop) :
    Host.Outcome State Fault Refusal → Host.Outcome State Fault Refusal → Prop where
  | next {t t' : State} (h : Like E t t') : LikeOutcome E (.next t) (.next t')
  | fault (f : Fault) : LikeOutcome E (.fault f) (.fault f)
  | refused (r : Refusal) : LikeOutcome E (.refused r) (.refused r)

section Requests
variable {E : Counters → Counters → Prop} {s s' : State}

theorem finish_like {port : Port} {x y : Except Fault (Result × State)} (h : Alike (LikePair E) x y) :
    LikeOutcome E (finish port x) (finish port y) := by
  cases h with
  | error f => exact .fault f
  | @ok x y h =>
    obtain ⟨r, s1⟩ := x
    obtain ⟨r', s1'⟩ := y
    obtain ⟨rfl, h1⟩ := h
    exact .next (h1.emit _)

/-- The same for an operation that always answers. -/
theorem finish_ok_like {port : Port} {r r' : Result} (hr : r = r') (h : Like E s s') :
    LikeOutcome E (finish port (.ok (r, s))) (finish port (.ok (r', s'))) :=
  finish_like (.ok ⟨hr, h⟩)

theorem Like.withPos (h : Like E s s') (p : Pos) : Like E { s with pos := p } { s' with pos := p } := by
  obtain ⟨k, b, hk, rfl⟩ := h
  exact ⟨k, b, hk, rfl⟩

theorem proceed_like {α : Type} {p : α → Pos} {x y : Except Fault (Option α × State)} (h : Alike (LikePair E) x y) :
    LikeOutcome E (proceed p x) (proceed p y) := by
  cases h with
  | error f => exact .fault f
  | @ok x y h =>
    obtain ⟨l, s1⟩ := x
    obtain ⟨l', s1'⟩ := y
    obtain ⟨rfl, h1⟩ := h
    cases l with
    | none => exact .next ((h1.withPos .rest).emit _)
    | some l => exact .next (h1.withPos (p l))

theorem execUrxDrain_like (hE : CountKeeps E) (h : Like E s s') : LikeOutcome E (execUrxDrain s) (execUrxDrain s') := by
  have hpos : s'.pos = s.pos := by obtain ⟨k, b, _, rfl⟩ := h; rfl
  unfold execUrxDrain
  rw [hpos]
  split
  · exact proceed_like (.ok (drainBegin_like h))
  · exact proceed_like (drainLine_alike hE h _)
  · exact .refused _

theorem execLoopIter_like (hE : CountKeeps E) (h : Like E s s') : LikeOutcome E (execLoopIter s) (execLoopIter s') := by
  have hpos : s'.pos = s.pos := by obtain ⟨k, b, _, rfl⟩ := h; rfl
  unfold execLoopIter
  rw [hpos]
  split
  · exact proceed_like (loopBegin_alike hE h)
  · exact proceed_like (loopLine_alike hE h _)
  · exact .refused _

/-- No operation tells two such states apart. -/
theorem exec_like (hE : CountKeeps E) (h : Like E s s') (i : Instr) : LikeOutcome E (exec i s) (exec i s') := by
  have hq : s'.q = s.q := by obtain ⟨k, b, _, rfl⟩ := h; rfl
  cases i with
  | rbPush item =>
    show LikeOutcome E (execRbPush item s) (execRbPush item s')
    unfold execRbPush
    split
    · exact finish_like (rbPush_alike h item)
    · exact .refused _
  | rbPend => exact finish_ok_like (by rw [hq]) h
  | rbPeek =>
    show LikeOutcome E (execRbPeek s) (execRbPeek s')
    unfold execRbPeek
    rw [hq]
    split
    · exact .refused _
    · exact finish_like (rbPeek_alike h)
  | rbAdv =>
    show LikeOutcome E (execRbAdv s) (execRbAdv s')
    unfold execRbAdv
    rw [hq]
    split
    · exact .refused _
    · obtain ⟨k, b, hk, rfl⟩ := h
      exact finish_ok_like rfl ⟨k, b, hk, rfl⟩
  | rbPop => exact finish_like (rbPop_alike h)
  | ctxEnq f =>
    show LikeOutcome E (execCtxEnq f s) (execCtxEnq f s')
    unfold execCtxEnq
    split
    · exact finish_like (ctxEnq_alike hE h _)
    · exact .refused _
  | ctxProc => exact finish_like (ctxProc_alike hE h)
  | busEn => exact finish_ok_like rfl (busEn_like h)
  | busDis => exact finish_ok_like rfl (busDis_like h)
  | busRate r =>
    show LikeOutcome E (execBusRate r s) (execBusRate r s')
    unfold execBusRate
    split
    · next rate _ => exact finish_ok_like rfl (busRate_like h rate)
    · exact .refused _
  | busSilent v => exact finish_ok_like rfl (busSilent_like h v)
  | busArtx v => exact finish_ok_like rfl (busArtx_like h v)
  | crxPend =>
    obtain ⟨e, h1⟩ := crxPend_like (c := Config.impl) h
    exact finish_ok_like (by rw [e]) h1
  | crxRecv => exact finish_like (.ok (crxRecv_like h))
  | crxOvf => exact finish_ok_like rfl (h.raise hE _)
  | urxChunk bytes =>
    have harmed : s'.urxArmed = s.urxArmed := by obtain ⟨k, b, _, rfl⟩ := h; rfl
    show LikeOutcome E (execUrxChunk bytes s) (execUrxChunk bytes s')
    unfold execUrxChunk
    rw [harmed]
    split
    · exact .refused _
    · split
      · exact .refused _
      · exact finish_like (urxChunk_alike hE h _ bytes)
  | urxDrain => exact execUrxDrain_like hE h
  | utxSend bytes => exact finish_like (.ok (utxSend_like hE h bytes))
  | utxDone =>
    have hbusy : s'.utxBusy = s.utxBusy := by obtain ⟨k, b, _, rfl⟩ := h; rfl
    show LikeOutcome E (execUtxDone s) (execUtxDone s')
    unfold execUtxDone
    rw [hbusy]
    split
    · obtain ⟨k, b, hk, rfl⟩ := h
      exact finish_ok_like rfl ⟨k, b, hk, rfl⟩
    · exact .refused _
  | loopIter => exact execLoopIter_like hE h

end Requests

/-- Settles O58: whatever the counters hold, the same is done; the flag, which no frame names, stays. -/
theorem countersNeverInfluenceBehaviour : Obligations.CountersNeverInfluenceBehaviour := by
  intro i s k
  have hlike : Like (fun _ _ => True) s { s with evt := k } := ⟨k, s.ctxFullFlag, trivial, rfl⟩
  have hexec := exec_like (fun _ _ _ _ _ => trivial) hlike i
  refine ⟨fun t ht => ?_, fun r hr => ?_, fun f hf => ?_⟩
  · rw [ht] at hexec
    generalize ho : exec i { s with evt := k } = o at hexec
    cases hexec with
    | next h =>
      obtain ⟨l, b, _, rfl⟩ := h
      have hflag : b = s.ctxFullFlag := (exec_effect ho).frame.environment.2.2
      have hflag' : t.ctxFullFlag = s.ctxFullFlag := (exec_effect ht).frame.environment.2.2
      exact ⟨l, by rw [hflag, ← hflag']⟩
  · rw [hr] at hexec
    generalize exec i { s with evt := k } = o at hexec
    cases hexec; rfl
  · rw [hf] at hexec
    generalize exec i { s with evt := k } = o at hexec
    cases hexec; rfl

/-- Settles O59: the same with the counters equal. -/
theorem fullFlagIsNeverReadOrWritten : Obligations.FullFlagIsNeverReadOrWritten := by
  intro i s b
  have hlike : Like Eq s { s with ctxFullFlag := b } := ⟨s.evt, b, rfl, rfl⟩
  have hexec := exec_like (E := Eq) (by rintro k _ e n rfl; rfl) hlike i
  refine ⟨fun t ht => ?_, fun r hr => ?_, fun f hf => ?_⟩
  · rw [ht] at hexec
    generalize ho : exec i { s with ctxFullFlag := b } = o at hexec
    cases hexec with
    | next h =>
      obtain ⟨_, b', rfl, rfl⟩ := h
      obtain rfl : b' = b := (exec_effect ho).frame.environment.2.2
      exact ⟨(exec_effect ht).frame.environment.2.2, rfl⟩
  · rw [hr] at hexec
    generalize exec i { s with ctxFullFlag := b } = o at hexec
    cases hexec; rfl
  · rw [hf] at hexec
    generalize exec i { s with ctxFullFlag := b } = o at hexec
    cases hexec; rfl

end Sys2Proof.Machine
end

section
/-! PROOFS. The unspecified reset contents are never observed (spec/20_memory.md R79): every unit that an operation reads was
written since reset, where the invariant holds. -/

namespace Sys2Proof.Machine

/-- `c` with other reset contents of the memories. -/
def Config.withFree (c : Config) (fb : Space → Nat → Nat → Byte) (fh : Nat → Nat → FrameHeader) (fl : Nat → Nat → Nat)
    (fi : Nat → Nat → List Byte) : Config :=
  { c with freeByte := fb, freeHeader := fh, freeLen := fl, freeItem := fi }

section Contents
variable {c : Config} (fb : Space → Nat → Nat → Byte) (fh : Nat → Nat → FrameHeader) (fl : Nat → Nat → Nat)
  (fi : Nat → Nat → List Byte) {s : State}

/-- A live slot's view reads its header and as many payload bytes as were stored. -/
theorem slotFrame_withFree (h : CtxOk s.ctxHead s.ctxTail s.ctxHdr s.ctxData)
    (hlive : ringEmpty s.ctxHead s.ctxTail = false) :
    slotFrame (Config.withFree c fb fh fl fi) s.ctxTail s = slotFrame c s.ctxTail s := by
  obtain ⟨hdr, hread, _, hdata⟩ := h.live _ h.tail_lt (ringLive_tail h.head_lt h.tail_lt hlive)
  simp only [slotFrame, Memory.readOr, hread, Option.getD_some]
  congr 1
  exact Memory.readAll_congr _ _ _ _ _ _ fun j hj => Memory.readOr_of_isSome _ _ _ (hdata j (by omega))

theorem ctxProc_withFree (h : s.Inv c) : ctxProc (Config.withFree c fb fh fl fi) s = ctxProc c s := by
  cases hempty : ringEmpty s.ctxHead s.ctxTail with
  | true => rw [ctxProc_empty hempty, ctxProc_empty hempty]
  | false =>
    have hdraw : drawMailboxes (Config.withFree c fb fh fl fi) s = drawMailboxes c s := rfl
    have hview := slotFrame_withFree (c := c) fb fh fl fi h.ctx hempty
    by_cases hm : (drawMailboxes c s).1 = 0
    · rw [ctxProc_noMailbox hempty hm, ctxProc_noMailbox hempty (by rw [hdraw]; exact hm), hdraw]
    · rw [ctxProc_submits hempty hm h.ctx.tail_lt, ctxProc_submits hempty (by rw [hdraw]; exact hm) h.ctx.tail_lt, hdraw,
        hview]
      rfl

theorem rbTailItem_withFree (h : QOk c s.q) (hlive : ringEmpty s.q.head s.q.tail = false) :
    rbTailItem (Config.withFree c fb fh fl fi) s = rbTailItem c s := by
  obtain ⟨v, hread, _⟩ := h.live _ h.tail_lt (ringLive_tail h.head_lt h.tail_lt hlive)
  rw [rbTailItem_ok (c := c) h.tail_lt, rbTailItem_ok (c := Config.withFree c fb fh fl fi) h.tail_lt]
  rw [Memory.readOr_of_isSome _ _ _ (by rw [hread]; rfl)]

theorem rbPop_withFree (h : s.Inv c) : rbPop (Config.withFree c fb fh fl fi) s = rbPop c s := by
  cases hempty : ringEmpty s.q.head s.q.tail with
  | true => rw [rbPop_empty hempty, rbPop_empty hempty]
  | false =>
    simp only [rbPop, hempty, Bool.false_eq_true, if_false, rbTailItem_withFree fb fh fl fi h.q hempty]
    rfl

theorem lineBytes_withFree (h : LineOk c s.lineIdx s.lineMem) :
    lineBytes (Config.withFree c fb fh fl fi) s = lineBytes c s := by
  rw [lineBytes_ok (c := c) h.idx_le, lineBytes_ok (c := Config.withFree c fb fh fl fi) h.idx_le]
  congr 1
  refine Memory.readAll_congr _ _ _ _ _ _ fun k hk => Memory.readOr_of_isSome _ _ _ ?_
  obtain ⟨b, hread, _⟩ := h.written k hk
  rw [Nat.zero_add, hread]; rfl

theorem tailLen_withFree (h : s.Inv c) (hscan : s.urxScan = true) :
    tailLen (Config.withFree c fb fh fl fi) s = tailLen c s := by
  obtain ⟨l, hread, _⟩ := tailLen_live h hscan
  rw [tailLen_ok (c := c) h.urx.tail_lt, tailLen_ok (c := Config.withFree c fb fh fl fi) h.urx.tail_lt]
  congr 1
  exact Memory.readOr_of_isSome _ _ _ (by rw [hread]; rfl)

theorem tailByte_withFree (h : s.Inv c) (hscan : s.urxScan = true) (hbyte : s.pos.inByte = true) :
    tailByte (Config.withFree c fb fh fl fi) s = tailByte c s := by
  obtain ⟨l, hread, hle, _, _⟩ := tailLen_live h hscan
  have hlt := h.scan.pos_lt hbyte l hread
  have happ : s.urxPos < c.app := Nat.lt_of_lt_of_le hlt hle
  have hlive := ringLive_tail h.urx.head_lt h.urx.tail_lt (by simpa [ringEmpty] using fun e => h.scan.nonempty hscan e.symm)
  obtain ⟨l', hread', _, hbytes⟩ := h.urx.live _ h.urx.tail_lt hlive
  obtain rfl := Option.some.inj (hread.symm.trans hread')
  rw [tailByte_ok (c := c) h.urx.tail_lt happ, tailByte_ok (c := Config.withFree c fb fh fl fi) h.urx.tail_lt happ]
  congr 1
  exact Memory.readOr_of_isSome _ _ _ (hbytes _ hlt)

/-- A line of a drain in progress: the length, the byte and the line it reads were written. -/
theorem drainLine_withFree (h : s.Inv c) {l : DrainLine} (hl : s.pos.drainLine = some l) :
    drainLine (Config.withFree c fb fh fl fi) l s = drainLine c l s := by
  cases l with
  | test =>
    simp only [drainLine, tailLen_withFree fb fh fl fi h (h.scan.open hl rfl)]
  | read =>
    simp only [drainLine, tailByte_withFree fb fh fl fi h (h.scan.open hl rfl) (by simp [Pos.inByte, hl, DrainLine.inByte])]
  | parse =>
    simp only [drainLine, lineBytes_withFree fb fh fl fi h.line]
    rfl
  | branch | run | reply | clear | overflow | append | next | advance | ret => rfl

theorem loopLine_withFree (h : s.Inv c) {l : LoopLine} (hl : s.pos = .loop l) :
    loopLine (Config.withFree c fb fh fl fi) l s = loopLine c l s := by
  cases l with
  | drain d =>
    cases d with
    | none => rfl
    | some d => simp only [loopLine, drainLine_withFree fb fh fl fi h (show s.pos.drainLine = some d by rw [hl]; rfl)]
  | received r => cases r <;> rfl
  | toCanRx | pend | pended | recv | format | send | toUsbRx | toTx | ret => rfl

end Contents

/-- Settles O60: the reads by the units written, and the other operations read no content. -/
theorem resetContentsAreNeverObserved : Obligations.ResetContentsAreNeverObserved := by
  intro c fb fh fl fi s h
  have hproc := ctxProc_withFree fb fh fl fi h
  refine ⟨hproc, ?_, fun l hl => drainLine_withFree fb fh fl fi h hl, fun l hl => loopLine_withFree fb fh fl fi h hl,
    rbPop_withFree fb fh fl fi h, fun hlive => ?_, fun _ => rfl, rfl, fun _ => rfl, fun _ => rfl, rfl, rfl, rfl,
    fun _ _ => rfl, fun cmd => by cases cmd <;> rfl, fun _ => rfl⟩
  · exact congrArg (· >>= fun x => .ok (some LoopLine.toCanRx, x.2)) hproc
  · exact congrArg (· >>= fun v => .ok (Result.okItem v, s)) (rbTailItem_withFree fb fh fl fi h.q hlive)

end Sys2Proof.Machine
end

section
/-! PROOFS. The USB receive ring (spec/44_usbrx.md sections 1 and 2): a chunk is captured or lost, the captured chunks are a
queue, and a drain takes them out one by one. -/

namespace Sys2Proof.Machine

/-! ### URX.CHUNK -/

theorem exec_urxChunk {bytes : List Byte} {s : State} {a : Nat} (hshort : bytes.length ≤ Config.impl.app)
    (harmed : s.urxArmed = some a) : exec (.urxChunk bytes) s = finish .irqp (urxChunk Config.impl a bytes s) := by
  simp only [exec, execUrxChunk, Nat.not_lt.mpr hshort, if_false, harmed]

theorem exec_urxChunk_lost {bytes : List Byte} {s : State} {a : Nat} (hshort : bytes.length ≤ Config.impl.app)
    (harmed : s.urxArmed = some a) (ha : a < Config.impl.nRx)
    (hfull : ringFull Config.impl.nRx s.urxHead s.urxTail = true) :
    exec (.urxChunk bytes) s = .next ((chunkLost Config.impl a bytes s).emit (.result .irqp .ok)) := by
  rw [exec_urxChunk hshort harmed, urxChunk_lost ha hshort hfull]; rfl

theorem exec_urxChunk_captured {bytes : List Byte} {s : State} {a : Nat} (hshort : bytes.length ≤ Config.impl.app)
    (harmed : s.urxArmed = some a) (ha : a < Config.impl.nRx)
    (hroom : ringFull Config.impl.nRx s.urxHead s.urxTail = false) (hhead : s.urxHead < Config.impl.nRx) :
    exec (.urxChunk bytes) s = .next ((chunkCaptured Config.impl a bytes s).emit (.result .irqp .ok)) := by
  rw [exec_urxChunk hshort harmed, urxChunk_captured ha hshort hroom hhead]; rfl

/-- Settles O37: too long, not armed, lost, or captured. -/
theorem chunkIsCapturedOrLostWhole : Obligations.ChunkIsCapturedOrLostWhole := by
  refine fun bytes s => ⟨fun hlong => if_pos hlong, fun hshort hnone => ?_, fun a hshort harmed ha hfull => ?_,
    fun a hshort harmed ha hroom hhead => ?_⟩
  · simp only [exec, execUrxChunk, Nat.not_lt.mpr hshort, if_false, hnone]
  · exact exec_urxChunk_lost hshort harmed ha hfull
  · exact exec_urxChunk_captured hshort harmed ha hroom hhead

/-! ### The lines of a drain, one by one -/

/-- A line of a drain of its own that goes on at another one. -/
theorem exec_urxDrain_line {s t : State} {l l' : DrainLine} (hp : s.pos = .drain l)
    (h : drainLine Config.impl l s = .ok (some l', t)) : exec .urxDrain s = .next { t with pos := .drain l' } := by
  simp only [exec, execUrxDrain, hp, h]; rfl

/-- The last line of a drain of its own. -/
theorem exec_urxDrain_return {s : State} (hp : s.pos = .drain .ret) :
    exec .urxDrain s = .next (({ s with pos := .rest } : State).emit (.result .fgp .ok)) := by
  simp only [exec, execUrxDrain, hp]; rfl

section Lines
variable {s : State}

theorem exec_drain_test (hp : s.pos = .drain .test) (ht : s.urxTail < Config.impl.nRx) :
    exec .urxDrain s = .next { s with
      pos := .drain (if s.urxPos < tailLenOf Config.impl s then .read else .advance) } :=
  exec_urxDrain_line hp (by simp only [drainLine, tailLen_ok ht, bind_ok, pure_ok])

theorem exec_drain_read (hp : s.pos = .drain .read) (ht : s.urxTail < Config.impl.nRx) (hu : s.urxPos < Config.impl.app) :
    exec .urxDrain s = .next { s with pos := .drain (.branch (tailByteOf Config.impl s)) } :=
  exec_urxDrain_line hp (by simp only [drainLine, tailByte_ok ht hu, bind_ok, pure_ok])

theorem exec_drain_branch {b : Byte} (hp : s.pos = .drain (.branch b)) :
    exec .urxDrain s = .next { s with
      pos := .drain (if b == term then .parse else if s.lineIdx == Config.impl.mtu then .overflow else .append b) } :=
  exec_urxDrain_line hp rfl

theorem exec_drain_parse (hp : s.pos = .drain .parse) (hi : s.lineIdx ≤ Config.impl.mtu) :
    exec .urxDrain s = .next { s.emit (.parse (lineOf Config.impl s)) with
      pos := .drain (afterParse (Config.impl.parse (lineOf Config.impl s)).1 (Config.impl.parse (lineOf Config.impl s)).2) } :=
  exec_urxDrain_line hp (by simp only [drainLine, lineBytes_ok hi, bind_ok, pure_ok])

theorem exec_drain_run {cmd : Cmd} {rest : List Cmd} {ok : Bool} {t : State} (hp : s.pos = .drain (.run cmd rest ok))
    (hr : runCmd Config.impl cmd s = .ok t) : exec .urxDrain s = .next { t with pos := .drain (afterParse rest ok) } :=
  exec_urxDrain_line hp (by simp only [drainLine, hr, bind_ok, pure_ok])

theorem exec_drain_reply {ok : Bool} (hp : s.pos = .drain (.reply ok)) :
    exec .urxDrain s = .next { (utxSend Config.impl [if ok then ack else nak] s).2 with pos := .drain .clear } :=
  exec_urxDrain_line hp rfl

theorem exec_drain_clear (hp : s.pos = .drain .clear) :
    exec .urxDrain s = .next { s with lineIdx := 0, pos := .drain .next } :=
  exec_urxDrain_line hp rfl

theorem exec_drain_overflow (hp : s.pos = .drain .overflow) :
    exec .urxDrain s = .next { dropLine Config.impl s with pos := .drain .next } :=
  exec_urxDrain_line hp rfl

theorem exec_drain_append {b : Byte} (hp : s.pos = .drain (.append b)) (hi : s.lineIdx < Config.impl.mtu) :
    exec .urxDrain s = .next { byteAppended b s with pos := .drain .next } :=
  exec_urxDrain_line hp (by simp only [drainLine, appendByte_ok hi, bind_ok, pure_ok])

theorem exec_drain_next (hp : s.pos = .drain .next) :
    exec .urxDrain s = .next { s with urxPos := s.urxPos + 1, pos := .drain .test } :=
  exec_urxDrain_line hp rfl

theorem exec_drain_advance (hp : s.pos = .drain .advance) :
    exec .urxDrain s = .next { s with
      urxTail := ringNext Config.impl.nRx s.urxTail, urxScan := false, pos := .drain .ret } := by
  rw [exec_urxDrain_line hp rfl, advanceTail_eq]

theorem exec_drain_empty (hp : s.pos = .rest) (he : ringEmpty s.urxHead s.urxTail = true) :
    exec .urxDrain s = .next (s.emit (.result .fgp .ok)) := by
  have hb : drainBegin s = (none, s) := if_pos he
  simp only [exec, execUrxDrain, hp, hb, proceed]
  rw [← hp]

theorem exec_drain_begin (hp : s.pos = .rest) (he : ringEmpty s.urxHead s.urxTail = false) :
    exec .urxDrain s = .next { s with urxScan := true, urxPos := 0, pos := .drain .test } := by
  have hb : drainBegin s = (some .test, { s with urxScan := true, urxPos := 0 }) := if_neg (by simp [he])
  simp only [exec, execUrxDrain, hp, hb, proceed]

end Lines

/-- Settles O40: nothing captured, or the scan opened. -/
theorem drainOpensTheTailSlot : Obligations.DrainOpensTheTailSlot :=
  fun _ hp => ⟨exec_drain_empty hp, exec_drain_begin hp⟩

/-! ### The tail advance -/

/-- Only the tail advance moves the tail. -/
theorem drainLine_urxTail {c : Config} {l : DrainLine} {s t : State} {d : Option DrainLine} (hl : l ≠ .advance)
    (h : drainLine c l s = .ok (d, t)) : t.urxTail = s.urxTail := by
  have hc := drainLine_cases h
  cases l with
  | advance => exact absurd rfl hl
  | test => obtain ⟨_, _, rfl⟩ := hc; rfl
  | read => obtain ⟨_, _, _, rfl⟩ := hc; rfl
  | branch b => obtain ⟨_, rfl⟩ := hc; rfl
  | parse => obtain ⟨_, _, rfl⟩ := hc; rfl
  | run cmd rest ok => rw [runCmd_frame hc.1]
  | reply ok => obtain ⟨_, rfl⟩ := hc; rw [utxSend_frame]
  | clear => obtain ⟨_, rfl⟩ := hc; rfl
  | overflow => obtain ⟨_, rfl⟩ := hc; rfl
  | append b => obtain ⟨_, _, rfl⟩ := hc; rfl
  | next => obtain ⟨_, rfl⟩ := hc; rfl
  | ret => obtain ⟨_, rfl⟩ := hc; rfl

theorem execUrxDrain_urxTail {s t : State} (h : execUrxDrain s = .next t) (hp : s.pos ≠ .drain .advance) :
    t.urxTail = s.urxTail := by
  obtain ⟨d, s', hs, ht⟩ := execUrxDrain_next h
  have htail : s'.urxTail = s.urxTail := by
    obtain ⟨_, hb⟩ | ⟨l, hl, hd⟩ := hs
    · rw [show s' = (drainBegin s).2 by rw [hb], drainBegin_frame]
    · exact drainLine_urxTail (by rintro rfl; exact hp hl) hd
  obtain ⟨_, rfl⟩ | ⟨l, _, rfl⟩ := ht <;> exact htail

/-- The slot that an advance releases is not live. -/
theorem ringLive_released {n head tail : Nat} (hh : head < n) (ht : tail < n) :
    ringLive n head (ringNext n tail) tail = false := by
  have hn : ringNext n tail < n := ringNext_lt (Nat.zero_lt_of_lt ht)
  have hcount : ringCount n tail (ringNext n tail) = n - 1 := by
    rw [ringCount_eq_pred_iff ht hn]
  have hle := ringCount_le hh hn
  rw [← Bool.not_eq_true, ringLive_iff]
  omega

/-- After an advance a ring of at least two slots that was full has room. -/
theorem ringFull_advance {n head tail : Nat} (hn : 2 ≤ n) (ht : tail < n) (hfull : ringNext n head = tail) :
    ringFull n head (ringNext n tail) = false := by
  simp only [ringFull, hfull, beq_eq_false_iff_ne, ringNext_eq ht]
  split <;> omega

theorem Config.two_le_nRx (c : Config) : 2 ≤ c.nRx := Nat.le_add_left 2 _

/-- Settles O43: the lines of the drain at its end, and the freed slot. -/
theorem drainEndsWithTheTailAdvance : Obligations.DrainEndsWithTheTailAdvance := by
  refine fun s => ⟨fun t h hp => execUrxDrain_urxTail h hp, fun hp ht hlen => ?_, fun hp => ⟨exec_drain_advance hp,
    exec_urxDrain_return rfl, fun hh ht _ => ringLive_released hh ht, fun bytes a hh hfull harmed ha hshort => ?_⟩⟩
  · rw [exec_drain_test hp ht, if_neg (Nat.not_lt.mpr hlen)]
  · have ht : s.urxTail < Config.impl.nRx := hfull ▸ ringNext_lt (Nat.zero_lt_of_lt hh)
    have hroom := ringFull_advance (head := s.urxHead) (Config.two_le_nRx _) ht hfull
    exact ⟨_, exec_urxChunk_captured hshort harmed ha hroom hh, by rw [← hfull]; rfl⟩

/-! ### The captured chunks -/

/-- The bytes of a slot depend on its length and its own part of `URXMEM`. -/
theorem slotBytes_congr {c : Config} {i : Nat} {s t : State} {l : Nat} (hr : t.resets = s.resets)
    (hl : s.urxLen.read i = some l) (hlen : t.urxLen.read i = s.urxLen.read i)
    (hmem : ∀ j < l, t.urxMem.read (urxAddr c i j) = s.urxMem.read (urxAddr c i j)) :
    slotBytes c i t = slotBytes c i s := by
  have hsize : t.urxLen.readOr (c.freeLen t.resets) i = s.urxLen.readOr (c.freeLen s.resets) i := by
    rw [Memory.readOr, Memory.readOr, hlen, hr]
  simp only [slotBytes, hsize]
  refine Memory.readAll_congr _ _ _ _ _ _ fun j hj => ?_
  have hj' : j < l := by simpa [Memory.readOr, hl] using hj
  rw [Memory.readOr, Memory.readOr, hr, show urxAddr c i 0 + j = urxAddr c i j by simp [urxAddr], hmem j hj']

/-- A chunk written into another slot changes no byte of a slot (spec/20_memory.md R60). -/
theorem urxMem_read_other {c : Config} {i slot j : Nat} {bytes : List Byte} (hne : i ≠ slot) (hj : j < c.app)
    (hb : bytes.length ≤ c.app) (m : Memory Byte) :
    (m.writeAll (urxAddr c slot 0) bytes).read (urxAddr c i j) = m.read (urxAddr c i j) := by
  refine Memory.read_writeAll_outside _ _ _ _ ?_
  by_contra hin
  have hsame : urxAddr c i j = urxAddr c slot (urxAddr c i j - urxAddr c slot 0) := by
    simp only [urxAddr] at hin ⊢; omega
  exact hne (urxAddr_injective hj (by omega) hsame).1

/-- A chunk in the armed slot leaves the captured ones as they were. -/
theorem slotBytes_chunk {c : Config} {s t : State} {slot i : Nat} {bytes : List Byte}
    (h : UrxOk c s.urxHead s.urxTail s.urxMem s.urxLen s.urxArmed) (hslot : slot = s.urxHead)
    (hb : bytes.length ≤ c.app) (hi : i ∈ ringSlots c.nRx s.urxHead s.urxTail) (hr : t.resets = s.resets)
    (hmem : t.urxMem = s.urxMem.writeAll (urxAddr c slot 0) bytes)
    (hlen : i ≠ s.urxHead → t.urxLen.read i = s.urxLen.read i) : slotBytes c i t = slotBytes c i s := by
  have hlt : i < c.nRx := by
    obtain ⟨k, _, rfl⟩ := List.mem_map.mp hi
    exact Nat.mod_lt _ (Nat.zero_lt_of_lt h.head_lt)
  have hlive := (mem_ringSlots h.head_lt h.tail_lt hlt).mp hi
  have hne : i ≠ s.urxHead := by
    rintro rfl
    rw [ringLive_head] at hlive
    cases hlive
  obtain ⟨l, hl, hle, _⟩ := h.live i hlt hlive
  exact slotBytes_congr hr hl (hlen hne) fun j hj => by
    rw [hmem, urxMem_read_other (by rw [hslot]; exact hne) (by omega) hb]

theorem urxChunks_lost {c : Config} {s : State} {bytes : List Byte}
    (h : UrxOk c s.urxHead s.urxTail s.urxMem s.urxLen s.urxArmed) (hb : bytes.length ≤ c.app) :
    urxChunks c (chunkLost c s.urxHead bytes s) = urxChunks c s :=
  List.map_congr_left fun _ hi => slotBytes_chunk h rfl hb hi rfl rfl fun _ => rfl

theorem urxChunks_captured {c : Config} {s : State} {bytes : List Byte}
    (h : UrxOk c s.urxHead s.urxTail s.urxMem s.urxLen s.urxArmed) (hb : bytes.length ≤ c.app)
    (hroom : ringFull c.nRx s.urxHead s.urxTail = false) :
    urxChunks c (chunkCaptured c s.urxHead bytes s) = urxChunks c s ++ [bytes] := by
  have hslots : ringSlots c.nRx (chunkCaptured c s.urxHead bytes s).urxHead (chunkCaptured c s.urxHead bytes s).urxTail =
      ringSlots c.nRx s.urxHead s.urxTail ++ [s.urxHead] := ringSlots_push h.head_lt h.tail_lt hroom
  have hold : (ringSlots c.nRx s.urxHead s.urxTail).map (fun t => slotBytes c t (chunkCaptured c s.urxHead bytes s)) =
      (ringSlots c.nRx s.urxHead s.urxTail).map (fun t => slotBytes c t s) :=
    List.map_congr_left fun _ hi => slotBytes_chunk h rfl hb hi rfl rfl fun hne => Memory.read_write_other _ _ hne
  have hnew : slotBytes c s.urxHead (chunkCaptured c s.urxHead bytes s) = bytes := by
    simp [slotBytes, chunkCaptured, chunkWritten, Memory.readOr, Memory.readAll_writeAll]
  rw [urxChunks, hslots, List.map_append, hold, List.map_cons, List.map_nil, hnew]
  rfl

/-- The chunks depend on the ring alone. -/
theorem urxChunks_congr {c : Config} {s t : State} (ht : t = { t with
      urxHead := s.urxHead, urxTail := s.urxTail, urxMem := s.urxMem, urxLen := s.urxLen, resets := s.resets }) :
    urxChunks c t = urxChunks c s := by
  rw [ht]; rfl

/-- An advance of the tail takes the oldest chunk out. -/
theorem urxChunks_advance {c : Config} {s t : State} (hh : s.urxHead < c.nRx) (ht : s.urxTail < c.nRx)
    (hlive : ringEmpty s.urxHead s.urxTail = false) (heq : t = { t with
      urxHead := s.urxHead, urxTail := ringNext c.nRx s.urxTail, urxMem := s.urxMem, urxLen := s.urxLen
      resets := s.resets }) :
    urxChunks c s = slotBytes c s.urxTail s :: urxChunks c t := by
  rw [heq]
  simp only [urxChunks, ringSlots_advance hh ht hlive, List.map_cons]
  rfl

theorem urxChunks_eq_nil_iff {c : Config} {s : State} (h : UrxOk c s.urxHead s.urxTail s.urxMem s.urxLen s.urxArmed) :
    urxChunks c s = [] ↔ ringEmpty s.urxHead s.urxTail = true := by
  rw [ringEmpty_iff h.head_lt h.tail_lt, ← List.length_eq_zero_iff, urxChunks_length]

theorem State.Inv.urx_live {c : Config} {s : State} (h : s.Inv c) (hscan : s.urxScan = true) :
    ringEmpty s.urxHead s.urxTail = false := by
  simpa [ringEmpty] using fun e => h.scan.nonempty hscan e.symm

/-- Settles O38: by the effects of the two operations on the list of chunks. -/
theorem receiveRingIsFirstInFirstOut : Obligations.ReceiveRingIsFirstInFirstOut := by
  intro s t hinv
  refine ⟨fun bytes h => ?_, fun h => ⟨fun hp => ?_, fun hp => ?_, fun hp => ?_⟩⟩
  · cases exec_effect h with
    | chunkLost _ a _ short armed =>
      obtain rfl := hinv.urx.armed_head a armed
      exact .inr ⟨rfl, urxChunks_lost hinv.urx short⟩
    | chunkCaptured _ a _ short armed _ room =>
      obtain rfl := hinv.urx.armed_head a armed
      exact .inl ⟨rfl, urxChunks_captured hinv.urx short room⟩
  · have htail := execUrxDrain_urxTail h hp
    have hf := execUrxDrain_frame h
    simp only [Frame] at hf
    exact urxChunks_congr (by rw [hf, htail])
  · have hscan := hinv.scan.open (l := .advance) (by rw [hp]; rfl) rfl
    rw [exec_drain_advance hp] at h
    cases h
    exact urxChunks_advance hinv.urx.head_lt hinv.urx.tail_lt (hinv.urx_live hscan) rfl
  · rw [urxChunks_eq_nil_iff hinv.urx]
    cases he : ringEmpty s.urxHead s.urxTail with
    | true =>
      rw [exec_drain_empty hp he] at h
      cases h
      exact ⟨fun _ => rfl, fun _ => hp⟩
    | false =>
      rw [exec_drain_begin hp he] at h
      cases h
      exact ⟨nofun, nofun⟩

/-! ### How many chunks fit -/

section Capacity
variable {c : Config}

/-- While the ring has room for them, all chunks are captured; after them it is full. -/
theorem chunkAll_fills (bs : List (List Byte)) (s : State) (hh : s.urxHead < c.nRx) (ht : s.urxTail < c.nRx)
    (harmed : s.urxArmed = some s.urxHead) (hc : ringCount c.nRx s.urxHead s.urxTail + bs.length = c.nRx - 1)
    (hb : ∀ x ∈ bs, x.length ≤ c.app) :
    ∃ t, chunkAll c bs s = .ok (List.replicate bs.length .ok, t) ∧ t.evt = s.evt ∧ t.urxTail = s.urxTail ∧
      t.urxHead < c.nRx ∧ t.urxArmed = some t.urxHead ∧ ringFull c.nRx t.urxHead t.urxTail = true := by
  induction bs generalizing s with
  | nil => exact ⟨s, rfl, rfl, rfl, hh, harmed, (ringFull_iff hh ht).mpr hc⟩
  | cons b bs ih =>
    obtain ⟨hb, hbs⟩ := List.forall_mem_cons.mp hb
    have hroom := ringFull_eq_false_of_count hh ht hc
    have hcount : ringCount c.nRx (ringNext c.nRx s.urxHead) s.urxTail + bs.length = c.nRx - 1 := by
      rw [ringCount_push hh ht hroom]
      rw [List.length_cons] at hc
      omega
    obtain ⟨t, hrun, hevt, htail, hhead, harmed', hfull⟩ :=
      ih (chunkCaptured c s.urxHead b s) (ringNext_lt (Nat.zero_lt_of_lt hh)) ht rfl hcount hbs
    refine ⟨t, ?_, hevt, htail, hhead, harmed', hfull⟩
    simp only [chunkAll, harmed, Option.getD_some, urxChunk_captured hh hb hroom hh, bind_ok, hrun, pure_ok]
    rfl

/-- Counting depends on the counters alone. -/
theorem iterate_raise_evt (e : Event) (n : Nat) {s t : State} (h : s.evt = t.evt) :
    ((State.raise c e)^[n] s).evt = ((State.raise c e)^[n] t).evt := by
  induction n generalizing s t with
  | zero => exact h
  | succ n ih => exact ih (by rw [State.raise_evt, State.raise_evt, h])

/-- On a full ring each chunk is lost and counted. -/
theorem chunkAll_loses (bs : List (List Byte)) (s : State) (hh : s.urxHead < c.nRx)
    (harmed : s.urxArmed = some s.urxHead) (hfull : ringFull c.nRx s.urxHead s.urxTail = true)
    (hb : ∀ x ∈ bs, x.length ≤ c.app) :
    ∃ t, chunkAll c bs s = .ok (List.replicate bs.length .ok, t) ∧
      t.evt = ((State.raise c .usbRxBufferFull)^[bs.length] s).evt ∧ t.urxHead = s.urxHead ∧ t.urxTail = s.urxTail ∧
      t.urxLen = s.urxLen ∧ t.urxArmed = s.urxArmed := by
  induction bs generalizing s with
  | nil => exact ⟨s, rfl, rfl, rfl, rfl, rfl, rfl⟩
  | cons b bs ih =>
    obtain ⟨hb, hbs⟩ := List.forall_mem_cons.mp hb
    obtain ⟨t, hrun, hevt, hhead, htail, hlen, harmed'⟩ := ih (chunkLost c s.urxHead b s) hh rfl hfull hbs
    refine ⟨t, ?_, ?_, hhead, htail, hlen, harmed'.trans harmed.symm⟩
    · simp only [chunkAll, harmed, Option.getD_some, urxChunk_lost hh hb hfull, bind_ok, hrun, pure_ok]
      rfl
    · rw [hevt, List.length_cons, Function.iterate_succ_apply]
      exact iterate_raise_evt _ _ rfl

end Capacity

/-- Settles O39: the chunks fill the empty ring, and on the full ring every further one is lost. -/
theorem receiveRingHoldsOneChunkLessThanSlots : Obligations.ReceiveRingHoldsOneChunkLessThanSlots := by
  intro c s bs more hh ht harmed hlen hb
  obtain ⟨hbs, hmore⟩ := List.forall_mem_append.mp hb
  have hempty : ringCount c.nRx s.urxHead s.urxTail + bs.length = c.nRx - 1 := by
    rw [ht, ringCount_self hh, hlen, Nat.zero_add]
  obtain ⟨t, hrun, hevt, htail, hhead, harmed', hfull⟩ := chunkAll_fills bs s hh (ht ▸ hh) harmed hempty hbs
  obtain ⟨u, hrun', hevt', hhead', htail', hlen', harmed''⟩ := chunkAll_loses more t hhead harmed' hfull hmore
  exact ⟨t, u, hrun, hevt, htail, harmed', hrun', hevt', hhead', htail', hlen', harmed''⟩

end Sys2Proof.Machine
end

section
/-! PROOFS. The receiver (the receive ring and the scan of it) plays no part in what the parser's operations, the gate and the
line do (spec/20_memory.md section 6): they do the same whatever it holds, and they leave it as it is. -/

namespace Sys2Proof.Machine

/-! ### Another receiver -/

/-- The receiver and what stands beside it: the position, the receive ring, the scan, the counter of lost chunks, the log. -/
structure Rx where
  pos : Pos
  head : Nat
  tail : Nat
  scan : Bool
  upos : Nat
  mem : Memory Byte
  len : Memory Nat
  armed : Option Nat
  lost : Nat
  log : List Obs

/-- The receiver of a state. -/
def State.rx (s : State) : Rx :=
  ⟨s.pos, s.urxHead, s.urxTail, s.urxScan, s.urxPos, s.urxMem, s.urxLen, s.urxArmed, s.evt.usbRxBufferFull, s.log⟩

/-- `s` with the receiver `r`. -/
def State.withRx (s : State) (r : Rx) : State :=
  { s with
    pos := r.pos, urxHead := r.head, urxTail := r.tail, urxScan := r.scan, urxPos := r.upos, urxMem := r.mem
    urxLen := r.len, urxArmed := r.armed, evt := { s.evt with usbRxBufferFull := r.lost }, log := r.log }

/-- `new` added to what was observed. -/
def Rx.adding (r : Rx) (new : List Obs) : Rx := { r with log := new ++ r.log }

theorem State.withRx_rx (s : State) : s.withRx s.rx = s := rfl

@[simp] theorem Rx.adding_adding (r : Rx) (a b : List Obs) : (r.adding a).adding b = r.adding (b ++ a) := by
  simp [Rx.adding]

/-- `f` leads from `s` to `t`, observing `new`, and does the same with every other receiver, which it leaves as it is. -/
def Blind (f : State → Except Fault State) (s t : State) (new : List Obs) : Prop :=
  ∀ r, f (s.withRx r) = .ok (t.withRx (r.adding new))

/-- An observation of a device or of a function port, no result. -/
def Obs.onDevice : Obs → Bool
  | .result _ _ => false
  | _ => true

/-- An observation that is no result and no call of the parser. -/
def Obs.unparsed : Obs → Bool
  | .result _ _ => false
  | .parse _ => false
  | _ => true

theorem Obs.onDevice_of_unparsed {o : Obs} (h : o.unparsed = true) : o.onDevice = true := by
  cases o with
  | result => cases h
  | _ => rfl

section Operations
variable {c : Config} {s t : State}

theorem Blind.run {f : State → Except Fault State} {new : List Obs} (h : Blind f s t new) (hf : f s = .ok t) :
    t.rx = s.rx.adding new := by
  have hself := h s.rx
  rw [State.withRx_rx, hf, Except.ok.injEq] at hself
  rw [hself]
  rfl

theorem Blind.log {f : State → Except Fault State} {new : List Obs} (h : Blind f s t new) (hf : f s = .ok t) :
    t.log = new ++ s.log := congrArg Rx.log (h.run hf)

/-- From another line the same. -/
theorem Blind.withPos {f : State → Except Fault State} {new : List Obs} (h : Blind f s t new) (hf : f s = .ok t) (p : Pos) :
    f { s with pos := p } = .ok { t with pos := p } := by
  have hp := h { s.rx with pos := p }
  rw [show ({ s.rx with pos := p } : Rx).adding new = { t.rx with pos := p } by rw [h.run hf]; rfl] at hp
  exact hp

theorem ctxEnq_blind {f : CanFrame} {r : Result} (h : ctxEnq c f s = .ok (r, t)) (x : Rx) :
    ctxEnq c f (s.withRx x) = .ok (r, t.withRx x) := by
  obtain ⟨hfull, rfl, rfl⟩ | ⟨hroom, hlt, hlen, rfl, rfl⟩ := ctxEnq_cases h
  · exact ctxEnq_full f hfull
  · exact ctxEnq_ok hroom hlt hlen

theorem runCmd_blind {cmd : Cmd} (h : runCmd c cmd s = .ok t) :
    ∃ new, (∀ o ∈ new, o.unparsed = true) ∧ Blind (runCmd c cmd) s t new := by
  cases cmd with
  | enq f =>
    simp only [runCmd, bind_eq_ok, pure_ok, Except.ok.injEq] at h
    obtain ⟨⟨r, s1⟩, henq, rfl⟩ := h
    exact ⟨[], nofun, fun x => by simp only [runCmd, ctxEnq_blind henq, bind_ok, pure_ok]; rfl⟩
  | en =>
    cases h
    cases hb : s.busState with
    | on => exact ⟨[], nofun, fun x => by simp only [runCmd]; rw [busEn_of_on hb, busEn_of_on (s := s.withRx x) hb]; rfl⟩
    | off =>
      refine ⟨[.canStart, .canFilterPassAll, .canConfig s.busPresc s.busSilent s.busArtx], by simp [Obs.unparsed],
        fun x => ?_⟩
      simp only [runCmd]
      rw [busEn_of_off hb, busEn_of_off (s := s.withRx x) hb]
      rfl
  | dis =>
    cases h
    cases hb : s.busState with
    | off => exact ⟨[], nofun, fun x => by simp only [runCmd]; rw [busDis_of_off hb, busDis_of_off (s := s.withRx x) hb]; rfl⟩
    | on =>
      refine ⟨[.canReset], by simp [Obs.unparsed], fun x => ?_⟩
      simp only [runCmd]
      rw [busDis_of_on hb, busDis_of_on (s := s.withRx x) hb]
      rfl
  | rate r =>
    cases h
    refine ⟨[], nofun, fun x => ?_⟩
    simp only [runCmd]
    cases hb : s.busState with
    | on => rw [busRate_of_on hb, busRate_of_on (s := s.withRx x) hb]; rfl
    | off => rw [busRate_of_off hb, busRate_of_off (s := s.withRx x) hb]; rfl
  | silent b =>
    cases h
    refine ⟨[], nofun, fun x => ?_⟩
    simp only [runCmd]
    cases hb : s.busState with
    | on => rw [busSilent_of_on hb, busSilent_of_on (s := s.withRx x) hb]; rfl
    | off => rw [busSilent_of_off hb, busSilent_of_off (s := s.withRx x) hb]; rfl
  | artx a =>
    cases h
    refine ⟨[], nofun, fun x => ?_⟩
    simp only [runCmd]
    cases hb : s.busState with
    | on => rw [busArtx_of_on hb, busArtx_of_on (s := s.withRx x) hb]; rfl
    | off => rw [busArtx_of_off hb, busArtx_of_off (s := s.withRx x) hb]; rfl

theorem unparsed_append {new more : List Obs} (h : ∀ o ∈ new, o.unparsed = true) (h' : ∀ o ∈ more, o.unparsed = true) :
    ∀ o ∈ more ++ new, o.unparsed = true :=
  fun o ho => (List.mem_append.mp ho).elim (h' o) (h o)

theorem runCmds_blind {cmds : List Cmd} (h : runCmds c cmds s = .ok t) :
    ∃ new, (∀ o ∈ new, o.unparsed = true) ∧ Blind (runCmds c cmds) s t new := by
  induction cmds generalizing s with
  | nil => cases h; exact ⟨[], nofun, fun _ => rfl⟩
  | cons cmd cmds ih =>
    simp only [runCmds, bind_eq_ok] at h
    obtain ⟨s1, h1, h2⟩ := h
    obtain ⟨new1, hu1, hb1⟩ := runCmd_blind h1
    obtain ⟨new2, hu2, hb2⟩ := ih h2
    refine ⟨new2 ++ new1, unparsed_append hu1 hu2, fun r => ?_⟩
    simp only [runCmds, hb1 r, bind_ok, hb2 _, Rx.adding_adding]

/-- The gate, which always answers. -/
theorem utxSend_blind (c : Config) (bytes : List Byte) (s : State) : ∃ new, (∀ o ∈ new, o.unparsed = true) ∧
    ∀ r, (utxSend c bytes (s.withRx r)).2 = (utxSend c bytes s).2.withRx (r.adding new) := by
  cases hb : s.utxBusy with
  | true => exact ⟨[], nofun, fun r => by rw [utxSend_busy hb, utxSend_busy (s := s.withRx r) hb]; rfl⟩
  | false =>
    by_cases hl : c.txBuf < bytes.length
    · exact ⟨[], nofun, fun r => by rw [utxSend_tooLong hb hl, utxSend_tooLong (s := s.withRx r) hb hl]; rfl⟩
    · have hl' := Nat.le_of_not_lt hl
      exact ⟨[.usbStartTx bytes], by simp [Obs.unparsed], fun r => by
        rw [utxSend_started hb hl', utxSend_started (s := s.withRx r) hb hl']; rfl⟩

theorem parsedLines_append {new log : List Obs} (h : ∀ o ∈ new, o.unparsed = true) :
    parsedLines (new ++ log) = parsedLines log := by
  induction new with
  | nil => rfl
  | cons o new ih =>
    have ho := h o List.mem_cons_self
    have hnew := ih fun o ho => h o (List.mem_cons_of_mem _ ho)
    cases o with
    | parse => cases ho
    | _ => exact hnew

/-- The pass of a terminator: the parser is called once, with the line. -/
theorem scanTerminator_blind (h : scanTerminator c s = .ok t) :
    ∃ new, (∀ o ∈ new, o.onDevice = true) ∧ parsedLines (new ++ s.log) = lineOf c s :: parsedLines s.log ∧
      Blind (scanTerminator c) s t new := by
  obtain ⟨hidx, s1, hcmds, rfl⟩ := scanTerminator_cases h
  obtain ⟨new1, hu1, hb1⟩ := runCmds_blind hcmds
  obtain ⟨new2, hu2, hb2⟩ := utxSend_blind c [replyOf c (lineOf c s)] s1
  have hu := unparsed_append hu1 hu2
  refine ⟨(new2 ++ new1) ++ [.parse (lineOf c s)], fun o ho => ?_, ?_, fun r => ?_⟩
  · obtain ho | ho := List.mem_append.mp ho
    · exact Obs.onDevice_of_unparsed (hu o ho)
    · rw [List.mem_singleton.mp ho]; rfl
  · rw [List.append_assoc, parsedLines_append hu]; rfl
  · have hline : lineBytes c (s.withRx r) = .ok (lineOf c s) := lineBytes_ok (s := s.withRx r) hidx
    have hrun := hb1 (r.adding [.parse (lineOf c s)])
    have hsend := hb2 ((r.adding [.parse (lineOf c s)]).adding new1)
    simp only [Rx.adding_adding] at hrun hsend
    rw [scanTerminator, hline, bind_ok]
    rw [show (s.withRx r).emit (.parse (lineOf c s)) = (s.emit (.parse (lineOf c s))).withRx (r.adding [.parse (lineOf c s)])
      from rfl, hrun, bind_ok, hsend, List.append_assoc]
    rfl

/-- The pass of one byte. -/
theorem scanByte_blind {b : Byte} (h : scanByte c b s = .ok t) :
    ∃ new, (∀ o ∈ new, o.onDevice = true) ∧ Blind (scanByte c b) s t new := by
  obtain ⟨rfl, hterm⟩ | ⟨hb, hfull, rfl⟩ | ⟨hb, hroom, rfl⟩ := scanByte_cases h
  · obtain ⟨new, hdev, _, hblind⟩ := scanTerminator_blind hterm
    exact ⟨new, hdev, fun r => by rw [scanByte_term]; exact hblind r⟩
  · exact ⟨[], nofun, fun r => scanByte_overflow hb (s := s.withRx r) hfull⟩
  · exact ⟨[], nofun, fun r => scanByte_append hb (s := s.withRx r) hroom⟩

/-- The pass of bytes one after the other. -/
theorem scanAll_blind {bs : List Byte} (h : scanAll c bs s = .ok t) :
    ∃ new, (∀ o ∈ new, o.onDevice = true) ∧ Blind (scanAll c bs) s t new := by
  induction bs generalizing s with
  | nil => cases h; exact ⟨[], nofun, fun _ => rfl⟩
  | cons b bs ih =>
    simp only [scanAll, bind_eq_ok] at h
    obtain ⟨s1, h1, h2⟩ := h
    obtain ⟨new1, hd1, hb1⟩ := scanByte_blind h1
    obtain ⟨new2, hd2, hb2⟩ := ih h2
    refine ⟨new2 ++ new1, fun o ho => (List.mem_append.mp ho).elim (hd2 o) (hd1 o), fun r => ?_⟩
    simp only [scanAll, hb1 r, bind_ok, hb2 _, Rx.adding_adding]

end Operations

end Sys2Proof.Machine
end

section
/-! PROOFS. The pass of a byte (spec/44_usbrx.md R198): what its lines come to with no step of another agent between them, and
that it is what `scanByte` says of the byte in one. -/

namespace Sys2Proof.Machine

section Parts
variable {c : Config} {s t : State}

/-! ### What a pass leaves alone -/

/-- From another scan position the same. -/
theorem Blind.withUrxPos {f : State → Except Fault State} {new : List Obs} (h : Blind f s t new) (hf : f s = .ok t)
    (u : Nat) : f { s with urxPos := u } = .ok { t with urxPos := u } := by
  have hp := h { s.rx with upos := u }
  rw [show ({ s.rx with upos := u } : Rx).adding new = { t.rx with upos := u } by rw [h.run hf]; rfl] at hp
  exact hp

theorem runCmds_pos {cmds : List Cmd} (h : runCmds c cmds s = .ok t) : t.pos = s.pos := by rw [runCmds_frame h]

theorem utxSend_withPos (c : Config) (bytes : List Byte) (s : State) (p : Pos) :
    (utxSend c bytes { s with pos := p }).2 = { (utxSend c bytes s).2 with pos := p } := by
  unfold utxSend
  dsimp only
  split
  · rfl
  · split <;> rfl

/-- An operation of the parser runs while `CTX_HEAD` is in range, and leaves it there. -/
theorem runCmd_ok (cmd : Cmd) (h : s.ctxHead < nTx) : ∃ t, runCmd c cmd s = .ok t ∧ t.ctxHead < nTx := by
  cases cmd with
  | enq f =>
    cases hf : ringFull nTx s.ctxHead s.ctxTail with
    | true => exact ⟨s.raise c .canQueueFull, by simp only [runCmd, ctxEnq_full _ hf, bind_ok, pure_ok], h⟩
    | false =>
      exact ⟨ctxEnqueued f.val s, by simp only [runCmd, ctxEnq_ok hf h (data_length_le_of_wf f.property), bind_ok, pure_ok],
        ringNext_lt (by decide : 0 < nTx)⟩
  | en => exact ⟨_, rfl, by rw [busEn_frame]; exact h⟩
  | dis => exact ⟨_, rfl, by rw [busDis_frame]; exact h⟩
  | rate r => exact ⟨_, rfl, by rw [busRate_frame]; exact h⟩
  | silent b => exact ⟨_, rfl, by rw [busSilent_frame]; exact h⟩
  | artx a => exact ⟨_, rfl, by rw [busArtx_frame]; exact h⟩

theorem runCmds_ok (cmds : List Cmd) (h : s.ctxHead < nTx) : ∃ t, runCmds c cmds s = .ok t := by
  induction cmds generalizing s with
  | nil => exact ⟨s, rfl⟩
  | cons cmd cmds ih =>
    obtain ⟨s1, h1, hlt⟩ := runCmd_ok (c := c) cmd h
    obtain ⟨t, h2⟩ := ih hlt
    exact ⟨t, by simp only [runCmds, h1, bind_ok, h2]⟩

theorem scanTerminator_ok (hi : s.lineIdx ≤ c.mtu)
    (h : runCmds c (c.parse (lineOf c s)).1 (s.emit (.parse (lineOf c s))) = .ok t) :
    scanTerminator c s = .ok { (utxSend c [replyOf c (lineOf c s)] t).2 with lineIdx := 0 } := by
  simp only [scanTerminator, lineBytes_ok hi, bind_ok, h, pure_ok]

end Parts

/-! ### The micro-steps of a pass -/

section Pass
variable {s t : State}

theorem execN_inv {i : Instr} {n : Nat} (h : s.Inv Config.impl) (he : execN i n s = .next t) : t.Inv Config.impl := by
  induction n generalizing s with
  | zero => cases he; exact h
  | succ n ih =>
    cases hs : exec i s with
    | next s1 => exact ih ((exec_sound i h).inv hs) ((execN_succ hs).symm.trans he)
    | fault f => simp only [execN, hs] at he; cases he
    | refused r => simp only [execN, hs] at he; cases he

/-- The slot that is scanned holds no more than a chunk. -/
theorem State.Inv.tailLenOf_le (h : s.Inv Config.impl) (hscan : s.urxScan = true) :
    tailLenOf Config.impl s ≤ Config.impl.app := by
  obtain ⟨l, _, hle, hlen, _⟩ := tailLen_live h hscan
  rwa [hlen]

theorem State.Inv.scan_of_test (h : s.Inv Config.impl) (hp : s.pos = .drain .test) : s.urxScan = true :=
  h.scan.open (l := .test) (by rw [hp]; rfl) rfl

/-- The test and the read. -/
theorem execN_toBranch (h : s.Inv Config.impl) (hp : s.pos = .drain .test) (hlt : s.urxPos < tailLenOf Config.impl s) :
    execN .urxDrain 2 s = .next { s with pos := .drain (.branch (tailByteOf Config.impl s)) } := by
  have htest := exec_drain_test hp h.urx.tail_lt
  rw [if_pos hlt] at htest
  have hread : exec .urxDrain { s with pos := .drain .read } =
      .next { s with pos := .drain (.branch (tailByteOf Config.impl s)) } :=
    exec_drain_read rfl h.urx.tail_lt (Nat.lt_of_lt_of_le hlt (h.tailLenOf_le (h.scan_of_test hp)))
  exact (execN_succ htest).trans (execN_succ hread)

/-- A byte that is no terminator, with room in the line. -/
theorem execN_append (h : s.Inv Config.impl) (hp : s.pos = .drain .test) (hlt : s.urxPos < tailLenOf Config.impl s)
    (hb : tailByteOf Config.impl s ≠ term) (hroom : s.lineIdx < Config.impl.mtu) :
    execN .urxDrain 5 s = .next { byteAppended (tailByteOf Config.impl s) s with urxPos := s.urxPos + 1 } := by
  have hbranch : exec .urxDrain { s with pos := .drain (.branch (tailByteOf Config.impl s)) } =
      .next { s with pos := .drain (.append (tailByteOf Config.impl s)) } := by
    rw [exec_drain_branch rfl]
    simp only [beq_iff_eq, hb, if_false, Nat.ne_of_lt hroom]
  have happend : exec .urxDrain { s with pos := .drain (.append (tailByteOf Config.impl s)) } =
      .next { byteAppended (tailByteOf Config.impl s) s with pos := .drain .next } := exec_drain_append rfl hroom
  have hnext : exec .urxDrain { byteAppended (tailByteOf Config.impl s) s with pos := .drain .next } =
      .next { byteAppended (tailByteOf Config.impl s) s with urxPos := s.urxPos + 1, pos := s.pos } := by
    rw [hp]; exact exec_drain_next rfl
  exact (execN_add (m := 3) (execN_toBranch h hp hlt)).trans
    ((execN_succ hbranch).trans ((execN_succ happend).trans (execN_succ hnext)))

/-- A byte that is no terminator, on a full line. -/
theorem execN_overflow (h : s.Inv Config.impl) (hp : s.pos = .drain .test) (hlt : s.urxPos < tailLenOf Config.impl s)
    (hb : tailByteOf Config.impl s ≠ term) (hfull : s.lineIdx = Config.impl.mtu) :
    execN .urxDrain 5 s = .next { dropLine Config.impl s with urxPos := s.urxPos + 1 } := by
  have hbranch : exec .urxDrain { s with pos := .drain (.branch (tailByteOf Config.impl s)) } =
      .next { s with pos := .drain .overflow } := by
    rw [exec_drain_branch rfl]
    simp only [beq_iff_eq, hb, if_false, hfull, if_true]
  have hdrop : exec .urxDrain { s with pos := .drain .overflow } =
      .next { dropLine Config.impl s with pos := .drain .next } := exec_drain_overflow rfl
  have hnext : exec .urxDrain { dropLine Config.impl s with pos := .drain .next } =
      .next { dropLine Config.impl s with urxPos := s.urxPos + 1, pos := s.pos } := by
    rw [hp]; exact exec_drain_next rfl
  exact (execN_add (m := 3) (execN_toBranch h hp hlt)).trans
    ((execN_succ hbranch).trans ((execN_succ hdrop).trans (execN_succ hnext)))

/-- The operations that the parser issued, one micro-step each. -/
theorem execN_runCmds {cmds : List Cmd} {ok : Bool} (hp : s.pos = .drain (afterParse cmds ok))
    (h : runCmds Config.impl cmds s = .ok t) :
    execN .urxDrain cmds.length s = .next { t with pos := .drain (.reply ok) } := by
  induction cmds generalizing s t with
  | nil =>
    have hs : t = s := (Except.ok.inj h).symm
    rw [hs, show (Pos.drain (.reply ok)) = s.pos from hp.symm]
    rfl
  | cons cmd cmds ih =>
    simp only [runCmds, bind_eq_ok] at h
    obtain ⟨s1, h1, h2⟩ := h
    obtain ⟨new, _, hblind⟩ := runCmds_blind h2
    have hrest : runCmds Config.impl cmds { s1 with pos := .drain (afterParse cmds ok) } =
        .ok { t with pos := .drain (afterParse cmds ok) } := hblind.withPos h2 _
    exact (execN_succ (exec_drain_run hp h1)).trans (ih (t := { t with pos := .drain (afterParse cmds ok) }) rfl hrest)

/-- The terminator: the parser is called, its operations run, the reply is offered, the line is emptied. -/
theorem execN_terminator (h : s.Inv Config.impl) (hp : s.pos = .drain .test) (hlt : s.urxPos < tailLenOf Config.impl s)
    (hb : tailByteOf Config.impl s = term)
    (hrun : runCmds Config.impl (Config.impl.parse (lineOf Config.impl s)).1 (s.emit (.parse (lineOf Config.impl s))) =
      .ok t) :
    execN .urxDrain ((Config.impl.parse (lineOf Config.impl s)).1.length + 7) s =
      .next { (utxSend Config.impl [replyOf Config.impl (lineOf Config.impl s)] t).2 with
        lineIdx := 0, urxPos := s.urxPos + 1 } := by
  generalize hline : lineOf Config.impl s = line at hrun
  have hbranch : exec .urxDrain { s with pos := .drain (.branch (tailByteOf Config.impl s)) } =
      .next { s with pos := .drain .parse } := by
    rw [exec_drain_branch rfl, hb]
    simp only [beq_self_eq_true, if_true]
  have hparse : exec .urxDrain { s with pos := .drain .parse } =
      .next { s.emit (.parse line) with pos := .drain (afterParse (Config.impl.parse line).1 (Config.impl.parse line).2) } := by
    rw [← hline]; exact exec_drain_parse rfl h.line.idx_le
  obtain ⟨new, _, hblind⟩ := runCmds_blind hrun
  have hcmds := execN_runCmds
    (t := { t with pos := .drain (afterParse (Config.impl.parse line).1 (Config.impl.parse line).2) })
    (ok := (Config.impl.parse line).2) rfl
    (hblind.withPos hrun (.drain (afterParse (Config.impl.parse line).1 (Config.impl.parse line).2)))
  have hreply : exec .urxDrain { t with pos := .drain (.reply (Config.impl.parse line).2) } =
      .next { (utxSend Config.impl [replyOf Config.impl line] t).2 with pos := .drain .clear } := by
    rw [exec_drain_reply rfl, utxSend_withPos]; rfl
  have hclear : exec .urxDrain { (utxSend Config.impl [replyOf Config.impl line] t).2 with pos := .drain .clear } =
      .next { (utxSend Config.impl [replyOf Config.impl line] t).2 with lineIdx := 0, pos := .drain .next } :=
    exec_drain_clear rfl
  have hupos : (utxSend Config.impl [replyOf Config.impl line] t).2.urxPos = s.urxPos := by
    rw [utxSend_frame, runCmds_frame hrun]; rfl
  have hpos : (utxSend Config.impl [replyOf Config.impl line] t).2.pos = .drain .test := by
    rw [utxSend_frame, runCmds_frame hrun]; exact hp
  have hnext : exec .urxDrain { (utxSend Config.impl [replyOf Config.impl line] t).2 with lineIdx := 0, pos := .drain .next } =
      .next { (utxSend Config.impl [replyOf Config.impl line] t).2 with lineIdx := 0, urxPos := s.urxPos + 1 } := by
    rw [exec_drain_next rfl, ← hpos, ← hupos]
  rw [show (Config.impl.parse line).1.length + 7 = 2 + (((Config.impl.parse line).1.length + 3) + 1 + 1) by omega,
    execN_add (execN_toBranch h hp hlt), execN_succ hbranch, execN_succ hparse, execN_add hcmds]
  exact (execN_succ hreply).trans ((execN_succ hclear).trans (execN_succ hnext))

/-- The pass of any byte is what `scanByte` says of it. -/
theorem execN_scanByte (h : s.Inv Config.impl) (hp : s.pos = .drain .test) (hlt : s.urxPos < tailLenOf Config.impl s) :
    ∃ n t, scanByte Config.impl (tailByteOf Config.impl s) s = .ok t ∧
      execN .urxDrain n s = .next { t with urxPos := s.urxPos + 1 } ∧ (tailByteOf Config.impl s ≠ term → n = 5) := by
  by_cases hb : tailByteOf Config.impl s = term
  · obtain ⟨t, hrun⟩ := runCmds_ok (c := Config.impl) (s := s.emit (.parse (lineOf Config.impl s)))
      (Config.impl.parse (lineOf Config.impl s)).1 h.ctx.head_lt
    exact ⟨_, _, by rw [hb, scanByte_term]; exact scanTerminator_ok h.line.idx_le hrun,
      execN_terminator h hp hlt hb hrun, fun hne => absurd hb hne⟩
  · obtain hfull | hroom := Nat.eq_or_lt_of_le h.line.idx_le
    · exact ⟨5, _, scanByte_overflow hb hfull, execN_overflow h hp hlt hb hfull, fun _ => rfl⟩
    · exact ⟨5, _, scanByte_append hb hroom, execN_append h hp hlt hb hroom, fun _ => rfl⟩

end Pass

/-- Only the append stores to the line, and only where there is room. -/
theorem exec_lineMem {i : Instr} {s t : State} (h : exec i s = .next t) (hne : t.lineMem ≠ s.lineMem) :
    s.lineIdx < Config.impl.mtu := by
  have move {j : Instr} (hm : FgMove j s t) : s.lineIdx < Config.impl.mtu := by
    cases hm with
    | append b _ room => exact room
    | quiet same => exact absurd (by rw [same]) hne
    | submit _ _ _ acc _ _ eq => exact absurd (by rw [eq]; cases acc <;> rfl) hne
    | run _ _ _ _ _ run _ eq => exact absurd (by rw [eq, runCmd_frame run]) hne
    | send _ _ _ eq => exact absurd (by rw [eq, utxSend_frame]) hne
  have hf := (exec_effect h).frame
  cases i with
  | urxDrain => exact move (execUrxDrain_move h)
  | loopIter => exact move (execLoopIter_move h)
  | _ => simp only [Frame] at hf; exact absurd (by rw [hf]) hne

/-- Settles O41: the lines one by one, the five together, and the bound of the line buffer. -/
theorem scannedByteIsAppendedOrOverflows : Obligations.ScannedByteIsAppendedOrOverflows := by
  refine ⟨fun s => ⟨exec_drain_test, exec_drain_read, fun b hp => ⟨fun hb => ?_, fun hb hfull => ?_, fun hb hroom => ?_⟩,
    fun b hp hroom => exec_drain_append hp hroom, exec_drain_overflow, exec_drain_next⟩, fun s h hp hlt hb =>
    ⟨execN_append h hp hlt hb, execN_overflow h hp hlt hb, ?_⟩, fun i s t h hne => exec_lineMem h hne⟩
  · rw [exec_drain_branch hp, hb]; rfl
  · have hne : ¬ (b == term) = true := fun he => hb (beq_iff_eq.mp he)
    rw [exec_drain_branch hp, if_neg hne, if_pos (by simpa using hfull)]
  · have hne : ¬ (b == term) = true := fun he => hb (beq_iff_eq.mp he)
    rw [exec_drain_branch hp, if_neg hne, if_neg (by simpa using hroom)]
  · obtain ⟨n, t, hscan, hrun, hn⟩ := execN_scanByte h hp hlt
    obtain rfl := hn hb
    exact ⟨t, hscan, hrun⟩

/-! ### The operations of the parser and the requests of their names -/

theorem rateOf_rateCode (r : Rate) : rateOf (rateCode r) = some r := by cases r <;> rfl

theorem exec_ctxEnq_of_runCmd {s t : State} {f : WfFrame} (h : runCmd Config.impl (.enq f) s = .ok t) {g : FrameRecord}
    (hwf : g.wf = true) (hg : frameOf g = f.val) : ∃ r, exec (.ctxEnq g) s = .next (t.emit (.result .fgp r)) := by
  simp only [runCmd, bind_eq_ok, pure_ok, Except.ok.injEq] at h
  obtain ⟨⟨r, s1⟩, henq, rfl⟩ := h
  exact ⟨r, by rw [exec_ctxEnq hwf, hg, henq]; rfl⟩

/-- The line in progress holds no terminator. -/
theorem State.Inv.term_not_mem_lineOf {c : Config} {s : State} (h : s.Inv c) : term ∉ lineOf c s := by
  intro hmem
  obtain ⟨k, hk, he⟩ := List.getElem_of_mem hmem
  have hk' : k < s.lineIdx := by simpa [lineOf] using hk
  obtain ⟨b, hread, hb⟩ := h.line.written k hk'
  have hget : (lineOf c s)[k] = b := by
    simp only [lineOf, Memory.getElem_readAll, Nat.zero_add, Memory.readOr, hread, Option.getD_some]
  rw [hget] at he
  exact hb he

/-- Settles O42: the lines one by one, the requests of the operations' names, and the pass as a whole. -/
theorem terminatorParsesThenReplies : Obligations.TerminatorParsesThenReplies := by
  refine ⟨fun s => ⟨fun h hp => ⟨?_, h.term_not_mem_lineOf, ?_⟩, fun cmd rest ok hp hlt => ?_, fun ok hp => ?_,
    exec_drain_clear⟩, fun s t => ⟨fun f h g hwf hg => exec_ctxEnq_of_runCmd h hwf hg, fun h => ?_, fun h => ?_,
    fun r h => ?_, fun b h => ?_, fun a h => ?_⟩, fun s => ⟨rfl, fun cmd cmds t h => ?_⟩, fun s h hp hlt hb => ?_,
    fun s h hp hlt => ?_⟩
  · simpa [lineOf] using h.line.idx_le
  · rw [exec_drain_parse hp h.line.idx_le]
    cases (Config.impl.parse (lineOf Config.impl s)).1 <;> rfl
  · obtain ⟨t, hrun, _⟩ := runCmd_ok (c := Config.impl) cmd hlt
    refine ⟨t, hrun, ?_⟩
    rw [exec_drain_run hp hrun]
    cases rest <;> rfl
  · rw [exec_drain_reply hp]; rfl
  · cases h; rfl
  · cases h; rfl
  · cases h; exact exec_busRate s (rateOf_rateCode r)
  · cases h; rfl
  · cases h; rfl
  · simp only [runCmds, h, bind_ok]
  · obtain ⟨t, hrun⟩ := runCmds_ok (c := Config.impl) (s := s.emit (.parse (lineOf Config.impl s)))
      (Config.impl.parse (lineOf Config.impl s)).1 h.ctx.head_lt
    exact ⟨t, hrun, execN_terminator h hp hlt hb hrun⟩
  · obtain ⟨n, t, hscan, hrun, _⟩ := execN_scanByte h hp hlt
    exact ⟨n, t, hscan, hrun⟩

end Sys2Proof.Machine
end

section
/-! PROOFS. The foreground loop (spec/46_loop.md R231): its lines one by one. -/

namespace Sys2Proof.Machine

/-- A line of an iteration that goes on at another one. -/
theorem exec_loopIter_line {s t : State} {l l' : LoopLine} (hp : s.pos = .loop l)
    (h : loopLine Config.impl l s = .ok (some l', t)) : exec .loopIter s = .next { t with pos := .loop l' } := by
  simp only [exec, execLoopIter, hp, h]; rfl

/-- The last line of an iteration. -/
theorem exec_loopIter_return {s : State} (hp : s.pos = .loop .ret) :
    exec .loopIter s = .next (({ s with pos := .rest } : State).emit (.result .fgp .ok)) := by
  simp only [exec, execLoopIter, hp]; rfl

/-- A line of the scan that leads to another one does so wherever the foreground stands. -/
theorem drainLine_goto {c : Config} {l : DrainLine} {d : Option DrainLine} {s t : State}
    (h : drainLine c l s = .ok (d, t)) (p : Pos) : drainLine c l { s with pos := p } = .ok (d, { t with pos := p }) := by
  rw [drainLine_withPos, h]; rfl

section Lines
variable {s : State}

theorem exec_loop_begin (hp : s.pos = .rest) (ht : s.ctxTail < nTx) :
    ∃ s1, ctxProc Config.impl s = .ok (.ok, s1) ∧ exec .loopIter s = .next { s1 with pos := .loop .toCanRx } := by
  obtain ⟨r, s1, hproc⟩ := ctxProc_ok (c := Config.impl) ht
  obtain ⟨rfl, _⟩ := ctxProc_cases hproc
  exact ⟨s1, hproc, by simp only [exec, execLoopIter, hp, loopBegin, hproc]; rfl⟩

/-- Line 10 calls URX.DRAIN. -/
theorem exec_loop_drain (hp : s.pos = .loop (.drain none)) :
    exec .loopIter s = .next { (drainBegin s).2 with pos := .loop (afterDrain (drainBegin s).1) } :=
  exec_loopIter_line hp rfl

/-- A line of the scan inside an iteration. -/
theorem exec_loop_drainLine {t : State} {d : DrainLine} {d' : Option DrainLine} (hp : s.pos = .loop (.drain (some d)))
    (h : drainLine Config.impl d s = .ok (d', t)) : exec .loopIter s = .next { t with pos := .loop (afterDrain d') } :=
  exec_loopIter_line hp (by simp only [loopLine, h, bind_ok, pure_ok])

/-- Line 10 goes on as a drain of its own does from there. -/
theorem exec_loop_of_drain {t : State} {d d' : DrainLine} (hp : s.pos = .loop (.drain (some d)))
    (h : exec .urxDrain { s with pos := .drain d } = .next t) (ht : t.pos = .drain d') :
    exec .loopIter s = .next { t with pos := .loop (.drain (some d')) } := by
  obtain ⟨o, s', ⟨hrest, _⟩ | ⟨l, hl, hline⟩, ⟨_, rfl⟩ | ⟨l', rfl, rfl⟩⟩ :=
    execUrxDrain_next (s := { s with pos := .drain d }) h
  · cases hrest
  · cases hrest
  · cases ht
  · cases hl
    cases ht
    exact exec_loop_drainLine hp (drainLine_goto hline s.pos)

end Lines

/-- Settles O52, line by line. -/
theorem iterationRunsItsThreeParts : Obligations.IterationRunsItsThreeParts := by
  refine fun s => ⟨exec_loop_begin, fun hp => exec_loopIter_line hp rfl, fun hp => exec_loopIter_line hp rfl,
    fun p hp => exec_loopIter_line hp rfl, fun hp => ?_, fun f hp => exec_loopIter_line hp rfl,
    fun hp => exec_loopIter_line hp rfl, fun f hp => exec_loopIter_line hp rfl, fun bytes hp => exec_loopIter_line hp rfl,
    fun hp => exec_loopIter_line hp rfl, fun hp => ⟨fun he => ?_, fun he => ?_⟩,
    fun d hp => ⟨?_, fun d' t h ht => exec_loop_of_drain hp h ht⟩, fun hp => exec_loopIter_line hp rfl,
    exec_loopIter_return⟩
  · rw [exec_loopIter_line hp rfl, crxRecv]
    cases hd : drawPop Config.impl s with
    | mk o s1 => cases o <;> rfl
  · rw [exec_loop_drain hp, show drainBegin s = (none, s) from if_pos he]
    rfl
  · rw [exec_loop_drain hp, show drainBegin s = (some .test, { s with urxScan := true, urxPos := 0 }) from
      if_neg (by rw [he]; decide)]
    rfl
  · rintro rfl
    exact exec_loop_drainLine hp rfl

end Sys2Proof.Machine
end

section
/-! PROOFS. What does not interfere (spec/20_memory.md section 6): a chunk, a FIFO overflow and a completion, with one another
and with the scan. -/

namespace Sys2Proof.Machine

/-! ### A chunk, whatever stands beside the receive ring -/

/-- `s` with the receive ring's producer side and the counter of lost chunks of `t`, and nothing observed. -/
def State.withProducer (s t : State) : State :=
  { s with
    urxHead := t.urxHead, urxMem := t.urxMem, urxLen := t.urxLen, urxArmed := t.urxArmed
    evt := { s.evt with usbRxBufferFull := t.evt.usbRxBufferFull }, log := [] }

/-- In a state with the same receive ring a chunk does the same. -/
theorem exec_urxChunk_elsewhere {bytes : List Byte} {s t s' : State} (h : exec (.urxChunk bytes) s = .next t)
    (hring : s' = { s' with
      urxHead := s.urxHead, urxTail := s.urxTail, urxMem := s.urxMem, urxLen := s.urxLen, urxArmed := s.urxArmed
      evt := { s'.evt with usbRxBufferFull := s.evt.usbRxBufferFull } }) :
    ∃ w, exec (.urxChunk bytes) s' = .next w ∧ ({ w with log := [] } : State) = s'.withProducer t := by
  rw [hring]
  cases exec_effect h with
  | chunkLost _ a _ short armed inRange full => exact ⟨_, exec_urxChunk_lost short armed inRange full, rfl⟩
  | chunkCaptured _ a _ short armed inRange room headInRange =>
    exact ⟨_, exec_urxChunk_captured short armed inRange room headInRange, rfl⟩

theorem exec_urxChunk_producer {bytes : List Byte} {s t : State} (h : exec (.urxChunk bytes) s = .next t) :
    ({ t with log := [] } : State) = s.withProducer t := by
  obtain ⟨w, hw, heq⟩ := exec_urxChunk_elsewhere h (s' := s) rfl
  rw [h] at hw
  obtain rfl := Host.Outcome.next.inj hw
  exact heq

/-! ### The two interrupt operations and the completion -/

/-- `i` and `j` commute, but for the order of what was observed. -/
def Commutes (i j : Instr) : Prop :=
  ∀ s t u : State, exec i s = .next t → exec j s = .next u →
    ∃ v w, exec j t = .next v ∧ exec i u = .next w ∧ ({ v with log := [] } : State) = { w with log := [] }

theorem Commutes.symm {i j : Instr} (h : Commutes i j) : Commutes j i := by
  intro s t u ht hu
  obtain ⟨v, w, hv, hw, heq⟩ := h s u t hu ht
  exact ⟨w, v, hw, hv, heq.symm⟩

theorem exec_utxDone {s : State} (h : s.utxBusy = true) :
    exec .utxDone s = .next (({ s with utxBusy := false } : State).emit (.result .envp .ok)) := by
  simp only [exec, execUtxDone, h, if_true]; rfl

theorem urxChunk_commutes_crxOvf (bytes : List Byte) : Commutes (.urxChunk bytes) .crxOvf := by
  intro s t u ht hu
  cases exec_effect hu
  obtain ⟨w, hw, heq⟩ := exec_urxChunk_elsewhere ht
    (s' := (s.raise Config.impl .canRxFifoOverflow).emit (.result .irqp .ok)) rfl
  refine ⟨_, w, rfl, hw, heq.trans ?_ |>.symm⟩
  have h := congrArg (fun x : State => ({ x.raise Config.impl .canRxFifoOverflow with log := [] } : State))
    (exec_urxChunk_producer ht)
  exact h.symm

theorem urxChunk_commutes_utxDone (bytes : List Byte) : Commutes (.urxChunk bytes) .utxDone := by
  intro s t u ht hu
  cases exec_effect hu with
  | done _ busy =>
    obtain ⟨w, hw, heq⟩ := exec_urxChunk_elsewhere ht
      (s' := ({ s with utxBusy := false } : State).emit (.result .envp .ok)) rfl
    have hprod := exec_urxChunk_producer ht
    have hbusy : t.utxBusy = true := (congrArg State.utxBusy hprod).trans busy
    refine ⟨_, w, exec_utxDone hbusy, hw, heq.trans ?_ |>.symm⟩
    exact (congrArg (fun x : State => ({ x with utxBusy := false, log := [] } : State)) hprod).symm

theorem crxOvf_commutes_utxDone : Commutes .crxOvf .utxDone := by
  intro s t u ht hu
  cases exec_effect ht
  cases exec_effect hu with
  | done _ busy => exact ⟨_, _, exec_utxDone busy, rfl, rfl⟩

/-- Settles O48, pair by pair. -/
theorem interruptsAndCompletionCommute : Obligations.InterruptsAndCompletionCommute := by
  intro bytes i j s t u hi hj hne
  have hpair : Commutes i j := by
    simp only [List.mem_cons, List.not_mem_nil, or_false] at hi hj
    obtain rfl | rfl | rfl := hi <;> obtain rfl | rfl | rfl := hj
    · exact absurd rfl hne
    · exact urxChunk_commutes_crxOvf bytes
    · exact urxChunk_commutes_utxDone bytes
    · exact (urxChunk_commutes_crxOvf bytes).symm
    · exact absurd rfl hne
    · exact crxOvf_commutes_utxDone
    · exact (urxChunk_commutes_utxDone bytes).symm
    · exact crxOvf_commutes_utxDone.symm
    · exact absurd rfl hne
  exact hpair s t u

/-! ### A chunk in the middle of a scan -/

/-- Where a micro-step of the foreground ends: at another line, or with its result. -/
def goOn : Option Pos → State → State
  | some p, s => { s with pos := p }
  | none, s => ({ s with pos := .rest } : State).emit (.result .fgp .ok)

/-- A micro-step of a scan runs its line, be it of a drain of its own or inside an iteration. -/
theorem exec_scanLine {i : Instr} {s u : State} {l : DrainLine} (hi : i = .urxDrain ∨ i = .loopIter)
    (hl : s.pos.drainLine = some l) (h : exec i s = .next u) :
    ∃ d s' p, drainLine Config.impl l s = .ok (d, s') ∧ u = goOn p s' ∧
      ∀ t t', t.pos = s.pos → drainLine Config.impl l t = .ok (d, t') → exec i t = .next (goOn p t') := by
  cases hp : s.pos with
  | rest => rw [hp] at hl; cases hl
  | drain x =>
    obtain rfl : x = l := by rw [hp] at hl; exact Option.some.inj hl
    obtain rfl | rfl := hi
    · obtain ⟨d, s', ⟨hrest, _⟩ | ⟨x', hx, hline⟩, hend⟩ := execUrxDrain_next h
      · rw [hp] at hrest; cases hrest
      · rw [hp] at hx
        cases hx
        obtain ⟨rfl, rfl⟩ | ⟨l', rfl, rfl⟩ := hend
        · exact ⟨none, s', none, hline, rfl, fun t t' ht hd => by simp only [exec, execUrxDrain, ht, hd]; rfl⟩
        · exact ⟨some l', s', some (.drain l'), hline, rfl, fun t t' ht hd => exec_urxDrain_line ht hd⟩
    · rw [exec_loopIter_of_drain hp] at h; cases h
  | loop x =>
    obtain rfl | rfl := hi
    · rw [exec_urxDrain_of_loop hp] at h; cases h
    · obtain rfl : x = .drain (some l) := by
        rw [hp] at hl
        cases x with
        | drain o => exact congrArg LoopLine.drain hl
        | _ => cases hl
      obtain ⟨d, s', ⟨hrest, _⟩ | ⟨x', hx, hline⟩, hend⟩ := execLoopIter_next h
      · rw [hp] at hrest; cases hrest
      · rw [hp] at hx
        cases hx
        obtain ⟨d', hd', rfl⟩ := loopLine_cases hline
        refine ⟨d', s', some (.loop (afterDrain d')), hd', ?_, fun t t' ht hd => exec_loop_drainLine ht hd⟩
        obtain ⟨hnone, _⟩ | ⟨l', hl', rfl⟩ := hend
        · cases hnone
        · rw [← Option.some.inj hl']; rfl

theorem goOn_withProducer (p : Option Pos) {s t w : State} (h : ({ w with log := [] } : State) = s.withProducer t) :
    ({ goOn p w with log := [] } : State) = (goOn p s).withProducer t := by
  cases p with
  | none => exact congrArg (fun x : State => ({ x with pos := .rest } : State)) h
  | some p => exact congrArg (fun x : State => ({ x with pos := p } : State)) h

section Scan
variable {c : Config} {l : DrainLine} {d : Option DrainLine} {s t u : State}

/-- Another producer side, another counter of lost chunks, another log. -/
def Rx.produced (r : Rx) (head : Nat) (mem : Memory Byte) (len : Memory Nat) (armed : Option Nat) (lost : Nat)
    (log : List Obs) : Rx :=
  { r with head := head, mem := mem, len := len, armed := armed, lost := lost, log := log }

/-- A line of the scan before the tail advance does the same where the receive ring's producer side is another one, if the
length of the tail slot and the byte the scan has come to are the same. -/
theorem drainLine_produced {hd : Nat} {m : Memory Byte} {n : Memory Nat} {a : Option Nat} {k : Nat} {lg : List Obs}
    (hl : l ≠ .advance) (h : drainLine c l s = .ok (d, u))
    (hlen : l = .test → tailLenOf c (s.withRx (s.rx.produced hd m n a k lg)) = tailLenOf c s)
    (hbyte : l = .read → tailByteOf c (s.withRx (s.rx.produced hd m n a k lg)) = tailByteOf c s) :
    ∃ lg', drainLine c l (s.withRx (s.rx.produced hd m n a k lg)) = .ok (d, u.withRx (u.rx.produced hd m n a k lg')) := by
  have hc := drainLine_cases h
  cases l with
  | advance => exact absurd rfl hl
  | test =>
    obtain ⟨hlt, rfl, rfl⟩ := hc
    refine ⟨lg, ?_⟩
    rw [drainLine, tailLen_ok (s := u.withRx (u.rx.produced hd m n a k lg)) hlt, hlen rfl]
    rfl
  | read =>
    obtain ⟨hlt, hpos, rfl, rfl⟩ := hc
    refine ⟨lg, ?_⟩
    rw [drainLine, tailByte_ok (s := u.withRx (u.rx.produced hd m n a k lg)) hlt hpos, hbyte rfl]
    rfl
  | branch b => cases h; exact ⟨lg, rfl⟩
  | parse =>
    obtain ⟨hidx, rfl, rfl⟩ := hc
    refine ⟨.parse (lineOf c s) :: lg, ?_⟩
    rw [drainLine, lineBytes_ok (s := s.withRx _) hidx]
    rfl
  | run cmd rest ok =>
    obtain ⟨hrun, rfl⟩ := hc
    obtain ⟨new, _, hblind⟩ := runCmd_blind hrun
    refine ⟨new ++ lg, ?_⟩
    rw [drainLine, hblind, bind_ok, hblind.run hrun]
    rfl
  | reply ok =>
    obtain ⟨rfl, rfl⟩ := hc
    obtain ⟨new, _, hsend⟩ := utxSend_blind c [if ok then ack else nak] s
    refine ⟨new ++ lg, ?_⟩
    have hrx : (utxSend c [if ok then ack else nak] s).2.rx = s.rx.adding new := congrArg State.rx (hsend s.rx)
    rw [drainLine, hsend, hrx]
    rfl
  | clear => cases h; exact ⟨lg, rfl⟩
  | overflow => cases h; exact ⟨lg, rfl⟩
  | append b =>
    obtain ⟨hroom, rfl, rfl⟩ := hc
    refine ⟨lg, ?_⟩
    rw [drainLine, appendByte_ok (s := s.withRx _) hroom]
    rfl
  | next => cases h; exact ⟨lg, rfl⟩
  | ret => cases h; exact ⟨lg, rfl⟩

theorem drainLine_withProducer (hl : l ≠ .advance) (h : drainLine c l s = .ok (d, u))
    (ht : ({ t with log := [] } : State) = s.withProducer t) (hlen : l = .test → tailLenOf c t = tailLenOf c s)
    (hbyte : l = .read → tailByteOf c t = tailByteOf c s) :
    ∃ w, drainLine c l t = .ok (d, w) ∧ ({ w with log := [] } : State) = u.withProducer t := by
  have hrx : t = s.withRx (s.rx.produced t.urxHead t.urxMem t.urxLen t.urxArmed t.evt.usbRxBufferFull t.log) :=
    congrArg (fun x : State => ({ x with log := t.log } : State)) ht
  obtain ⟨lg', hw⟩ := drainLine_produced (hd := t.urxHead) (m := t.urxMem) (n := t.urxLen) (a := t.urxArmed)
    (k := t.evt.usbRxBufferFull) (lg := t.log) hl h (by rw [← hrx]; exact hlen) (by rw [← hrx]; exact hbyte)
  rw [← hrx] at hw
  exact ⟨_, hw, rfl⟩

/-- A chunk leaves the length of the slot that is scanned as it was. -/
theorem tailLenOf_chunk {bytes : List Byte} (hinv : s.Inv Config.impl) (hscan : s.urxScan = true)
    (h : exec (.urxChunk bytes) s = .next t) : tailLenOf Config.impl t = tailLenOf Config.impl s := by
  cases exec_effect h with
  | chunkLost => rfl
  | chunkCaptured =>
    have hne : s.urxTail ≠ s.urxHead := hinv.scan.nonempty hscan
    exact congrArg (Option.getD · _) (Memory.read_write_other _ _ hne)

/-- A chunk leaves the bytes of the slot that is scanned as they were. -/
theorem tailByteOf_chunk {bytes : List Byte} (hinv : s.Inv Config.impl) (hscan : s.urxScan = true)
    (hpos : s.urxPos < Config.impl.app) (h : exec (.urxChunk bytes) s = .next t) :
    tailByteOf Config.impl t = tailByteOf Config.impl s := by
  have hne : s.urxTail ≠ s.urxHead := hinv.scan.nonempty hscan
  cases exec_effect h with
  | chunkLost _ a _ short armed =>
    obtain rfl := hinv.urx.armed_head a armed
    exact congrArg (Option.getD · _) (urxMem_read_other hne hpos short _)
  | chunkCaptured _ a _ short armed =>
    obtain rfl := hinv.urx.armed_head a armed
    exact congrArg (Option.getD · _) (urxMem_read_other hne hpos short _)

end Scan

/-- Settles O47: the scan does the same after the chunk, and the chunk the same after the scan's micro-step. -/
theorem chunkCommutesWithTheScan : Obligations.ChunkCommutesWithTheScan := by
  intro bytes i l s t u hinv hi hl hne hchunk hscan
  obtain ⟨d, s', p, hline, rfl, hexec⟩ := exec_scanLine hi hl hscan
  have hprod := exec_urxChunk_producer hchunk
  obtain ⟨w, hw, hweq⟩ := drainLine_withProducer hne hline hprod
    (fun he => tailLenOf_chunk hinv (hinv.scan.open hl (by rw [he]; rfl)) hchunk)
    (fun he => tailByteOf_chunk hinv (hinv.scan.open hl (by rw [he]; rfl))
      (by rw [he] at hline; exact (drainLine_cases hline).2.1) hchunk)
  have hring : goOn p s' = { goOn p s' with
      urxHead := s.urxHead, urxTail := s.urxTail, urxMem := s.urxMem, urxLen := s.urxLen, urxArmed := s.urxArmed
      evt := { (goOn p s').evt with usbRxBufferFull := s.evt.usbRxBufferFull } } := by
    rw [← drainLine_urxTail hne hline, drainLine_frame hline]
    cases p <;> rfl
  obtain ⟨v, hv, hveq⟩ := exec_urxChunk_elsewhere hchunk hring
  have hpos : t.pos = s.pos := by
    change ({ t with log := [] } : State).pos = _
    rw [hprod]
    rfl
  exact ⟨_, v, hexec t w hpos hw, hv, (goOn_withProducer p hweq).trans hveq.symm⟩

end Sys2Proof.Machine
end

section
/-! PROOFS. The foreground left to itself comes to an end of what it is at (spec/44_usbrx.md R198, spec/46_loop.md R231): a
bound on the micro-steps left decreases with each of them. -/

namespace Sys2Proof.Machine

/-- From `P`, where every step goes on in `P` with less left or comes to `Q`, so many steps come to `Q`. -/
theorem run_until {P Q : State → Prop} {left : State → Nat}
    (h : ∀ s, P s → ∃ t, step s = .next t ∧ (Q t ∧ 0 < left s ∨ P t ∧ left t < left s)) (s : State) (hs : P s) :
    ∃ n t, 0 < n ∧ n ≤ left s ∧ Host.Core.run Sys2Proof.core n s = .next t ∧ Q t := by
  induction hn : left s using Nat.strongRecOn generalizing s with
  | _ k ih =>
    obtain ⟨t, hstep, ⟨hq, hpos⟩ | ⟨hp, hlt⟩⟩ := h s hs
    · exact ⟨1, t, Nat.one_pos, by omega, run_succ_of_next hstep, hq⟩
    · obtain ⟨n, u, _, hle, hrun, hq⟩ := ih (left t) (hn ▸ hlt) t hp rfl
      exact ⟨n + 1, u, Nat.succ_pos n, by omega, (run_succ_of_next hstep).trans hrun, hq⟩

theorem step_of_drain {s : State} {l : DrainLine} (hidle : s.inbox = []) (hp : s.pos = .drain l) :
    step s = execUrxDrain s := by
  rw [step_of_idle hidle]
  simp only [fgTurn, outstanding, hp]
  rfl

theorem step_of_loop {s : State} {l : LoopLine} (hidle : s.inbox = []) (hp : s.pos = .loop l) :
    step s = execLoopIter s := by
  rw [step_of_idle hidle]
  simp only [fgTurn, outstanding, hp]
  rfl

/-! ### The scan -/

/-- The bytes of the tail slot from the one the scan has come to. -/
def bytesLeft (s : State) : Nat := tailLenOf Config.impl s - s.urxPos

/-- The micro-steps left from a line on, at most, with `left` bytes left and at most `B` operations for a line. -/
def DrainLine.cost (B left : Nat) : DrainLine → Nat
  | .test => left * (7 + B) + 3
  | .read => (left - 1) * (7 + B) + (B + 9)
  | .branch _ => (left - 1) * (7 + B) + (B + 8)
  | .parse => (left - 1) * (7 + B) + (B + 7)
  | .run _ rest _ => (left - 1) * (7 + B) + (rest.length + 7)
  | .reply _ => (left - 1) * (7 + B) + 6
  | .clear => (left - 1) * (7 + B) + 5
  | .overflow => (left - 1) * (7 + B) + 5
  | .append _ => (left - 1) * (7 + B) + 5
  | .next => (left - 1) * (7 + B) + 4
  | .advance => 2
  | .ret => 1

theorem DrainLine.cost_pos (B left : Nat) (l : DrainLine) : 0 < l.cost B left := by
  cases l <;> exact Nat.succ_pos _

theorem afterParse_cost (B left : Nat) (cmds : List Cmd) (ok : Bool) :
    (afterParse cmds ok).cost B left = (left - 1) * (7 + B) + (cmds.length + 6) := by
  cases cmds with
  | nil => rfl
  | cons cmd rest => exact congrArg ((left - 1) * (7 + B) + ·) (by rw [List.length_cons])

/-- The pass of a byte is at most `7 + B` of what is left. -/
theorem left_mul {left : Nat} (B : Nat) (h : 0 < left) : left * (7 + B) = (left - 1) * (7 + B) + (7 + B) := by
  rw [← Nat.succ_mul, Nat.succ_eq_add_one, Nat.sub_add_cancel h]

theorem DrainLine.scanning_of_inByte {l : DrainLine} (h : l.inByte = true) : l.scanning = true := by
  cases l with
  | ret => cases h
  | _ => rfl

theorem afterParse_ne_ret (cmds : List Cmd) (ok : Bool) : afterParse cmds ok ≠ .ret := by
  cases cmds <;> exact nofun

section Scan
variable {B : Nat} {s t : State} {l l' : DrainLine}

theorem bytesLeft_pos (h : s.Inv Config.impl) (hl : s.pos.drainLine = some l) (hb : l.inByte = true) :
    0 < bytesLeft s := by
  have hscan : s.urxScan = true := h.scan.open hl (DrainLine.scanning_of_inByte hb)
  obtain ⟨n, hn, _, hlen, _⟩ := tailLen_live h hscan
  have hlt := h.scan.pos_lt (by simp only [Pos.inByte, hl, Option.any_some, hb]) n hn
  rw [bytesLeft, hlen]
  omega

theorem bytesLeft_congr (ht : t = { t with
      urxLen := s.urxLen, urxTail := s.urxTail, urxPos := s.urxPos, resets := s.resets }) : bytesLeft t = bytesLeft s := by
  rw [ht]; rfl

/-- A line that goes on at another one leaves less to be done. -/
theorem drainLine_cost (hB : ∀ line, line.length ≤ Config.impl.mtu → (Config.impl.parse line).1.length ≤ B)
    (h : s.Inv Config.impl) (hl : s.pos.drainLine = some l) (hd : drainLine Config.impl l s = .ok (some l', t)) :
    l'.cost B (bytesLeft t) < l.cost B (bytesLeft s) := by
  have hc := drainLine_cases hd
  have hpos := bytesLeft_pos h hl
  cases l with
  | test =>
    obtain ⟨_, hl', rfl⟩ := hc
    split at hl'
    · next hlt =>
      cases hl'
      have hmul := left_mul B (show 0 < bytesLeft t from Nat.sub_pos_of_lt hlt)
      simp only [DrainLine.cost]
      omega
    · cases hl'
      simp only [DrainLine.cost]
      omega
  | read => obtain ⟨_, _, hl', rfl⟩ := hc; cases hl'; simp only [DrainLine.cost]; omega
  | branch b =>
    obtain ⟨⟨_, hl'⟩ | ⟨_, _, hl'⟩ | ⟨_, _, hl'⟩, rfl⟩ := hc <;> cases hl' <;> simp only [DrainLine.cost] <;> omega
  | parse =>
    obtain ⟨hidx, hl', rfl⟩ := hc
    cases hl'
    have hle := hB (lineOf Config.impl s) (by simpa [lineOf] using hidx)
    rw [afterParse_cost]
    simp only [DrainLine.cost]
    change (bytesLeft s - 1) * (7 + B) + _ < _
    omega
  | run cmd rest ok =>
    obtain ⟨hrun, hl'⟩ := hc
    cases hl'
    rw [afterParse_cost, bytesLeft_congr (s := s) (by rw [runCmd_frame hrun])]
    simp only [DrainLine.cost]
    omega
  | reply ok =>
    obtain ⟨hl', rfl⟩ := hc
    cases hl'
    rw [bytesLeft_congr (s := s) (by rw [utxSend_frame])]
    simp only [DrainLine.cost]
    omega
  | clear => cases hd; simp only [DrainLine.cost]; exact Nat.lt_succ_self _
  | overflow => cases hd; simp only [DrainLine.cost]; exact Nat.lt_succ_self _
  | append b => obtain ⟨_, hl', rfl⟩ := hc; cases hl'; simp only [DrainLine.cost]; exact Nat.lt_succ_self _
  | next =>
    cases hd
    have hleft : bytesLeft { s with urxPos := s.urxPos + 1 } = bytesLeft s - 1 := Nat.sub_add_eq _ _ _
    simp only [DrainLine.cost, hleft]
    omega
  | advance => cases hd; simp only [DrainLine.cost]; omega
  | ret => cases hd

/-- What is left at a line is within the bound for the bytes left. -/
theorem DrainLine.cost_le (hB : ∀ line, line.length ≤ Config.impl.mtu → (Config.impl.parse line).1.length ≤ B)
    (h : s.Inv Config.impl) (hl : s.pos.drainLine = some l) : l.cost B (bytesLeft s) ≤ bytesLeft s * (7 + B) + 3 := by
  have hmul (hb : l.inByte = true) := left_mul B (bytesLeft_pos h hl hb)
  cases l with
  | test => exact Nat.le_refl _
  | advance => simp only [DrainLine.cost]; omega
  | ret => simp only [DrainLine.cost]; omega
  | run cmd rest ok =>
    obtain ⟨line, _, hlen, hsuffix, _⟩ := h.cmds (cmd :: rest) ok hl
    have hle := hsuffix.length_le.trans (hB line hlen)
    rw [List.length_cons] at hle
    rw [hmul rfl]
    simp only [DrainLine.cost]
    omega
  | _ => rw [hmul rfl]; simp only [DrainLine.cost]; omega

/-- The drain returns from its last line alone. -/
theorem drainLine_returns (hd : drainLine Config.impl l s = .ok (none, t)) : l = .ret ∧ t = s := by
  have hc := drainLine_cases hd
  cases l with
  | ret => exact ⟨rfl, hc.2⟩
  | test => cases hc.2.1
  | read => cases hc.2.2.1
  | parse => cases hc.2.1
  | run => cases hc.2
  | append => cases hc.2.1
  | branch => obtain ⟨⟨_, he⟩ | ⟨_, _, he⟩ | ⟨_, _, he⟩, _⟩ := hc <;> cases he
  | _ => cases hc.1

/-- The last line follows the tail advance alone. -/
theorem drainLine_ret_iff (hd : drainLine Config.impl l s = .ok (some l', t)) : l' = .ret ↔ l = .advance := by
  have hc := drainLine_cases hd
  cases l with
  | advance => obtain ⟨hl', _⟩ := hc; cases hl'; exact ⟨fun _ => rfl, fun _ => rfl⟩
  | test => obtain ⟨_, hl', _⟩ := hc; split at hl' <;> cases hl' <;> exact ⟨nofun, nofun⟩
  | read => obtain ⟨_, _, hl', _⟩ := hc; cases hl'; exact ⟨nofun, nofun⟩
  | branch => obtain ⟨⟨_, hl'⟩ | ⟨_, _, hl'⟩ | ⟨_, _, hl'⟩, _⟩ := hc <;> cases hl' <;> exact ⟨nofun, nofun⟩
  | parse => obtain ⟨_, hl', _⟩ := hc; cases hl'; exact ⟨fun he => absurd he (afterParse_ne_ret _ _), nofun⟩
  | run cmd rest ok => obtain ⟨_, hl'⟩ := hc; cases hl'; exact ⟨fun he => absurd he (afterParse_ne_ret _ _), nofun⟩
  | append b => obtain ⟨_, hl', _⟩ := hc; cases hl'; exact ⟨nofun, nofun⟩
  | ret => cases hc.1
  | _ => obtain ⟨hl', _⟩ := hc; cases hl'; exact ⟨nofun, nofun⟩

end Scan

/-- A drain of its own is at a line, the head and the tail it is to leave being `head` and `tail`. -/
def Draining (head tail : Nat) (s : State) : Prop :=
  ∃ l, s.Inv Config.impl ∧ s.inbox = [] ∧ s.pos = .drain l ∧ s.urxHead = head ∧
    (if l = .ret then s.urxTail else ringNext Config.impl.nRx s.urxTail) = tail

/-- The drain has returned. -/
def Drained (head tail : Nat) (t : State) : Prop :=
  t.pos = .rest ∧ t.urxScan = false ∧ t.urxHead = head ∧ t.urxTail = tail ∧ t.log.head? = some (.result .fgp .ok)

/-- The micro-steps left of a drain, at most. -/
def drainCost (B : Nat) (s : State) : Nat := s.pos.drainLine.elim 0 (DrainLine.cost B (bytesLeft s))

/-- A step of a drain left to itself. -/
theorem draining_step {B head tail : Nat}
    (hB : ∀ line, line.length ≤ Config.impl.mtu → (Config.impl.parse line).1.length ≤ B) (s : State)
    (h : Draining head tail s) :
    ∃ t, step s = .next t ∧
      (Drained head tail t ∧ 0 < drainCost B s ∨ Draining head tail t ∧ drainCost B t < drainCost B s) := by
  obtain ⟨l, hinv, hidle, hp, rfl, rfl⟩ := h
  have hl : s.pos.drainLine = some l := by rw [hp]; rfl
  have hcost : drainCost B s = l.cost B (bytesLeft s) := by rw [drainCost, hl]; rfl
  obtain ⟨t, ht, htinv⟩ := execUrxDrain_inv hinv (by rw [hp]; exact nofun)
  refine ⟨t, (step_of_drain hidle hp).trans ht, ?_⟩
  have hframe := execUrxDrain_frame ht
  simp only [Frame] at hframe
  have hhead : t.urxHead = s.urxHead := by rw [hframe]
  obtain ⟨d, s', ⟨hrest, _⟩ | ⟨x, hx, hline⟩, hend⟩ := execUrxDrain_next ht
  · rw [hp] at hrest; cases hrest
  rw [hp] at hx
  cases hx
  obtain ⟨rfl, rfl⟩ | ⟨l', rfl, rfl⟩ := hend
  · obtain ⟨rfl, rfl⟩ := drainLine_returns hline
    exact .inl ⟨⟨rfl, htinv.scan.scan_eq, rfl, rfl, rfl⟩, hcost ▸ DrainLine.cost_pos _ _ _⟩
  · refine .inr ⟨⟨l', htinv, (exec_inbox (i := .urxDrain) ht).trans hidle, rfl, hhead, ?_⟩, ?_⟩
    · by_cases hadv : l = .advance
      · obtain rfl := hadv
        cases hline
        exact congrArg State.urxTail (advanceTail_eq Config.impl s)
      · have hret : l ≠ .ret := by rintro rfl; cases hline
        rw [if_neg (mt (drainLine_ret_iff hline).mp hadv), if_neg hret]
        have htail : s'.urxTail = s.urxTail := drainLine_urxTail hadv hline
        exact congrArg (ringNext _) htail
    · have hlt := drainLine_cost hB hinv hl hline
      rw [hcost]
      exact hlt

/-- Settles O44: the bound decreases with each micro-step. -/
theorem drainFinishesInBoundedSteps : Obligations.DrainFinishesInBoundedSteps := by
  intro B hB s l hinv hidle hp
  obtain ⟨n, t, hn, hle, hrun, hpos, hscan, hhead, htail, hlog⟩ :=
    run_until (draining_step hB) s ⟨l, hinv, hidle, hp, rfl, rfl⟩
  have hl : s.pos.drainLine = some l := by rw [hp]; rfl
  have hcost : drainCost B s = l.cost B (bytesLeft s) := by rw [drainCost, hl]; rfl
  exact ⟨n, t, hn, hle.trans (hcost ▸ DrainLine.cost_le hB hinv hl), hrun, hpos, hscan, hhead, htail, hlog⟩

/-! ### An iteration -/

/-- The micro-steps left of an iteration from a line on, at most, with `A` bytes in a slot at most. -/
def LoopLine.cost (A B left : Nat) : LoopLine → Nat
  | .toCanRx => A * (7 + B) + 14
  | .pend => A * (7 + B) + 13
  | .pended _ => A * (7 + B) + 12
  | .recv => A * (7 + B) + 11
  | .received _ => A * (7 + B) + 10
  | .format _ => A * (7 + B) + 9
  | .send _ => A * (7 + B) + 8
  | .toUsbRx => A * (7 + B) + 7
  | .drain none => A * (7 + B) + 6
  | .drain (some d) => d.cost B left + 2
  | .toTx => 2
  | .ret => 1

theorem LoopLine.cost_pos (A B left : Nat) (l : LoopLine) : 0 < l.cost A B left := by
  cases l with
  | drain d => cases d <;> exact Nat.succ_pos _
  | _ => exact Nat.succ_pos _

section Loop
variable {B : Nat} {s t : State} {l l' : LoopLine}

/-- A line that goes on at another one leaves less to be done. -/
theorem loopLine_cost (hB : ∀ line, line.length ≤ Config.impl.mtu → (Config.impl.parse line).1.length ≤ B)
    (h : s.Inv Config.impl) (hl : s.pos = .loop l) (hd : loopLine Config.impl l s = .ok (some l', t)) :
    l'.cost Config.impl.app B (bytesLeft t) < l.cost Config.impl.app B (bytesLeft s) := by
  have hc := loopLine_cases hd
  cases l with
  | drain d =>
    cases d with
    | none =>
      obtain ⟨hl', rfl⟩ := hc
      cases he : ringEmpty s.urxHead s.urxTail with
      | true =>
        rw [show drainBegin s = (none, s) from if_pos he] at hl'
        cases hl'
        simp only [afterDrain, LoopLine.cost]
        omega
      | false =>
        rw [show drainBegin s = (some .test, { s with urxScan := true, urxPos := 0 }) from
          if_neg (by rw [he]; decide)] at hl' ⊢
        cases hl'
        obtain ⟨n, hn, hle, _⟩ := h.urx.live _ h.urx.tail_lt (ringLive_tail h.urx.head_lt h.urx.tail_lt he)
        have hleft : bytesLeft { s with urxScan := true, urxPos := 0 } = n := by
          simp only [bytesLeft, tailLenOf, Memory.readOr, hn, Option.getD_some, Nat.sub_zero]
        have hmul := Nat.mul_le_mul_right (7 + B) hle
        simp only [afterDrain, LoopLine.cost, DrainLine.cost, hleft]
        omega
    | some d =>
      obtain ⟨d', hd', hl'⟩ := hc
      cases hl'
      cases d' with
      | none =>
        have hpos := d.cost_pos B (bytesLeft s)
        simp only [afterDrain, LoopLine.cost]
        omega
      | some d' => exact Nat.add_lt_add_right (drainLine_cost hB h (by rw [hl]; rfl) hd') 2
  | pended p => obtain ⟨hl', rfl⟩ := hc; cases hl'; split <;> simp only [LoopLine.cost] <;> omega
  | received r =>
    obtain ⟨⟨f, _, hl'⟩ | hl', rfl⟩ := hc <;> cases hl' <;> simp only [LoopLine.cost] <;> omega
  | ret => cases hc.1
  | _ => obtain ⟨hl', rfl⟩ := hc; cases hl'; simp only [LoopLine.cost]; omega

theorem loopLine_returns (hd : loopLine Config.impl l s = .ok (none, t)) : t = s := by
  have hc := loopLine_cases hd
  cases l with
  | ret => exact hc.2
  | drain d =>
    cases d with
    | none => cases hc.1
    | some d => obtain ⟨_, _, he⟩ := hc; cases he
  | received r => obtain ⟨⟨_, _, he⟩ | he, _⟩ := hc <;> cases he
  | _ => cases hc.1

end Loop

/-- An iteration is at a line. -/
def Iterating (s : State) : Prop := s.Inv Config.impl ∧ s.inbox = [] ∧ ∃ l, s.pos = .loop l

/-- The iteration has returned. -/
def Iterated (t : State) : Prop := t.Inv Config.impl ∧ t.pos = .rest ∧ t.log.head? = some (.result .fgp .ok)

/-- The micro-steps left of an iteration, at most. -/
def iterationCost (B : Nat) (s : State) : Nat :=
  match s.pos with
  | .loop l => l.cost Config.impl.app B (bytesLeft s)
  | _ => 0

/-- A step of an iteration left to itself. -/
theorem iterating_step {B : Nat} (hB : ∀ line, line.length ≤ Config.impl.mtu → (Config.impl.parse line).1.length ≤ B)
    (s : State) (h : Iterating s) :
    ∃ t, step s = .next t ∧
      (Iterated t ∧ 0 < iterationCost B s ∨ Iterating t ∧ iterationCost B t < iterationCost B s) := by
  obtain ⟨hinv, hidle, l, hp⟩ := h
  have hcost : iterationCost B s = l.cost Config.impl.app B (bytesLeft s) := by simp only [iterationCost, hp]
  obtain ⟨t, ht, htinv⟩ := execLoopIter_inv hinv (by rw [hp]; exact nofun)
  refine ⟨t, (step_of_loop hidle hp).trans ht, ?_⟩
  obtain ⟨d, s', ⟨hrest, _⟩ | ⟨x, hx, hline⟩, hend⟩ := execLoopIter_next ht
  · rw [hp] at hrest; cases hrest
  rw [hp] at hx
  cases hx
  obtain ⟨rfl, rfl⟩ | ⟨l', rfl, rfl⟩ := hend
  · exact .inl ⟨⟨htinv, rfl, rfl⟩, hcost ▸ LoopLine.cost_pos _ _ _ _⟩
  · have hlt := loopLine_cost hB hinv hp hline
    exact .inr ⟨⟨htinv, (exec_inbox (i := .loopIter) ht).trans hidle, l', rfl⟩, by rw [hcost]; exact hlt⟩

/-- Settles O53: the first micro-step starts the iteration, and the bound decreases with each further one. -/
theorem iterationFinishesInBoundedSteps : Obligations.IterationFinishesInBoundedSteps := by
  intro B hB s hinv hidle hp harmed
  obtain ⟨a, harmed⟩ := Option.ne_none_iff_exists'.mp harmed
  obtain ⟨s1, _, hexec⟩ := exec_loop_begin hp hinv.ctx.tail_lt
  have hstep : step s = .next { s1 with pos := .loop .toCanRx } := by
    rw [step_of_idle hidle]
    simp only [fgTurn, outstanding, hp, harmed]
    exact hexec
  have hiter : Iterating { s1 with pos := .loop .toCanRx } :=
    ⟨(exec_sound .loopIter hinv).inv hexec, (exec_inbox hexec).trans hidle, _, rfl⟩
  obtain ⟨n, t, _, hle, hrun, htinv, hpos, hlog⟩ := run_until (iterating_step hB) _ hiter
  have hphase := htinv.scan.phase_eq
  have hscan := htinv.scan.scan_eq
  rw [hpos] at hphase hscan
  exact ⟨n + 1, t, Nat.succ_pos n, Nat.succ_le_succ hle, (run_succ_of_next hstep).trans hrun, hpos, hphase, hscan, hlog⟩

end Sys2Proof.Machine
end

section
/-! PROOFS. Bytes one after the other (spec/44_usbrx.md R197, R201): a run without a terminator, a line, and what the drains of
all captured chunks come to. -/

namespace Sys2Proof.Machine

/-! ### The bytes alone -/

/-- `s` after `n` bytes without a terminator since the line was last empty: the line holds what does not fill
`SLCAN_MTU + 1`, and each filling was an overflow. -/
def lineFilled (c : Config) (n : Nat) (m : Memory Byte) (s : State) : State :=
  { s with
    lineIdx := n % (c.mtu + 1), lineMem := m
    evt := { s.evt with usbLineOverflow := (s.evt.usbLineOverflow + n / (c.mtu + 1)) % 2 ^ c.cntW } }

section Bytes
variable {c : Config} {s t u : State}

theorem scanAll_append (c : Config) (as bs : List Byte) (s : State) :
    scanAll c (as ++ bs) s = (scanAll c as s).bind (scanAll c bs) := by
  induction as generalizing s with
  | nil => rfl
  | cons a as ih =>
    simp only [List.cons_append, scanAll]
    cases scanByte c a s with
    | error => rfl
    | ok s1 => exact ih s1

/-- A run without a terminator. -/
theorem scanAll_data (c : Config) (bs : List Byte) (s : State) (hidx : s.lineIdx ≤ c.mtu)
    (hevt : s.evt.get .usbLineOverflow < 2 ^ c.cntW) (hb : ∀ b ∈ bs, b ≠ term) :
    ∃ m, scanAll c bs s = .ok (lineFilled c (s.lineIdx + bs.length) m s) := by
  induction bs generalizing s with
  | nil =>
    refine ⟨s.lineMem, congrArg Except.ok ?_⟩
    have hdiv : s.lineIdx / (c.mtu + 1) = 0 := Nat.div_eq_of_lt (Nat.lt_succ_of_le hidx)
    have hmod : s.lineIdx % (c.mtu + 1) = s.lineIdx := Nat.mod_eq_of_lt (Nat.lt_succ_of_le hidx)
    have hkept : s.evt.usbLineOverflow % 2 ^ c.cntW = s.evt.usbLineOverflow := Nat.mod_eq_of_lt hevt
    simp only [lineFilled, List.length_nil, Nat.add_zero, hdiv, hmod, hkept]
  | cons b bs ih =>
    obtain ⟨hb, hbs⟩ := List.forall_mem_cons.mp hb
    obtain hfull | hroom := Nat.eq_or_lt_of_le hidx
    · obtain ⟨m, hm⟩ := ih (dropLine c s) (Nat.zero_le _) (Nat.mod_lt _ (Nat.two_pow_pos _)) hbs
      refine ⟨m, ?_⟩
      rw [scanAll, scanByte_overflow hb hfull, bind_ok, hm]
      have hlen : s.lineIdx + (b :: bs).length = 0 + bs.length + (c.mtu + 1) := by
        rw [List.length_cons]; omega
      have hcount : ((s.evt.usbLineOverflow + 1) % 2 ^ c.cntW + (0 + bs.length) / (c.mtu + 1)) % 2 ^ c.cntW =
          (s.evt.usbLineOverflow + ((0 + bs.length) / (c.mtu + 1) + 1)) % 2 ^ c.cntW := by
        rw [Nat.mod_add_mod, Nat.add_assoc, Nat.add_comm 1]
      simp only [lineFilled, hlen, Nat.add_mod_right, Nat.add_div_right _ (Nat.succ_pos _), ← hcount]
      rfl
    · obtain ⟨m, hm⟩ := ih (byteAppended b s) hroom hevt hbs
      refine ⟨m, ?_⟩
      rw [scanAll, scanByte_append hb hroom, bind_ok, hm]
      have hlen : s.lineIdx + (b :: bs).length = s.lineIdx + 1 + bs.length := by
        rw [List.length_cons]; omega
      rw [hlen]
      rfl

/-- Bytes without a terminator for which the line has room. -/
theorem scanAll_line (c : Config) (bs : List Byte) (s : State) (hroom : s.lineIdx + bs.length ≤ c.mtu)
    (hb : ∀ b ∈ bs, b ≠ term) :
    scanAll c bs s = .ok { s with
      lineIdx := s.lineIdx + bs.length, lineMem := s.lineMem.writeAll s.lineIdx bs } := by
  induction bs generalizing s with
  | nil => rfl
  | cons b bs ih =>
    obtain ⟨hb, hbs⟩ := List.forall_mem_cons.mp hb
    rw [List.length_cons] at hroom
    have hlen : s.lineIdx + (b :: bs).length = s.lineIdx + 1 + bs.length := by
      rw [List.length_cons]; omega
    have hrest : (byteAppended b s).lineIdx + bs.length ≤ c.mtu := by
      simp only [byteAppended]; omega
    rw [scanAll, scanByte_append hb (by omega), bind_ok, ih (byteAppended b s) hrest hbs, hlen]
    rfl

theorem scanAll_resets {bs : List Byte} (h : scanAll c bs s = .ok t) : t.resets = s.resets := by
  induction bs generalizing s with
  | nil => cases h; rfl
  | cons b bs ih =>
    simp only [scanAll, bind_eq_ok] at h
    obtain ⟨s1, h1, h2⟩ := h
    rw [ih h2, scanByte_frame h1]

end Bytes

/-! ### The bytes of a slot, on the machine -/

section Slot
variable {s : State}

theorem length_slotBytes (s : State) : (slotBytes Config.impl s.urxTail s).length = tailLenOf Config.impl s :=
  Memory.length_readAll _ _ _ _

/-- The bytes of the tail slot begin with the one the scan has come to. -/
theorem slotBytes_take_succ {k : Nat} (hlt : s.urxPos < tailLenOf Config.impl s) :
    ((slotBytes Config.impl s.urxTail s).drop s.urxPos).take (k + 1) =
      tailByteOf Config.impl s :: ((slotBytes Config.impl s.urxTail s).drop (s.urxPos + 1)).take k := by
  rw [List.drop_eq_getElem_cons (by rw [length_slotBytes]; exact hlt), List.take_succ_cons]
  congr 1
  simp only [slotBytes, Memory.getElem_readAll, tailByteOf, urxAddr, Nat.add_zero]

/-- `k` bytes of the tail slot, from the one the scan has come to. -/
theorem execN_scan (k : Nat) (s : State) (h : s.Inv Config.impl) (hp : s.pos = .drain .test)
    (hk : s.urxPos + k ≤ tailLenOf Config.impl s) :
    ∃ n t, scanAll Config.impl (((slotBytes Config.impl s.urxTail s).drop s.urxPos).take k) s = .ok t ∧
      execN .urxDrain n s = .next { t with urxPos := s.urxPos + k } ∧
      ((∀ b ∈ ((slotBytes Config.impl s.urxTail s).drop s.urxPos).take k, b ≠ term) → n = 5 * k) := by
  induction k generalizing s with
  | zero => exact ⟨0, s, by rw [List.take_zero]; rfl, rfl, fun _ => rfl⟩
  | succ k ih =>
    have hlt : s.urxPos < tailLenOf Config.impl s := by omega
    obtain ⟨n1, t1, hbyte, hrun1, hn1⟩ := execN_scanByte h hp hlt
    have hframe := scanByte_frame hbyte
    have hlen : tailLenOf Config.impl { t1 with urxPos := s.urxPos + 1 } = tailLenOf Config.impl s := by
      rw [hframe]; rfl
    have hslot : slotBytes Config.impl t1.urxTail { t1 with urxPos := s.urxPos + 1 } = slotBytes Config.impl s.urxTail s := by
      rw [hframe]; rfl
    obtain ⟨n2, t2, hscan, hrun2, hn2⟩ := ih { t1 with urxPos := s.urxPos + 1 } (execN_inv h hrun1)
      (by rw [hframe]; exact hp) (by rw [hlen]; exact (Nat.add_right_comm _ _ _).trans_le hk)
    rw [hslot] at hscan hn2
    obtain ⟨new, _, hblind⟩ := scanAll_blind hscan
    have hscan' : scanAll Config.impl (((slotBytes Config.impl s.urxTail s).drop (s.urxPos + 1)).take k) t1 =
        .ok { t2 with urxPos := t1.urxPos } := hblind.withUrxPos hscan t1.urxPos
    refine ⟨n1 + n2, { t2 with urxPos := t1.urxPos }, ?_, ?_, fun hb => ?_⟩
    · rw [slotBytes_take_succ hlt, scanAll, hbyte, bind_ok, hscan']
    · rw [execN_add hrun1, hrun2, Nat.add_right_comm, Nat.add_assoc]
    · rw [slotBytes_take_succ hlt] at hb
      obtain ⟨hb1, hb2⟩ := List.forall_mem_cons.mp hb
      rw [hn1 hb1, hn2 hb2]
      omega

end Slot

end Sys2Proof.Machine
end

section
/-! PROOFS. The drains of all captured chunks, one after the other (spec/44_usbrx.md R197, R201, R205): what they come to is
what the chunks' bytes come to, wherever the chunks were cut. -/

namespace Sys2Proof.Machine

/-- The scan of the tail slot, open and about to begin. -/
def scanOpened (s : State) : State := { s with urxScan := true, urxPos := 0, pos := .drain .test }

/-- The receiver after a drain: its tail and its scan moved on, and `new` observed. -/
def Rx.drained (r : Rx) (tail upos : Nat) (new : List Obs) : Rx :=
  { r with tail := tail, upos := upos, log := new ++ r.log }

theorem State.withRx_withRx (s : State) (r r' : Rx) : (s.withRx r).withRx r' = s.withRx r' := rfl

theorem State.rx_withRx (s : State) (r : Rx) : (s.withRx r).rx = r := rfl

/-- What was observed of a drain, its result left out. -/
theorem filter_onDevice {new : List Obs} (h : ∀ o ∈ new, o.onDevice = true) :
    new.filter Obs.onDevice = new ∧ new.filter (fun o => !o.onDevice) = [] :=
  ⟨List.filter_eq_self.mpr h, List.filter_eq_nil_iff.mpr fun o ho => by simp [h o ho]⟩

section Drains
variable {s t : State}

/-- The end of a drain: the test finds the whole length scanned, the tail advances, the drain returns. -/
theorem execN_release (hp : s.pos = .drain .test) (ht : s.urxTail < Config.impl.nRx)
    (hdone : tailLenOf Config.impl s ≤ s.urxPos) :
    execN .urxDrain 3 s = .next (({ s with
      urxTail := ringNext Config.impl.nRx s.urxTail, urxScan := false, pos := .rest } : State).emit (.result .fgp .ok)) := by
  have htest := exec_drain_test hp ht
  rw [if_neg (Nat.not_lt.mpr hdone)] at htest
  rw [execN_succ htest, execN_succ (exec_drain_advance rfl), execN_succ (exec_urxDrain_return rfl)]
  rfl

/-- The drain of the oldest chunk. -/
theorem execN_drain_one (h : s.Inv Config.impl) (hp : s.pos = .rest) (he : ringEmpty s.urxHead s.urxTail = false) :
    ∃ (n : Nat) (x : State) (new : List Obs),
      scanAll Config.impl (slotBytes Config.impl s.urxTail s) s = .ok (x.withRx (s.rx.adding new)) ∧
      (∀ o ∈ new, o.onDevice = true) ∧
      execN .urxDrain n s = .next (x.withRx (s.rx.drained (ringNext Config.impl.nRx s.urxTail) (tailLenOf Config.impl s)
        (.result .fgp .ok :: new))) := by
  have hclosed : s.urxScan = false := by rw [h.scan.scan_eq, hp]; rfl
  have hbegin : exec .urxDrain s = .next (scanOpened s) := exec_drain_begin hp he
  obtain ⟨n, t0, hscan, hrun, _⟩ := execN_scan (tailLenOf Config.impl s) (scanOpened s)
    ((exec_sound .urxDrain h).inv hbegin) rfl (Nat.zero_add _).le
  have hall : ((slotBytes Config.impl (scanOpened s).urxTail (scanOpened s)).drop (scanOpened s).urxPos).take
      (tailLenOf Config.impl s) = slotBytes Config.impl s.urxTail s := by
    rw [← length_slotBytes]; exact List.take_length
  rw [hall] at hscan
  obtain ⟨new, hdev, hblind⟩ := scanAll_blind hscan
  have hrx := hblind.run hscan
  have hresets : t0.resets = s.resets := scanAll_resets (s := scanOpened s) hscan
  obtain ⟨x, rfl⟩ : ∃ x : State, t0 = x.withRx ((scanOpened s).rx.adding new) := ⟨t0, by rw [← hrx]; rfl⟩
  have hlen : tailLenOf Config.impl (x.withRx { (scanOpened s).rx.adding new with upos := tailLenOf Config.impl s }) =
      tailLenOf Config.impl s := congrArg (fun r => s.urxLen.readOr (Config.impl.freeLen r) s.urxTail) hresets
  have hend := execN_release (s := x.withRx { (scanOpened s).rx.adding new with upos := tailLenOf Config.impl s }) rfl
    h.urx.tail_lt hlen.le
  have hrun' : execN .urxDrain n (scanOpened s) =
      .next (x.withRx { (scanOpened s).rx.adding new with upos := tailLenOf Config.impl s }) := by
    rw [hrun]
    simp only [State.withRx, scanOpened, Nat.zero_add]
  refine ⟨1 + (n + 3), x, new, hblind s.rx, hdev, ?_⟩
  rw [execN_add (execN_succ hbegin), execN_add hrun', hend]
  simp only [State.withRx, scanOpened, Rx.adding, Rx.drained, State.rx, State.emit, hclosed, hp, List.cons_append]

/-- The drains of all captured chunks come to what their bytes come to; each presents its result. -/
theorem execN_drain_all (m : Nat) (s : State) (hm : (urxChunks Config.impl s).length = m) (h : s.Inv Config.impl)
    (hp : s.pos = .rest) :
    ∃ (n : Nat) (x : State) (new : List Obs) (p : Nat), scanAll Config.impl (urxChunks Config.impl s).flatten s =
        .ok (x.withRx (s.rx.adding (new.filter Obs.onDevice))) ∧
      new.filter (fun o => !o.onDevice) = List.replicate m (.result .fgp .ok) ∧
      execN .urxDrain n s = .next (x.withRx (s.rx.drained s.urxHead p new)) := by
  induction m generalizing s with
  | zero =>
    have hnil := List.length_eq_zero_iff.mp hm
    have hempty : s.urxHead = s.urxTail := by
      simpa [ringEmpty] using (urxChunks_eq_nil_iff h.urx).mp hnil
    exact ⟨0, s, [], s.urxPos, by rw [hnil]; rfl, rfl, by rw [hempty]; rfl⟩
  | succ m ih =>
    have he : ringEmpty s.urxHead s.urxTail = false := by
      rw [← Bool.not_eq_true, ← urxChunks_eq_nil_iff h.urx]
      intro hnil
      rw [hnil] at hm
      cases hm
    obtain ⟨n1, y, new1, hscan1, hdev1, hrun1⟩ := execN_drain_one h hp he
    obtain ⟨hkept, hnone⟩ := filter_onDevice hdev1
    have hresets : y.resets = s.resets := scanAll_resets (t := y.withRx (s.rx.adding new1)) hscan1
    generalize hr : s.rx.drained _ _ _ = r at hrun1
    have hchunks : urxChunks Config.impl s = slotBytes Config.impl s.urxTail s :: urxChunks Config.impl (y.withRx r) :=
      urxChunks_advance h.urx.head_lt h.urx.tail_lt he (by rw [← hr, ← hresets]; rfl)
    obtain ⟨n2, x, new2, p, hscan2, hres2, hrun2⟩ := ih (y.withRx r)
      (by rw [hchunks, List.length_cons] at hm; exact Nat.succ.inj hm) (execN_inv h hrun1) (by rw [← hr]; exact hp)
    obtain ⟨new, _, hblind⟩ := scanAll_blind hscan2
    obtain rfl : new = new2.filter Obs.onDevice :=
      List.append_cancel_right (hblind.log hscan2).symm
    have hthen := hblind (s.rx.adding new1)
    rw [State.withRx_withRx, State.withRx_withRx] at hthen
    refine ⟨n1 + n2, x, new2 ++ .result .fgp .ok :: new1, p, ?_, ?_, ?_⟩
    · rw [hchunks, List.flatten_cons, scanAll_append, hscan1, List.filter_append,
        List.filter_cons_of_neg (by decide), hkept, ← Rx.adding_adding]
      exact hthen
    · rw [List.filter_append, hres2, List.filter_cons_of_pos (by decide), hnone, ← List.replicate_succ']
    · rw [execN_add hrun1, hrun2, ← hr]
      simp only [Rx.drained, State.rx_withRx, List.append_assoc, List.cons_append]
      rfl

end Drains

end Sys2Proof.Machine
end

section
/-! PROOFS. Overlong lines and whole lines (spec/44_usbrx.md R197, R200, R201, R205), of the bytes and of the machine. -/

namespace Sys2Proof.Machine

section Drains
variable {c : Config} {s : State}

/-- When all captured chunks are drained, none is left. -/
theorem urxChunks_drained {x : State} {r : Rx} (h : (x.withRx r).Inv Config.impl) (ht : r.tail = r.head) :
    urxChunks Config.impl (x.withRx r) = [] :=
  (urxChunks_eq_nil_iff h.urx).mpr (beq_iff_eq.mpr ht.symm)

/-- What is observed beside results. -/
theorem eq_of_filter_onDevice_nil {new : List Obs} (h : new.filter Obs.onDevice = []) :
    new.filter (fun o => !o.onDevice) = new :=
  List.filter_eq_self.mpr fun o ho => by simpa using List.filter_eq_nil_iff.mp h o ho

/-- A result is no line for the parser. -/
theorem parsedLines_filter (new log : List Obs) : parsedLines (new.filter Obs.onDevice ++ log) = parsedLines (new ++ log) := by
  induction new with
  | nil => rfl
  | cons o new ih =>
    cases o with
    | result => exact ih
    | parse line => exact congrArg (line :: ·) ih
    | _ => exact ih

end Drains

/-- Settles O45: of the bytes, of `k` bytes of the tail slot, and of all captured chunks. -/
theorem overlongLinesOverflowOncePerBufferful : Obligations.OverlongLinesOverflowOncePerBufferful := by
  refine ⟨fun c bs s h0 hevt hb => ?_, fun k s h hp h0 hk hb => ?_, fun s h hp h0 hb => ?_⟩
  · obtain ⟨m, hm⟩ := scanAll_data c bs s (h0 ▸ Nat.zero_le _) hevt hb
    rw [h0, Nat.zero_add] at hm
    exact ⟨_, hm, rfl, rfl, rfl, rfl⟩
  · obtain ⟨n, t, hscan, hrun, hn⟩ := execN_scan k s h hp hk
    obtain ⟨m, hm⟩ := scanAll_data Config.impl _ s h.line.idx_le (h.evt _) hb
    have hlen : (((slotBytes Config.impl s.urxTail s).drop s.urxPos).take k).length = k := by
      rw [List.length_take, List.length_drop, length_slotBytes]; omega
    rw [h0, Nat.zero_add, hlen, hscan] at hm
    obtain rfl := Except.ok.inj hm
    exact ⟨_, by rw [← hn hb]; exact hrun, rfl⟩
  · obtain ⟨n, x, new, p, hscan, hres, hrun⟩ := execN_drain_all _ s rfl h hp
    obtain ⟨m, hm⟩ := scanAll_data Config.impl _ s h.line.idx_le (h.evt _) hb
    rw [h0, Nat.zero_add, hscan] at hm
    have heq := Except.ok.inj hm
    have hlog : new.filter Obs.onDevice ++ s.log = s.log := congrArg State.log heq
    rw [eq_of_filter_onDevice_nil (List.append_left_eq_self.mp hlog)] at hres
    have hfinal : x.withRx (s.rx.drained s.urxHead p new) =
        (lineFilled Config.impl (urxChunks Config.impl s).flatten.length m s).withRx (s.rx.drained s.urxHead p new) := by
      rw [← heq]; rfl
    refine ⟨n, _, hrun, urxChunks_drained (execN_inv h hrun) rfl, ?_⟩
    rw [hfinal, hres]
    rfl

/-! ### A line and its terminator -/

section Line
variable {c : Config} {s : State} {l : List Byte}

/-- The line in progress once it holds `l`. -/
def lineHeld (l : List Byte) (s : State) : State :=
  { s with lineIdx := l.length, lineMem := s.lineMem.writeAll 0 l }

theorem lineOf_lineHeld (c : Config) (l : List Byte) (s : State) : lineOf c (lineHeld l s) = l :=
  Memory.readAll_writeAll _ _ _ _

theorem scanAll_lineHeld (h0 : s.lineIdx = 0) (hl : l.length ≤ c.mtu) (hb : ∀ b ∈ l, b ≠ term) :
    scanAll c l s = .ok (lineHeld l s) := by
  rw [scanAll_line c l s (by omega) hb, h0, Nat.zero_add]
  rfl

/-- The line and its terminator, from an empty line: the parser's operations run, the reply is offered. -/
theorem scanAll_terminated (h : s.Inv c) (h0 : s.lineIdx = 0) (hl : l.length ≤ c.mtu) (hb : ∀ b ∈ l, b ≠ term) :
    ∃ s2, runCmds c (c.parse l).1 ((lineHeld l s).emit (.parse l)) = .ok s2 ∧
      scanTerminator c (lineHeld l s) = .ok { (utxSend c [replyOf c l] s2).2 with lineIdx := 0 } ∧
      scanAll c (l ++ [term]) s = .ok { (utxSend c [replyOf c l] s2).2 with lineIdx := 0 } := by
  obtain ⟨s2, hrun⟩ := runCmds_ok (c := c) (s := (lineHeld l s).emit (.parse l)) (c.parse l).1 h.ctx.head_lt
  have hterm := scanTerminator_ok (s := lineHeld l s) (c := c) hl (by rw [lineOf_lineHeld]; exact hrun)
  rw [lineOf_lineHeld] at hterm
  refine ⟨s2, hrun, hterm, ?_⟩
  rw [scanAll_append, scanAll_lineHeld h0 hl hb]
  change scanAll c [term] (lineHeld l s) = _
  rw [scanAll, scanByte_term, hterm]
  rfl

/-- The operations and the reply leave the receiver as it is, but for what is observed. -/
theorem rx_replied {t : State} {cmds : List Cmd} (h : runCmds c cmds s = .ok t) (bytes : List Byte) :
    (utxSend c bytes t).2.rx = { s.rx with log := (utxSend c bytes t).2.log } := by
  rw [utxSend_frame, runCmds_frame h]; rfl

/-- After the drains the state is that of a reply from elsewhere, but for the line, the scan and what was observed. -/
theorem withRx_drained_of_aside {u v : State} (h : Aside u v) (hu : u.rx = { s.rx with log := u.log })
    (hv : v.rx = { s.rx with log := v.log }) (tail upos : Nat) (new : List Obs) :
    ({ u with lineIdx := 0 } : State).withRx (s.rx.drained tail upos new) =
      { v with lineIdx := 0, lineMem := u.lineMem, urxTail := tail, urxPos := upos, log := new ++ s.log } := by
  obtain ⟨pos, ut, us, up, li, lm, lg, rfl⟩ := h
  simp only [State.rx, Rx.mk.injEq] at hu hv
  obtain ⟨hpos, hhead, _, hscan, _, hmem, hlen, harmed, hlost, _⟩ := hu
  obtain ⟨hpos', _, _, hscan', _⟩ := hv
  simp only [State.withRx, Rx.drained, State.rx, hpos', hscan', hhead, hmem, hlen, harmed, ← hlost]

end Line

/-- Settles O46: the line is held whole when its terminator comes, and the drains come to what the bytes come to. -/
theorem lineReachesTheParserWhole : Obligations.LineReachesTheParserWhole := by
  refine ⟨fun c l s h h0 hl hb => ?_, fun l s h hp h0 hl hb hchunks => ?_⟩
  · obtain ⟨s2, hrun, _, hscan⟩ := scanAll_terminated h h0 hl hb
    exact ⟨_, s2, _, scanAll_lineHeld h0 hl hb, rfl, lineOf_lineHeld c l s, hrun, hscan, rfl, rfl⟩
  · obtain ⟨s2, hrun, hterm, hscan⟩ := scanAll_terminated h h0 hl hb
    have haside : Aside ((lineHeld l s).emit (.parse l)) s :=
      ⟨s.pos, s.urxTail, s.urxScan, s.urxPos, s.lineIdx, s.lineMem, s.log, rfl⟩
    obtain ⟨s1, hrun1, haside1⟩ := runCmds_aside haside hrun
    obtain ⟨n, x, new, p, hdrain, _, hexec⟩ := execN_drain_all _ s rfl h hp
    rw [hchunks, hscan] at hdrain
    have heq := Except.ok.inj hdrain
    obtain ⟨seen, _, hparsed, hblind⟩ := scanTerminator_blind hterm
    have hseen : seen ++ s.log = new.filter Obs.onDevice ++ s.log :=
      (hblind.log hterm).symm.trans (congrArg State.log heq)
    refine ⟨n, s1, _, hrun1, hexec, urxChunks_drained (execN_inv h hexec) rfl, ?_, ?_⟩
    · change parsedLines (new ++ s.log) = _
      rw [← parsedLines_filter, ← hseen]
      exact hparsed.trans (by rw [lineOf_lineHeld]; rfl)
    · have hfinal := withRx_drained_of_aside (s := s) (utxSend_aside [replyOf Config.impl l] haside1)
        (rx_replied hrun [replyOf Config.impl l]) (rx_replied hrun1 [replyOf Config.impl l]) s.urxHead p new
      have hmem : (utxSend Config.impl [replyOf Config.impl l] s2).2.lineMem = x.lineMem :=
        (congrArg State.lineMem heq :)
      rw [heq, hmem] at hfinal
      exact hfinal

end Sys2Proof.Machine
end
